-- ==== Sys2Proof/Word.lean ====
section
/-! DEFINITION. The value types of the engine (spec/00_scope.md R4, R5, R7). Every value of the spec is an
unsigned integer of a stated width; a value the host can see as bits is a bit vector, and formulas are
evaluated over the natural numbers (R6) before they are given their width. -/

namespace Sys2Proof

/-- A 32-bit value: a general register, a control and status register, a command word (R4 `XLEN`). -/
abbrev Word := BitVec 32

/-- One byte of the data memory (R44). -/
abbrev Byte := BitVec 8

/-- A 32-bit ARGB colour (R7): alpha in bits 31:24, then red, green, blue. -/
abbrev Color := Word

/-- A general register number, 0 to 15 (R20; all 16 values are legal, R92). -/
abbrev Reg := Fin 16

end Sys2Proof
end

