-- ==== Sys2Proof/Syntax.lean ====
section
/-! DEFINITION. The commands as syntax: the selector values of spec/30_encoding.md R93 and one constructor of
`Instr` for each row of spec/opcode_table.json (R94). -/

namespace Sys2Proof

/-- The 17 colour modes, in the order of their codes 0 to 16 (R93). -/
inductive ColorMode where
  | argb8888 | rgba8888 | rgb888 | argb6666 | argb4444 | rgb565 | rgb565t
  | gray8 | grayalpha8 | gray4 | alpha8 | alpha4 | mono | idx1 | idx2 | idx4 | idx8
deriving DecidableEq, Repr

/-- The 14 blending modes, in the order of their codes 0 to 13 (R93); the last two are the internal variants
that R97 makes legal in every command with a `bm` field. -/
inductive BlendMode where
  | src | srcover | srcin | srcatop | dst | dstover | dstin | dstatop
  | clear | srcout | dstout | xor | srcoveropq | dstoveropq
deriving DecidableEq, Repr

/-- Which end of a byte pixel 0 occupies (R93 field `po`, R271). -/
inductive PixelOrder where
  | msb | lsb
deriving DecidableEq, Repr

/-- Which end of a raw pixel lies at the lower address (R93 field `bo`, R61). -/
inductive ByteOrder where
  | be | le
deriving DecidableEq, Repr

/-- A channel of a `Color`, by its byte number in the word (R93 field `ch`). -/
inductive Channel where
  | b | g | r | a
deriving DecidableEq, Repr

/-- The transparency argument of PALRO and PALRW (R93 field `tm`, R295). -/
inductive TmArg where
  | none | crude | full | auto
deriving DecidableEq, Repr

/-- The 15 control and status registers (R24). -/
inductive Csr where
  | ctrl | status | faultCause | faultCmd | faultInfo | cmdcnt
  | transp565 | tint | monoFg | monoBg
  | palKind | palBase | palSize | palCap | palTm
deriving DecidableEq, Repr

/-- The commands of CCE-1: one constructor per row of the opcode table (R94), the register fields first (`rd`,
`rs1`, `rs2`, only those the row uses; `rn` is an `rd` field that is read and not written), the selectors after
them. -/
inductive Instr where
  | nop
  | ldi (rd : Reg) (imm16 : BitVec 16)
  | ldih (rd : Reg) (imm16 : BitVec 16)
  | mov (rd rs1 : Reg)
  | csrr (rd : Reg) (csr : Csr)
  | csrw (rs1 : Reg) (csr : Csr)
  | ldc (rd rs1 : Reg)
  | stc (rs1 rs2 : Reg)
  | ldraw (rd rs1 : Reg) (cm : ColorMode) (bo : ByteOrder)
  | straw (rs1 rs2 : Reg) (cm : ColorMode) (bo : ByteOrder)
  | cget (rd rs1 : Reg) (ch : Channel)
  | cset (rd rs1 rs2 : Reg) (ch : Channel)
  | copq (rd rs1 : Reg)
  | cisopq (rd rs1 : Reg)
  | toargb (rd rs1 : Reg) (cm : ColorMode)
  | fromargb (rd rs1 : Reg) (cm : ColorMode)
  | transp (rd : Reg) (cm : ColorMode)
  | bpp (rd : Reg) (cm : ColorMode)
  | blend (rd rs1 rs2 : Reg) (bm : BlendMode)
  | blendv (rn rs1 rs2 : Reg) (bm : BlendMode)
  | blendvs (rn rs1 rs2 : Reg) (bm : BlendMode)
  | blendraw (rd rs1 rs2 : Reg) (cm : ColorMode) (bm : BlendMode)
  | blendrawm (rs1 rs2 : Reg) (cm : ColorMode) (bm : BlendMode) (bo : ByteOrder)
  | sbload (rd rs1 rs2 : Reg) (cm : ColorMode) (po : PixelOrder)
  | sbstore (rd rs1 rs2 : Reg) (cm : ColorMode) (po : PixelOrder)
  | sbexpand (rd rs1 : Reg) (cm : ColorMode)
  | sbbulk (rs1 rs2 : Reg) (cm : ColorMode) (po : PixelOrder)
  | sbloadm (rd rs1 rs2 : Reg) (cm : ColorMode) (po : PixelOrder)
  | sbstorem (rn rs1 rs2 : Reg) (cm : ColorMode) (po : PixelOrder)
  | palro (rs1 rs2 : Reg) (tm : TmArg)
  | palrw (rs1 rs2 : Reg) (tm : TmArg)
  | paldyn (rs1 : Reg)
  | palidx (rd rs1 : Reg)
deriving DecidableEq, Repr

end Sys2Proof
end

