-- ==== Sys2Proof/WellFormed.lean ====
section
/-! DEFINITION. Which instruction terms are commands: the conditions (g) and (h) of spec/30_encoding.md R95 that
the syntax itself does not exclude. -/

namespace Sys2Proof

/-- The class column of R93's colour-mode table: codes 9, 11, 12, 13, 14, 15 are sub-byte, the rest full-byte. -/
def ColorMode.fullByte : ColorMode → Bool
  | .argb8888 | .rgba8888 | .rgb888 | .argb6666 | .argb4444 | .rgb565 | .rgb565t | .gray8 | .grayalpha8 => true
  | .alpha8 | .idx8 => true
  | .gray4 | .alpha4 | .mono | .idx1 | .idx2 | .idx4 => false

/-- The access class column of R24: true for RW, false for RO. -/
def Csr.writable : Csr → Bool
  | .ctrl | .transp565 | .tint | .monoFg | .monoBg => true
  | .status | .faultCause | .faultCmd | .faultInfo | .cmdcnt => false
  | .palKind | .palBase | .palSize | .palCap | .palTm => false

/-- An instruction that some legal command word stands for: LDRAW, STRAW and BLENDRAWM take a full-byte mode, the
six sub-byte commands a sub-byte mode (R95(g)), and CSRW a register of class RW (R95(h)). -/
def Instr.wellFormed : Instr → Bool
  | .nop | .ldi _ _ | .ldih _ _ | .mov _ _ | .csrr _ _ | .ldc _ _ | .stc _ _ => true
  | .csrw _ csr => csr.writable
  | .ldraw _ _ cm _ | .straw _ _ cm _ => cm.fullByte
  | .cget _ _ _ | .cset _ _ _ _ | .copq _ _ | .cisopq _ _ => true
  | .toargb _ _ _ | .fromargb _ _ _ | .transp _ _ | .bpp _ _ => true
  | .blend _ _ _ _ | .blendv _ _ _ _ | .blendvs _ _ _ _ | .blendraw _ _ _ _ _ => true
  | .blendrawm _ _ cm _ _ => cm.fullByte
  | .sbload _ _ _ cm _ | .sbstore _ _ _ cm _ | .sbexpand _ _ cm => !cm.fullByte
  | .sbbulk _ _ cm _ | .sbloadm _ _ _ cm _ | .sbstorem _ _ _ cm _ => !cm.fullByte
  | .palro _ _ _ | .palrw _ _ _ | .paldyn _ | .palidx _ _ => true

end Sys2Proof
end

