-- ==== Sys2Proof/Decode.lean ====
section
/-! DEFINITION. Command words (spec/30_encoding.md): the fields of R91, the selector codes of R93, the opcode
map of R94, the checks of R95 in their order, and after the decoder the encoder, from the same tables. -/

namespace Sys2Proof

/-! ## Bit fields -/

/-- `v[hi:lo]`, the unsigned integer made of bits `hi` down to `lo` of `v`, inclusive (R5). -/
def slice (v hi lo : Nat) : Nat := v / 2 ^ lo % 2 ^ (hi + 1 - lo)

/-! ## Selector codes (R93) -/

/-- The code of a colour mode, 0 to 16 (R93). -/
def ColorMode.code : ColorMode → Nat
  | .argb8888 => 0
  | .rgba8888 => 1
  | .rgb888 => 2
  | .argb6666 => 3
  | .argb4444 => 4
  | .rgb565 => 5
  | .rgb565t => 6
  | .gray8 => 7
  | .grayalpha8 => 8
  | .gray4 => 9
  | .alpha8 => 10
  | .alpha4 => 11
  | .mono => 12
  | .idx1 => 13
  | .idx2 => 14
  | .idx4 => 15
  | .idx8 => 16

/-- The ColorMode of a code, none for a reserved one. -/
def ColorMode.ofCode? : Nat → Option ColorMode
  | 0 => some .argb8888
  | 1 => some .rgba8888
  | 2 => some .rgb888
  | 3 => some .argb6666
  | 4 => some .argb4444
  | 5 => some .rgb565
  | 6 => some .rgb565t
  | 7 => some .gray8
  | 8 => some .grayalpha8
  | 9 => some .gray4
  | 10 => some .alpha8
  | 11 => some .alpha4
  | 12 => some .mono
  | 13 => some .idx1
  | 14 => some .idx2
  | 15 => some .idx4
  | 16 => some .idx8
  | _ => none

/-- The code of a blending mode, 0 to 13 (R93). -/
def BlendMode.code : BlendMode → Nat
  | .src => 0
  | .srcover => 1
  | .srcin => 2
  | .srcatop => 3
  | .dst => 4
  | .dstover => 5
  | .dstin => 6
  | .dstatop => 7
  | .clear => 8
  | .srcout => 9
  | .dstout => 10
  | .xor => 11
  | .srcoveropq => 12
  | .dstoveropq => 13

/-- The BlendMode of a code, none for a reserved one. -/
def BlendMode.ofCode? : Nat → Option BlendMode
  | 0 => some .src
  | 1 => some .srcover
  | 2 => some .srcin
  | 3 => some .srcatop
  | 4 => some .dst
  | 5 => some .dstover
  | 6 => some .dstin
  | 7 => some .dstatop
  | 8 => some .clear
  | 9 => some .srcout
  | 10 => some .dstout
  | 11 => some .xor
  | 12 => some .srcoveropq
  | 13 => some .dstoveropq
  | _ => none

/-- The code of a pixel order (R93 `po`). -/
def PixelOrder.code : PixelOrder → Nat
  | .msb => 0
  | .lsb => 1

/-- The PixelOrder of a field value (every value is legal, R95; only the field's own bits count). -/
def PixelOrder.ofField (v : Nat) : PixelOrder :=
  if v % 2 = 0 then .msb else .lsb

/-- The code of a byte order (R93 `bo`). -/
def ByteOrder.code : ByteOrder → Nat
  | .be => 0
  | .le => 1

/-- The ByteOrder of a field value (every value is legal, R95; only the field's own bits count). -/
def ByteOrder.ofField (v : Nat) : ByteOrder :=
  if v % 2 = 0 then .be else .le

/-- The code of a channel, its byte number in the word (R93 `ch`). -/
def Channel.code : Channel → Nat
  | .b => 0
  | .g => 1
  | .r => 2
  | .a => 3

/-- The Channel of a field value (every value is legal, R95; only the field's own bits count). -/
def Channel.ofField (v : Nat) : Channel :=
  match v % 4 with
  | 0 => .b
  | 1 => .g
  | 2 => .r
  | _ => .a

/-- The code of a transparency argument (R93 `tm`). -/
def TmArg.code : TmArg → Nat
  | .none => 0
  | .crude => 1
  | .full => 2
  | .auto => 3

/-- The TmArg of a field value (every value is legal, R95; only the field's own bits count). -/
def TmArg.ofField (v : Nat) : TmArg :=
  match v % 4 with
  | 0 => .none
  | 1 => .crude
  | 2 => .full
  | _ => .auto

/-- The number of a control and status register (R24). -/
def Csr.code : Csr → Nat
  | .ctrl => 0x00
  | .status => 0x01
  | .faultCause => 0x02
  | .faultCmd => 0x03
  | .faultInfo => 0x04
  | .cmdcnt => 0x05
  | .transp565 => 0x10
  | .tint => 0x11
  | .monoFg => 0x12
  | .monoBg => 0x13
  | .palKind => 0x20
  | .palBase => 0x21
  | .palSize => 0x22
  | .palCap => 0x23
  | .palTm => 0x24

/-- The Csr of a code, none for a reserved one. -/
def Csr.ofCode? : Nat → Option Csr
  | 0x00 => some .ctrl
  | 0x01 => some .status
  | 0x02 => some .faultCause
  | 0x03 => some .faultCmd
  | 0x04 => some .faultInfo
  | 0x05 => some .cmdcnt
  | 0x10 => some .transp565
  | 0x11 => some .tint
  | 0x12 => some .monoFg
  | 0x13 => some .monoBg
  | 0x20 => some .palKind
  | 0x21 => some .palBase
  | 0x22 => some .palSize
  | 0x23 => some .palCap
  | 0x24 => some .palTm
  | _ => none

/-! ## The opcode map (R94) -/

/-- The commands by name, in the order of R94's table. -/
inductive Opcode where
  | nop | ldi | ldih | mov | csrr | csrw | ldc | stc | ldraw | straw | cget
  | cset | copq | cisopq | toargb | fromargb | transp | bpp | blend | blendv | blendvs | blendraw
  | blendrawm | sbload | sbstore | sbexpand | sbbulk | sbloadm | sbstorem | palro | palrw | paldyn | palidx
deriving DecidableEq, Repr

/-- The opcode byte, bits 7:0 of the command word (R94). -/
def Opcode.code : Opcode → Nat
  | .nop => 0x00
  | .ldi => 0x01
  | .ldih => 0x02
  | .mov => 0x03
  | .csrr => 0x04
  | .csrw => 0x05
  | .ldc => 0x06
  | .stc => 0x07
  | .ldraw => 0x08
  | .straw => 0x09
  | .cget => 0x10
  | .cset => 0x11
  | .copq => 0x12
  | .cisopq => 0x13
  | .toargb => 0x20
  | .fromargb => 0x21
  | .transp => 0x22
  | .bpp => 0x23
  | .blend => 0x30
  | .blendv => 0x31
  | .blendvs => 0x32
  | .blendraw => 0x33
  | .blendrawm => 0x34
  | .sbload => 0x40
  | .sbstore => 0x41
  | .sbexpand => 0x42
  | .sbbulk => 0x43
  | .sbloadm => 0x44
  | .sbstorem => 0x45
  | .palro => 0x50
  | .palrw => 0x51
  | .paldyn => 0x52
  | .palidx => 0x53

/-- The command of an opcode byte, none for an unassigned one (R94, R95(a)). -/
def Opcode.ofCode? : Nat → Option Opcode
  | 0x00 => some .nop
  | 0x01 => some .ldi
  | 0x02 => some .ldih
  | 0x03 => some .mov
  | 0x04 => some .csrr
  | 0x05 => some .csrw
  | 0x06 => some .ldc
  | 0x07 => some .stc
  | 0x08 => some .ldraw
  | 0x09 => some .straw
  | 0x10 => some .cget
  | 0x11 => some .cset
  | 0x12 => some .copq
  | 0x13 => some .cisopq
  | 0x20 => some .toargb
  | 0x21 => some .fromargb
  | 0x22 => some .transp
  | 0x23 => some .bpp
  | 0x30 => some .blend
  | 0x31 => some .blendv
  | 0x32 => some .blendvs
  | 0x33 => some .blendraw
  | 0x34 => some .blendrawm
  | 0x40 => some .sbload
  | 0x41 => some .sbstore
  | 0x42 => some .sbexpand
  | 0x43 => some .sbbulk
  | 0x44 => some .sbloadm
  | 0x45 => some .sbstorem
  | 0x50 => some .palro
  | 0x51 => some .palrw
  | 0x52 => some .paldyn
  | 0x53 => some .palidx
  | _ => none

/-- The format I and the four sub-forms of format R (R91). -/
inductive Form where
  | I | RM | RC | RT | RS
deriving DecidableEq, Repr

/-- One row of R94: the form, and which fields the command uses. -/
structure OpRow where
  form : Form
  rd : Bool := false
  rs1 : Bool := false
  rs2 : Bool := false
  cm : Bool := false
  bm : Bool := false
  po : Bool := false
  bo : Bool := false
deriving DecidableEq, Repr

/-- The form and field columns of R94. -/
def Opcode.row : Opcode → OpRow
  | .nop => { form := .RM }
  | .ldi => { form := .I, rd := true }
  | .ldih => { form := .I, rd := true }
  | .mov => { form := .RM, rd := true, rs1 := true }
  | .csrr => { form := .RS, rd := true }
  | .csrw => { form := .RS, rs1 := true }
  | .ldc => { form := .RM, rd := true, rs1 := true }
  | .stc => { form := .RM, rs1 := true, rs2 := true }
  | .ldraw => { form := .RM, rd := true, rs1 := true, cm := true, bo := true }
  | .straw => { form := .RM, rs1 := true, rs2 := true, cm := true, bo := true }
  | .cget => { form := .RC, rd := true, rs1 := true }
  | .cset => { form := .RC, rd := true, rs1 := true, rs2 := true }
  | .copq => { form := .RM, rd := true, rs1 := true }
  | .cisopq => { form := .RM, rd := true, rs1 := true }
  | .toargb => { form := .RM, rd := true, rs1 := true, cm := true }
  | .fromargb => { form := .RM, rd := true, rs1 := true, cm := true }
  | .transp => { form := .RM, rd := true, cm := true }
  | .bpp => { form := .RM, rd := true, cm := true }
  | .blend => { form := .RM, rd := true, rs1 := true, rs2 := true, bm := true }
  | .blendv => { form := .RM, rd := true, rs1 := true, rs2 := true, bm := true }
  | .blendvs => { form := .RM, rd := true, rs1 := true, rs2 := true, bm := true }
  | .blendraw => { form := .RM, rd := true, rs1 := true, rs2 := true, cm := true, bm := true }
  | .blendrawm => { form := .RM, rs1 := true, rs2 := true, cm := true, bm := true, bo := true }
  | .sbload => { form := .RM, rd := true, rs1 := true, rs2 := true, cm := true, po := true }
  | .sbstore => { form := .RM, rd := true, rs1 := true, rs2 := true, cm := true, po := true }
  | .sbexpand => { form := .RM, rd := true, rs1 := true, cm := true }
  | .sbbulk => { form := .RM, rs1 := true, rs2 := true, cm := true, po := true }
  | .sbloadm => { form := .RM, rd := true, rs1 := true, rs2 := true, cm := true, po := true }
  | .sbstorem => { form := .RM, rd := true, rs1 := true, rs2 := true, cm := true, po := true }
  | .palro => { form := .RT, rs1 := true, rs2 := true }
  | .palrw => { form := .RT, rs1 := true, rs2 := true }
  | .paldyn => { form := .RM, rs1 := true }
  | .palidx => { form := .RM, rd := true, rs1 := true }

/-! ## Decoding -/

/-- Why a word is not a command, by the condition of R95 it meets. The machine raises IllegalCommand for each. -/
inductive DecodeError where
  /-- (a) the opcode is not in the table -/
  | unassignedOpcode
  /-- (b) format I with `word[15:12]` not 0 -/
  | immediateFormBits
  /-- (c) format R with bit 31 set -/
  | bitZ
  /-- (d) a bit that the sub-form says must be 0 -/
  | subFormBits
  /-- (e) a field the command does not use is not 0 -/
  | unusedField
  /-- (f) a reserved colour-mode or blending-mode code -/
  | reservedSelector
  /-- (g) a colour mode of the class the command does not take -/
  | wrongModeClass
  /-- (h) a CSR number that does not exist, or for CSRW one that is not of class RW -/
  | csrNumber
deriving DecidableEq, Repr

/-- A field of width `hi - lo + 1` that the command does not use must be 0 (R95(e)). -/
def fieldClear (used : Bool) (v hi lo : Nat) : Bool := used || slice v hi lo == 0

/-- Conditions (b) to (e) of R95: the bits that the command's row says must be 0. -/
def reservedBits (row : OpRow) (v : Nat) : Option DecodeError :=
  match row.form with
  | .I => if slice v 15 12 = 0 then none else some .immediateFormBits
  | .RM =>
    if slice v 31 31 ≠ 0 then some .bitZ
    else if fieldClear row.rd v 11 8 && fieldClear row.rs1 v 15 12 && fieldClear row.rs2 v 19 16
        && fieldClear row.cm v 24 20 && fieldClear row.bm v 28 25 && fieldClear row.po v 29 29
        && fieldClear row.bo v 30 30 then none
    else some .unusedField
  | .RC | .RT =>
    if slice v 31 31 ≠ 0 then some .bitZ
    else if slice v 30 22 ≠ 0 then some .subFormBits
    else if fieldClear row.rd v 11 8 && fieldClear row.rs1 v 15 12 && fieldClear row.rs2 v 19 16 then none
    else some .unusedField
  | .RS =>
    if slice v 31 31 ≠ 0 then some .bitZ
    else if slice v 30 28 ≠ 0 then some .subFormBits
    else if fieldClear row.rd v 11 8 && fieldClear row.rs1 v 15 12 && fieldClear row.rs2 v 19 16 then none
    else some .unusedField

/-- A register field (R92). -/
def regField (v lo : Nat) : Reg := Fin.ofNat 16 (slice v (lo + 3) lo)

/-- Apply a selector that has reserved codes (R95(f)), or a CSR number that may not exist (R95(h)). -/
def withCode {α : Type} (e : DecodeError) (code : Option α) (k : α → Instr) : Except DecodeError Instr :=
  match code with
  | some a => .ok (k a)
  | none => .error e

/-- The `cm` field (bits 24:20). -/
def cmField (v : Nat) : Option ColorMode := ColorMode.ofCode? (slice v 24 20)

/-- The `bm` field (bits 28:25). -/
def bmField (v : Nat) : Option BlendMode := BlendMode.ofCode? (slice v 28 25)

/-- The `po` field (bit 29). -/
def poField (v : Nat) : PixelOrder := PixelOrder.ofField (slice v 29 29)

/-- The `bo` field (bit 30). -/
def boField (v : Nat) : ByteOrder := ByteOrder.ofField (slice v 30 30)

/-- The `ch` field of sub-form RC (bits 21:20). -/
def chField (v : Nat) : Channel := Channel.ofField (slice v 21 20)

/-- The `tm` field of sub-form RT (bits 21:20). -/
def tmField (v : Nat) : TmArg := TmArg.ofField (slice v 21 20)

/-- The `csr` field of sub-form RS (bits 27:20). -/
def csrField (v : Nat) : Option Csr := Csr.ofCode? (slice v 27 20)

/-- Both mode selectors of BLENDRAW and BLENDRAWM. -/
def cmBmField (v : Nat) : Option (ColorMode × BlendMode) :=
  match cmField v, bmField v with
  | some cm, some bm => some (cm, bm)
  | _, _ => none

/-- The instruction of a word whose opcode is `op`, from its fields (R91, R93): conditions (f) and, for a number
that does not exist, (h) of R95. -/
def buildInstr (op : Opcode) (v : Nat) : Except DecodeError Instr :=
  let rd := regField v 8
  let rs1 := regField v 12
  let rs2 := regField v 16
  match op with
  | .nop => .ok .nop
  | .ldi => .ok (.ldi rd (BitVec.ofNat 16 (slice v 31 16)))
  | .ldih => .ok (.ldih rd (BitVec.ofNat 16 (slice v 31 16)))
  | .mov => .ok (.mov rd rs1)
  | .csrr => withCode .csrNumber (csrField v) (.csrr rd)
  | .csrw => withCode .csrNumber (csrField v) (.csrw rs1)
  | .ldc => .ok (.ldc rd rs1)
  | .stc => .ok (.stc rs1 rs2)
  | .ldraw => withCode .reservedSelector (cmField v) fun cm => .ldraw rd rs1 cm (boField v)
  | .straw => withCode .reservedSelector (cmField v) fun cm => .straw rs1 rs2 cm (boField v)
  | .cget => .ok (.cget rd rs1 (chField v))
  | .cset => .ok (.cset rd rs1 rs2 (chField v))
  | .copq => .ok (.copq rd rs1)
  | .cisopq => .ok (.cisopq rd rs1)
  | .toargb => withCode .reservedSelector (cmField v) (.toargb rd rs1)
  | .fromargb => withCode .reservedSelector (cmField v) (.fromargb rd rs1)
  | .transp => withCode .reservedSelector (cmField v) (.transp rd)
  | .bpp => withCode .reservedSelector (cmField v) (.bpp rd)
  | .blend => withCode .reservedSelector (bmField v) (.blend rd rs1 rs2)
  | .blendv => withCode .reservedSelector (bmField v) (.blendv rd rs1 rs2)
  | .blendvs => withCode .reservedSelector (bmField v) (.blendvs rd rs1 rs2)
  | .blendraw => withCode .reservedSelector (cmBmField v) fun m => .blendraw rd rs1 rs2 m.1 m.2
  | .blendrawm => withCode .reservedSelector (cmBmField v) fun m => .blendrawm rs1 rs2 m.1 m.2 (boField v)
  | .sbload => withCode .reservedSelector (cmField v) fun cm => .sbload rd rs1 rs2 cm (poField v)
  | .sbstore => withCode .reservedSelector (cmField v) fun cm => .sbstore rd rs1 rs2 cm (poField v)
  | .sbexpand => withCode .reservedSelector (cmField v) (.sbexpand rd rs1)
  | .sbbulk => withCode .reservedSelector (cmField v) fun cm => .sbbulk rs1 rs2 cm (poField v)
  | .sbloadm => withCode .reservedSelector (cmField v) fun cm => .sbloadm rd rs1 rs2 cm (poField v)
  | .sbstorem => withCode .reservedSelector (cmField v) fun cm => .sbstorem rd rs1 rs2 cm (poField v)
  | .palro => .ok (.palro rs1 rs2 (tmField v))
  | .palrw => .ok (.palrw rs1 rs2 (tmField v))
  | .paldyn => .ok (.paldyn rs1)
  | .palidx => .ok (.palidx rd rs1)

/-- Conditions (g) and (h) of R95 on a term: what `Instr.wellFormed` refuses, by name. -/
def classError : Instr → DecodeError
  | .csrw _ _ => .csrNumber
  | _ => .wrongModeClass

/-- Read a command word (R90, R91): the instruction it stands for, or the first condition of R95 that it meets. -/
def decode (w : Word) : Except DecodeError Instr :=
  match Opcode.ofCode? (slice w.toNat 7 0) with
  | none => .error .unassignedOpcode
  | some op =>
    match reservedBits op.row w.toNat with
    | some e => .error e
    | none =>
      match buildInstr op w.toNat with
      | .error e => .error e
      | .ok i => if i.wellFormed then .ok i else .error (classError i)

/-- The instruction the decoder reads from a table word: a command is one 32-bit word (R90), so the bits from
`nbits` up are 0 and a word longer than 32 bits is no command. -/
def decodeTableWord (nbits w : Nat) : Option Instr :=
  if w % 2 ^ nbits < 2 ^ 32 then
    match decode (BitVec.ofNat 32 (w % 2 ^ nbits)) with
    | .ok i => some i
    | .error _ => none
  else none

/-! ## Encoding -/

/-- The opcode of an instruction. -/
def Instr.opcode : Instr → Opcode
  | .nop => .nop
  | .ldi _ _ => .ldi
  | .ldih _ _ => .ldih
  | .mov _ _ => .mov
  | .csrr _ _ => .csrr
  | .csrw _ _ => .csrw
  | .ldc _ _ => .ldc
  | .stc _ _ => .stc
  | .ldraw _ _ _ _ => .ldraw
  | .straw _ _ _ _ => .straw
  | .cget _ _ _ => .cget
  | .cset _ _ _ _ => .cset
  | .copq _ _ => .copq
  | .cisopq _ _ => .cisopq
  | .toargb _ _ _ => .toargb
  | .fromargb _ _ _ => .fromargb
  | .transp _ _ => .transp
  | .bpp _ _ => .bpp
  | .blend _ _ _ _ => .blend
  | .blendv _ _ _ _ => .blendv
  | .blendvs _ _ _ _ => .blendvs
  | .blendraw _ _ _ _ _ => .blendraw
  | .blendrawm _ _ _ _ _ => .blendrawm
  | .sbload _ _ _ _ _ => .sbload
  | .sbstore _ _ _ _ _ => .sbstore
  | .sbexpand _ _ _ => .sbexpand
  | .sbbulk _ _ _ _ => .sbbulk
  | .sbloadm _ _ _ _ _ => .sbloadm
  | .sbstorem _ _ _ _ _ => .sbstorem
  | .palro _ _ _ => .palro
  | .palrw _ _ _ => .palrw
  | .paldyn _ => .paldyn
  | .palidx _ _ => .palidx

/-- A format R word of sub-form RM from its fields, bit 31 clear (R91). -/
def packRM (op : Opcode) (rd rs1 rs2 cm bm po bo : Nat) : Word :=
  BitVec.ofNat 32 (op.code + rd * 2 ^ 8 + rs1 * 2 ^ 12 + rs2 * 2 ^ 16 + cm * 2 ^ 20 + bm * 2 ^ 25 + po * 2 ^ 29
    + bo * 2 ^ 30)

/-- A format R word of sub-form RC, RT or RS: the selector stands at bits 20 and up (R91). -/
def packSel (op : Opcode) (rd rs1 rs2 sel : Nat) : Word :=
  BitVec.ofNat 32 (op.code + rd * 2 ^ 8 + rs1 * 2 ^ 12 + rs2 * 2 ^ 16 + sel * 2 ^ 20)

/-- A format I word (R91). -/
def packI (op : Opcode) (rd imm16 : Nat) : Word :=
  BitVec.ofNat 32 (op.code + rd * 2 ^ 8 + imm16 * 2 ^ 16)

/-- The command word of an instruction (R91, R93, R94). -/
def encode : Instr → Word
  | .nop => packRM .nop 0 0 0 0 0 0 0
  | .ldi rd imm16 => packI .ldi rd.val imm16.toNat
  | .ldih rd imm16 => packI .ldih rd.val imm16.toNat
  | .mov rd rs1 => packRM .mov rd.val rs1.val 0 0 0 0 0
  | .csrr rd csr => packSel .csrr rd.val 0 0 csr.code
  | .csrw rs1 csr => packSel .csrw 0 rs1.val 0 csr.code
  | .ldc rd rs1 => packRM .ldc rd.val rs1.val 0 0 0 0 0
  | .stc rs1 rs2 => packRM .stc 0 rs1.val rs2.val 0 0 0 0
  | .ldraw rd rs1 cm bo => packRM .ldraw rd.val rs1.val 0 cm.code 0 0 bo.code
  | .straw rs1 rs2 cm bo => packRM .straw 0 rs1.val rs2.val cm.code 0 0 bo.code
  | .cget rd rs1 ch => packSel .cget rd.val rs1.val 0 ch.code
  | .cset rd rs1 rs2 ch => packSel .cset rd.val rs1.val rs2.val ch.code
  | .copq rd rs1 => packRM .copq rd.val rs1.val 0 0 0 0 0
  | .cisopq rd rs1 => packRM .cisopq rd.val rs1.val 0 0 0 0 0
  | .toargb rd rs1 cm => packRM .toargb rd.val rs1.val 0 cm.code 0 0 0
  | .fromargb rd rs1 cm => packRM .fromargb rd.val rs1.val 0 cm.code 0 0 0
  | .transp rd cm => packRM .transp rd.val 0 0 cm.code 0 0 0
  | .bpp rd cm => packRM .bpp rd.val 0 0 cm.code 0 0 0
  | .blend rd rs1 rs2 bm => packRM .blend rd.val rs1.val rs2.val 0 bm.code 0 0
  | .blendv rn rs1 rs2 bm => packRM .blendv rn.val rs1.val rs2.val 0 bm.code 0 0
  | .blendvs rn rs1 rs2 bm => packRM .blendvs rn.val rs1.val rs2.val 0 bm.code 0 0
  | .blendraw rd rs1 rs2 cm bm => packRM .blendraw rd.val rs1.val rs2.val cm.code bm.code 0 0
  | .blendrawm rs1 rs2 cm bm bo => packRM .blendrawm 0 rs1.val rs2.val cm.code bm.code 0 bo.code
  | .sbload rd rs1 rs2 cm po => packRM .sbload rd.val rs1.val rs2.val cm.code 0 po.code 0
  | .sbstore rd rs1 rs2 cm po => packRM .sbstore rd.val rs1.val rs2.val cm.code 0 po.code 0
  | .sbexpand rd rs1 cm => packRM .sbexpand rd.val rs1.val 0 cm.code 0 0 0
  | .sbbulk rs1 rs2 cm po => packRM .sbbulk 0 rs1.val rs2.val cm.code 0 po.code 0
  | .sbloadm rd rs1 rs2 cm po => packRM .sbloadm rd.val rs1.val rs2.val cm.code 0 po.code 0
  | .sbstorem rn rs1 rs2 cm po => packRM .sbstorem rn.val rs1.val rs2.val cm.code 0 po.code 0
  | .palro rs1 rs2 tm => packSel .palro 0 rs1.val rs2.val tm.code
  | .palrw rs1 rs2 tm => packSel .palrw 0 rs1.val rs2.val tm.code
  | .paldyn rs1 => packRM .paldyn 0 rs1.val 0 0 0 0 0
  | .palidx rd rs1 => packRM .palidx rd.val rs1.val 0 0 0 0 0

end Sys2Proof
end

