-- ==== Sys2Proof/Config.lean ====
section
/-! DEFINITION. The parameters of spec/00_scope.md R4. The three OPEN ones (`MemReadable`, `MemWritable`, `MEM0`)
are data that a state carries (a memory map and the listed bytes), so that a claim about every state is a claim
about every choice of them; this file gives the shape of the map and the choice the reset state makes. The spec
leaves no value of an instruction open (spec/93_implementation_defined.md Part 1), so no free value is needed. -/

namespace Sys2Proof.Config

/-- The data memory has the addresses 0 to `2^32 - 1` (R44, R60). -/
abbrev addressSpace : Nat := 2 ^ 32

/-- `PAL_MAX`, the largest palette size and capacity (R4). -/
abbrev palMax : Nat := 256

/-- A stretch of the data memory that exists: the bytes `base` to `base + size - 1` can be read by the engine and,
if `writable`, written (R60). A region that is not writable stands for flash or PROGMEM. -/
structure Region where
  base : Nat
  size : Nat
  writable : Bool
deriving DecidableEq, Repr

/-- What a byte reads as that no cell of the memory lists: the part of `MEM0` that State.mem does not name.
[DESIGN CHOICE, log entry 2; unsafe.] -/
abbrev powerUpByte : Byte := 0

/-- The memory map of the reset state: every address exists and can be written.
[DESIGN CHOICE, log entry 1; unsafe.] -/
def powerUpMap : List Region := [{ base := 0, size := addressSpace, writable := true }]

end Sys2Proof.Config
end

