-- ==== Sys2Proof/Machine/State.lean ====
section
/-! DEFINITION. Everything the spec gives the machine, as plain data (spec/10_state.md), its values at reset
(R50), and the reasons a step could stop. -/

namespace Sys2Proof.Machine

/-- The palette's kind (R35, R291); the code 3 is never produced. -/
inductive PalKind where
  | readOnly | readWrite | dynamic
deriving DecidableEq, Repr

/-- A transparency class (R161): every colour opaque, opaque or fully transparent only, arbitrary alpha. -/
inductive TransparencyClass where
  | kNone | kCrude | kFull
deriving DecidableEq, Repr

/-- What FAULT_CAUSE holds (R27): no fault, or one of the four of R320; the codes 5 to 7 are never produced. -/
inductive FaultCause where
  | none | illegalCommand | operandRange | accessFault | paletteAssert
deriving DecidableEq, Repr

/-- A move of the host, the one agent outside the engine (R367). Moves (a) to (e) are writes and reads of the host
port (R45), (f) the host's own accesses to the data memory, (g) the reset input. -/
inductive HostMove where
  /-- write a 32-bit value at a byte offset of the host port: a register, a CSR, `CMD`, `FAULT_CLR` -/
  | portWrite (offset : Nat) (value : Word)
  /-- read the host port at a byte offset -/
  | portRead (offset : Nat)
  /-- write one byte of the data memory by the host's own path -/
  | memWrite (addr : Word) (value : Byte)
  /-- read one byte of the data memory by the host's own path -/
  | memRead (addr : Word)
  /-- assert reset -/
  | reset
deriving DecidableEq, Repr

/-- The complete state: the general registers (R20), the control and status registers (R25 to R39, each reserved
bit left out since it reads as 0), the palette RAM (R41), the reverse index (R42), the data memory (R44). Two fields
stand for what the spec keeps outside the engine: the memory map (R4's open parameters) and the host moves that are
still to come (R367). -/
structure State where
  /-- `x0` to `x15` (R20) -/
  regs : Vector Word 16
  /-- CTRL bit 0, ASSERT_EN (R25) -/
  ctrlAssertEn : Bool
  /-- CTRL bit 1, IRQ_EN (R25) -/
  ctrlIrqEn : Bool
  /-- STATUS bit 0, FAULTED (R26) -/
  statusFaulted : Bool
  /-- FAULT_CAUSE (R27) -/
  faultCause : FaultCause
  /-- FAULT_CMD (R28) -/
  faultCmd : Word
  /-- FAULT_INFO (R29) -/
  faultInfo : Word
  /-- CMDCNT (R30) -/
  cmdcnt : Word
  /-- TRANSP565 bits 15:0 (R31) -/
  transp565 : BitVec 16
  /-- TINT (R32) -/
  tint : Color
  /-- MONO_FG (R33) -/
  monoFg : Color
  /-- MONO_BG (R34) -/
  monoBg : Color
  /-- PAL_KIND (R35) -/
  palKind : PalKind
  /-- PAL_BASE (R36) -/
  palBase : Word
  /-- PAL_SIZE, 0 to 256 (R37) -/
  palSize : Fin 257
  /-- PAL_CAP, 0 to 256 (R38) -/
  palCap : Fin 257
  /-- PAL_TM (R39) -/
  palTm : TransparencyClass
  /-- PALRAM (R41) -/
  palRam : Vector Color 256
  /-- RIDX, the reverse index, as an association list (R42) -/
  ridx : List (Color × Fin 256)
  /-- the data memory: the bytes that differ from `Config.powerUpByte`, addresses strictly rising (R44, R60) -/
  mem : List Host.Cell
  /-- which addresses exist and which can be written: `MemReadable` and `MemWritable` (R4, R60) -/
  memMap : List Config.Region
  /-- the host moves still to be made, the next one first (R367); the model's own field, log entry 3 -/
  moves : List HostMove
deriving DecidableEq, Repr

/-- Reasons for which a step stops the machine: there are none. The four faults of R320 are latched into the fault
registers and the machine goes on (R324), and no command is stuck (R367). Safe: nothing is shut out. -/
inductive Fault where
deriving DecidableEq, Repr

/-- Reasons for which the model gives an instruction no meaning. -/
inductive Refusal where
  /-- raised only by `exec`'s own arm for a command that has no meaning yet (no arm does so now); safe -/
  | notModelled (mnemonic : String)
deriving DecidableEq, Repr

/-- The state after reset (R50, R350): every register 0 but CTRL, whose ASSERT_EN is 1; a ReadOnly palette of size 0
at address 0; no move pending. The data memory and the map are the open parameters `MEM0`, `MemReadable` and
`MemWritable`: nothing listed, and the map of log entry 1. -/
def State.reset : State where
  regs := Vector.replicate 16 0
  ctrlAssertEn := true
  ctrlIrqEn := false
  statusFaulted := false
  faultCause := .none
  faultCmd := 0
  faultInfo := 0
  cmdcnt := 0
  transp565 := 0
  tint := 0
  monoFg := 0
  monoBg := 0
  palKind := .readOnly
  palBase := 0
  palSize := 0
  palCap := 0
  palTm := .kNone
  palRam := Vector.replicate 256 0
  ridx := []
  mem := []
  memMap := Config.powerUpMap
  moves := []

end Sys2Proof.Machine
end

