-- ==== Sys2Proof/Machine/Memory.lean ====
section
/-! DEFINITION. The data memory (spec/20_memory.md): one byte, strings of bytes, the two byte orders, and the search
for the lowest address of a range that does not exist. -/

namespace Sys2Proof.Machine

/-! ## Bytes -/

/-- The byte at an address: the listed one, or `Config.powerUpByte` (R60). -/
def Memory.read : List Host.Cell → Nat → Byte
  | [], _ => Config.powerUpByte
  | (k, v) :: rest, a => if k = a then v else Memory.read rest a

/-- The cell of one byte, none where it reads as an unlisted byte does. -/
def Memory.cell (a : Nat) (b : Byte) : List Host.Cell := if b = Config.powerUpByte then [] else [(a, b)]

/-- Store one byte, keeping the addresses rising and listing no power-up byte. -/
def Memory.write : List Host.Cell → Nat → Byte → List Host.Cell
  | [], a, b => Memory.cell a b
  | (k, v) :: rest, a, b =>
    if a < k then Memory.cell a b ++ (k, v) :: rest
    else if a = k then Memory.cell a b ++ rest
    else (k, v) :: Memory.write rest a b

/-- Canonical from an address up: every cell at or above `lo`, addresses strictly rising and inside the address
space, no cell equal to what an unlisted address reads as. -/
def Memory.wfFrom (lo : Nat) : List Host.Cell → Bool
  | [] => true
  | (k, v) :: rest =>
    decide (lo ≤ k) && decide (k < Config.addressSpace) && decide (v ≠ Config.powerUpByte) && Memory.wfFrom (k + 1) rest

/-- The canonical form of the data memory. -/
def Memory.wf (m : List Host.Cell) : Bool := Memory.wfFrom 0 m

/-! ## Items of several bytes (R61, R63) -/

/-- The `n` bytes at `a`, `a + 1`, ..., in increasing address order. -/
def Memory.readBytes (m : List Host.Cell) (a : Nat) : Nat → List Byte
  | 0 => []
  | n + 1 => Memory.read m a :: Memory.readBytes m (a + 1) n

/-- Store a list of bytes at `a`, `a + 1`, ... . -/
def Memory.writeBytes (m : List Host.Cell) (a : Nat) : List Byte → List Host.Cell
  | [] => m
  | b :: bs => Memory.writeBytes (Memory.write m a b) (a + 1) bs

/-- The number whose least significant byte comes first. -/
def ofBytesLE : List Byte → Nat
  | [] => 0
  | b :: bs => b.toNat + 256 * ofBytesLE bs

/-- The low `n` bytes of a number, least significant first. -/
def bytesLE (v : Nat) : Nat → List Byte
  | 0 => []
  | n + 1 => BitVec.ofNat 8 v :: bytesLE (v / 256) n

/-- The number that bytes in increasing address order stand for: `bo = 1` little-endian, `bo = 0` big-endian (R61). -/
def ofBytes : ByteOrder → List Byte → Nat
  | .le, bs => ofBytesLE bs
  | .be, bs => ofBytesLE bs.reverse

/-- The low `n` bytes of a number in increasing address order (R61). -/
def toBytes : ByteOrder → Nat → Nat → List Byte
  | .le, v, n => bytesLE v n
  | .be, v, n => (bytesLE v n).reverse

/-- What `MemReadOrd(addr, n, bo)` returns once the range is known to be readable (R63). -/
def Memory.load (m : List Host.Cell) (a n : Nat) (bo : ByteOrder) : Nat := ofBytes bo (Memory.readBytes m a n)

/-- `MemWriteOrd(addr, n, v, bo)` (R63). -/
def Memory.store (m : List Host.Cell) (a n v : Nat) (bo : ByteOrder) : List Host.Cell :=
  Memory.writeBytes m a (toBytes bo v n)

/-- The `Color` word at `a`: 4 bytes, little-endian always (R61(a)). -/
def Memory.loadColor (m : List Host.Cell) (a : Nat) : Color := BitVec.ofNat 32 (Memory.load m a 4 .le)

/-- Store a `Color` word at `a` (R61(a)). -/
def Memory.storeColor (m : List Host.Cell) (a : Nat) (c : Color) : List Host.Cell := Memory.store m a 4 c.toNat .le

/-- Store a list of `Color` words at consecutive addresses, in increasing order. -/
def Memory.storeColors (m : List Host.Cell) (a : Nat) : List Color → List Host.Cell
  | [] => m
  | c :: cs => Memory.storeColors (Memory.storeColor m a c) (a + 4) cs

/-- The `n` `Color` words at consecutive addresses from `a`. -/
def Memory.loadColors (m : List Host.Cell) (a : Nat) : Nat → List Color
  | 0 => []
  | n + 1 => Memory.loadColor m a :: Memory.loadColors m (a + 4) n

/-! ## Which addresses exist (R60, R63, R64) -/

/-- A kind of access by the engine. -/
inductive Access where
  | read | write
deriving DecidableEq, Repr

/-- The region lets the engine make this access at `a`. -/
def grants (k : Access) (a : Nat) (r : Config.Region) : Bool :=
  decide (r.base ≤ a) && decide (a < r.base + r.size) && (k == .read || r.writable)

/-- `MemReadable(a)` for reads, `MemWritable(a)` for writes (R60), false at `2^32` and above. -/
def accessible (map : List Config.Region) (k : Access) (a : Nat) : Bool :=
  decide (a < Config.addressSpace) && map.any (grants k a)

/-- The furthest end of a region that grants the access at `a`, at most `2^32`; `a` itself if none does. -/
def grantedUntil (map : List Config.Region) (k : Access) (a : Nat) : Nat :=
  min Config.addressSpace ((map.filter (grants k a)).foldl (fun e r => max e (r.base + r.size)) a)

/-- The lowest address from `a` to below `stop` at which the access cannot be made, going from region to region.
Each turn passes the end of at least one region, so as many turns as there are regions are enough. -/
def firstBadFrom (map : List Config.Region) (k : Access) (stop : Nat) : Nat → Nat → Option Nat
  | 0, a => if a < stop then some a else none
  | turns + 1, a =>
    if stop ≤ a then none
    else if accessible map k a then firstBadFrom map k stop turns (grantedUntil map k a)
    else some a

/-- The lowest address of the `len` addresses at `a` at which the access cannot be made (R64). -/
def firstBad (map : List Config.Region) (k : Access) (a len : Nat) : Option Nat :=
  firstBadFrom map k (a + len) map.length a

end Sys2Proof.Machine
end

