-- ==== Sys2Proof/Machine/Ops.lean ====
section
/-! DEFINITION. The operations every command is written with: registers, checked memory access, taking a fault and
leaving the fault state (spec/60_exceptions.md), and the five-step frame of a command (spec/20_memory.md R64). -/

namespace Sys2Proof.Machine

/-! ## General registers (R20) -/

/-- `x[r]`. -/
def State.reg (s : State) (r : Reg) : Word := s.regs[r.val]

/-- `x[r] <- v`. -/
def State.setReg (s : State) (r : Reg) (v : Word) : State := { s with regs := s.regs.set r.val v }

/-- `x[r] <- v` for a number that fits 32 bits (R8). -/
def State.setRegNat (s : State) (r : Reg) (v : Nat) : State := s.setReg r (BitVec.ofNat 32 v)

/-! ## Faults (R320 to R328) -/

/-- What the pseudocode's `raise F(info)` names (R320). -/
inductive Raise where
  /-- the command word is not a legal command (R321) -/
  | illegalCommand
  /-- the offending register's value (R322) -/
  | operandRange (value : Word)
  /-- the lowest offending address, possibly `2^32` or more (R323) -/
  | accessFault (addr : Nat)
  /-- the colour that was looked up (R325) -/
  | paletteAssert (c : Color)
deriving DecidableEq, Repr

/-- The fault's entry for FAULT_CAUSE (R320). -/
def Raise.cause : Raise → FaultCause
  | .illegalCommand => .illegalCommand
  | .operandRange _ => .operandRange
  | .accessFault _ => .accessFault
  | .paletteAssert _ => .paletteAssert

/-- The fault's `info` for FAULT_INFO (R29, R320): an address of `2^32` or more is recorded as `0xFFFFFFFF`. -/
def Raise.info : Raise → Word
  | .illegalCommand => 0
  | .operandRange v => v
  | .accessFault a => BitVec.ofNat 32 (min a 0xFFFFFFFF)
  | .paletteAssert c => c

/-- Fault entry (R324): the four fault registers, in one step, and nothing else. IRQ follows by R49. -/
def State.takeFault (s : State) (f : Raise) (cmd : Word) : State :=
  { s with statusFaulted := true, faultCause := f.cause, faultCmd := cmd, faultInfo := f.info }

/-- Leaving the fault state (R328, R40): what a write to FAULT_CLR does. -/
def State.clearFault (s : State) : State :=
  { s with statusFaulted := false, faultCause := .none, faultCmd := 0, faultInfo := 0 }

/-- A computation of a command's steps 2 to 5 (R64): a result, or the fault it raises. -/
abbrev Exec (α : Type) := Except Raise α

/-- The last effect of every completed command (R30): CMDCNT goes up by one, wrapping. -/
def State.count (s : State) : State := { s with cmdcnt := s.cmdcnt + 1 }

/-- The frame of every command (R64): a term that is no legal command raises IllegalCommand; a body that raises
takes that fault from the state before the command, so that none of its effects stand; a body that completes is
counted. The word recorded in FAULT_CMD is the command's own. -/
def runCommand (i : Instr) (s : State) (body : Exec State) : Host.Outcome State Fault Refusal :=
  if i.wellFormed then
    match body with
    | .ok t => .next t.count
    | .error f => .next (s.takeFault f (encode i))
  else .next (s.takeFault .illegalCommand (encode i))

/-! ## Checked memory access (R63, R64) -/

/-- `CheckRead(addr, len)` and `CheckWrite(addr, len)`: the lowest bad address of the range raises AccessFault. -/
def checkAccess (s : State) (k : Access) (addr len : Nat) : Exec Unit :=
  match firstBad s.memMap k addr len with
  | some a => .error (.accessFault a)
  | none => .ok ()

/-- `MemRead(addr, 4)` of a `Color` with its check (R63). -/
def readColor (s : State) (addr : Nat) : Exec Color := do
  checkAccess s .read addr 4
  .ok (Memory.loadColor s.mem addr)

/-- Replace the data memory. -/
def State.setMem (s : State) (m : List Host.Cell) : State := { s with mem := m }

end Sys2Proof.Machine
end

