-- ==== Sys2Proof/Machine/Operands.lean ====
section
/-! DEFINITION. The forms in which a command takes its operands: the general register read as an address, a byte,
a raw pixel, a count or an index (spec/10_state.md R20; spec/30_encoding.md R92 has no other addressing), and the
control and status registers as CSRR, CSRW and the host port see them (R24 to R39). -/

namespace Sys2Proof.Machine

/-! ## Register operands -/

/-- A register as an unsigned number: a data-memory address, an element count, a size, a capacity, an index. -/
def State.num (s : State) (r : Reg) : Nat := (s.reg r).toNat

/-- A register as a byte: bits 7:0, the rest ignored (R20). -/
def State.byte (s : State) (r : Reg) : Nat := slice (s.reg r).toNat 7 0

/-- A register value that must be below `bound` (R322(a)); otherwise OperandRange with the register's value. -/
def checkBelow (v : Word) (bound : Nat) : Exec Unit :=
  if v.toNat < bound then .ok () else .error (.operandRange v)

/-- A palette size or capacity operand, 0 to 256 (R322(b), (c)); otherwise OperandRange with the register's value. -/
def sizeOperand (v : Word) : Exec (Fin 257) :=
  if h : v.toNat < 257 then .ok ⟨v.toNat, h⟩ else .error (.operandRange v)

/-! ## Codes of the coded CSR fields -/

/-- The code that FAULT_CAUSE shows (R27, R320). -/
def FaultCause.code : FaultCause → Nat
  | .none => 0
  | .illegalCommand => 1
  | .operandRange => 2
  | .accessFault => 3
  | .paletteAssert => 4

/-- The code that PAL_KIND shows (R35). -/
def PalKind.code : PalKind → Nat
  | .readOnly => 0
  | .readWrite => 1
  | .dynamic => 2

/-- The code of a transparency class (R161). -/
def TransparencyClass.code : TransparencyClass → Nat
  | .kNone => 0
  | .kCrude => 1
  | .kFull => 2

/-! ## Control and status registers -/

/-- The 32-bit value of a CSR, reserved bits 0 (R24 to R39). -/
def State.csr (s : State) : Csr → Word
  | .ctrl => BitVec.ofNat 32 (s.ctrlAssertEn.toNat + 2 * s.ctrlIrqEn.toNat)
  | .status => BitVec.ofNat 32 s.statusFaulted.toNat
  | .faultCause => BitVec.ofNat 32 s.faultCause.code
  | .faultCmd => s.faultCmd
  | .faultInfo => s.faultInfo
  | .cmdcnt => s.cmdcnt
  | .transp565 => s.transp565.zeroExtend 32
  | .tint => s.tint
  | .monoFg => s.monoFg
  | .monoBg => s.monoBg
  | .palKind => BitVec.ofNat 32 s.palKind.code
  | .palBase => s.palBase
  | .palSize => BitVec.ofNat 32 s.palSize.val
  | .palCap => BitVec.ofNat 32 s.palCap.val
  | .palTm => BitVec.ofNat 32 s.palTm.code

/-- Write a CSR of class RW: CTRL keeps bits 1:0, TRANSP565 bits 15:0, the colours all 32 (R24, R125). A CSR of
class RO keeps its value (R24: a host-port write to it is ignored). -/
def State.setCsr (s : State) (n : Csr) (v : Word) : State :=
  match n with
  | .ctrl => { s with ctrlAssertEn := v.getLsbD 0, ctrlIrqEn := v.getLsbD 1 }
  | .transp565 => { s with transp565 := v.truncate 16 }
  | .tint => { s with tint := v }
  | .monoFg => { s with monoFg := v }
  | .monoBg => { s with monoBg := v }
  | .status | .faultCause | .faultCmd | .faultInfo | .cmdcnt => s
  | .palKind | .palBase | .palSize | .palCap | .palTm => s

end Sys2Proof.Machine
end

