-- ==== Sys2Proof/Machine/ColorOps.lean ====
section
/-! DEFINITION. The `Color` value (spec/00_scope.md R7) and its commands CGET, CSET, COPQ, CISOPQ
(spec/41_color.md). -/

namespace Sys2Proof.Machine

/-! ## Channels (R7) -/

/-- `A(c)`. -/
def alphaOf (c : Color) : Nat := slice c.toNat 31 24

/-- `R(c)`. -/
def redOf (c : Color) : Nat := slice c.toNat 23 16

/-- `G(c)`. -/
def greenOf (c : Color) : Nat := slice c.toNat 15 8

/-- `B(c)`. -/
def blueOf (c : Color) : Nat := slice c.toNat 7 0

/-- `RGB(c) = c[23:0]`. -/
def rgbOf (c : Color) : Nat := slice c.toNat 23 0

/-- `ARGB(a, r, g, b)`: each channel masked to 8 bits. -/
def argb (a r g b : Nat) : Color :=
  BitVec.ofNat 32 (a % 256 * 2 ^ 24 + r % 256 * 2 ^ 16 + g % 256 * 2 ^ 8 + b % 256)

/-- `Transparent` (R7, R146). -/
def transparent : Color := 0x00000000

/-- `Background` (R7, R146). -/
def background : Color := 0x00FFFFFF

/-- Channel `ch` of a colour, `c[8ch+7:8ch]` (R141). -/
def channelOf (ch : Channel) (c : Color) : Nat := slice c.toNat (8 * ch.code + 7) (8 * ch.code)

/-- The colour with channel `ch` replaced by the low 8 bits of `v` (R142). -/
def withChannel (ch : Channel) (c : Color) (v : Nat) : Color :=
  (c &&& ~~~(BitVec.ofNat 32 (0xFF * 2 ^ (8 * ch.code)))) ||| BitVec.ofNat 32 (v % 256 * 2 ^ (8 * ch.code))

/-- `toOpaque()`: alpha forced to `0xFF`, RGB kept (R143). -/
def toOpaque (c : Color) : Color := BitVec.ofNat 32 (0xFF000000 + rgbOf c)

/-- The transparency class of one colour (R161). -/
def classOf (c : Color) : TransparencyClass :=
  if alphaOf c = 0xFF then .kNone else if alphaOf c = 0 then .kCrude else .kFull

/-- The larger of two classes in the coding of R161. -/
def TransparencyClass.join (x y : TransparencyClass) : TransparencyClass := if x.code < y.code then y else x

/-! ## The commands -/

/-- CGET.ch rd, rs1 (R141). -/
def execCget (rd rs1 : Reg) (ch : Channel) (s : State) : Host.Outcome State Fault Refusal :=
  runCommand (.cget rd rs1 ch) s (.ok (s.setRegNat rd (channelOf ch (s.reg rs1))))

/-- CSET.ch rd, rs1, rs2 (R142). -/
def execCset (rd rs1 rs2 : Reg) (ch : Channel) (s : State) : Host.Outcome State Fault Refusal :=
  runCommand (.cset rd rs1 rs2 ch) s (.ok (s.setReg rd (withChannel ch (s.reg rs1) (s.byte rs2))))

/-- COPQ rd, rs1 (R143). -/
def execCopq (rd rs1 : Reg) (s : State) : Host.Outcome State Fault Refusal :=
  runCommand (.copq rd rs1) s (.ok (s.setReg rd (toOpaque (s.reg rs1))))

/-- CISOPQ rd, rs1 (R144). -/
def execCisopq (rd rs1 : Reg) (s : State) : Host.Outcome State Fault Refusal :=
  runCommand (.cisopq rd rs1) s (.ok (s.setRegNat rd (if alphaOf (s.reg rs1) = 0xFF then 1 else 0)))

end Sys2Proof.Machine
end

