-- ==== Sys2Proof/Machine/Palette.lean ====
section
/-! DEFINITION. The palette (spec/45_palette.md): entry lookup, reverse lookup with insertion, and the commands
PALRO, PALRW, PALDYN, PALIDX. -/

namespace Sys2Proof.Machine

/-! ## Lookup -/

/-- `PalColor(i)`, 0 ≤ i ≤ 255 (R292): the owned entry of a Dynamic palette, otherwise a read of the borrowed array
made now, which can raise AccessFault. The index is not compared with PAL_SIZE. -/
def palColor (s : State) (i : Nat) : Exec Color :=
  match s.palKind with
  | .dynamic => .ok s.palRam[(Fin.ofNat 256 i).val]
  | .readOnly | .readWrite => readColor s (s.palBase.toNat + 4 * i)

/-- `RIDX(c)`, none when `c` is not in the domain (R42): exact equality of all 32 bits. -/
def ridxLookup : List (Color × Fin 256) → Color → Option (Fin 256)
  | [], _ => none
  | (k, i) :: rest, c => if k = c then some i else ridxLookup rest c

/-- The insertion of a new colour into a Dynamic palette at index `i` (R293, R294). -/
def insertColor (s : State) (c : Color) (i : Fin 256) : State :=
  { s with
    palRam := s.palRam.set i.val c
    ridx := s.ridx ++ [(c, i)]
    palSize := ⟨i.val + 1, Nat.succ_lt_succ i.isLt⟩
    palTm := s.palTm.join (classOf c) }

/-- `GetIndexOfColor(c)` (R293): the index, and the state with the insertion a Dynamic palette makes on a miss while
it has room. -/
def indexOfColor (s : State) (c : Color) : Exec (Nat × State) :=
  match s.palKind with
  | .readOnly => if s.ctrlAssertEn then .error (.paletteAssert c) else .ok (0, s)
  | .readWrite =>
    match ridxLookup s.ridx c with
    | some i => .ok (i.val, s)
    | none => .ok (0, s)
  | .dynamic =>
    match ridxLookup s.ridx c with
    | some i => .ok (i.val, s)
    | none =>
      if h : s.palSize.val < s.palCap.val then
        .ok (s.palSize.val, insertColor s c ⟨s.palSize.val, Nat.lt_of_lt_of_le h (Nat.le_of_lt_succ s.palCap.isLt)⟩)
      else .ok (0, s)

/-! ## Establishing a palette -/

/-- The tightest safe class of a list of colours, kNone when it is empty (R295 `AutoTM`). -/
def autoClass : List Color → TransparencyClass
  | [] => .kNone
  | c :: cs => (classOf c).join (autoClass cs)

/-- The class that a `tm` argument gives to an array (R295). -/
def tmClass (tm : TmArg) (cs : List Color) : TransparencyClass :=
  match tm with
  | .none => .kNone
  | .crude => .kCrude
  | .full => .kFull
  | .auto => autoClass cs

/-- The reverse index of a colour array, entries from index `i` on added to `m`: a colour keeps its lowest index
(R297). -/
def buildIndex (m : List (Color × Fin 256)) (i : Nat) : List Color → List (Color × Fin 256)
  | [] => m
  | c :: cs =>
    match ridxLookup m c with
    | some _ => buildIndex m (i + 1) cs
    | none => buildIndex (m ++ [(c, Fin.ofNat 256 i)]) (i + 1) cs

/-- The registers of a palette over a borrowed array; PALRAM is not changed (R296, R297). -/
def State.setBorrowed (s : State) (kind : PalKind) (base : Word) (size : Fin 257) (tm : TransparencyClass)
    (ridx : List (Color × Fin 256)) : State :=
  { s with palKind := kind, palBase := base, palSize := size, palCap := size, palTm := tm, ridx := ridx }

/-- The registers and the storage of an empty Dynamic palette (R298). -/
def State.setDynamic (s : State) (cap : Fin 257) : State :=
  { s with
    palKind := .dynamic, palBase := 0, palSize := 0, palCap := cap, palTm := .kNone
    palRam := Vector.replicate 256 0, ridx := [] }

/-- The borrowed array of `size` colours at `base`, its range checked first (R296, R297). -/
def readArray (s : State) (base : Word) (size : Fin 257) : Exec (List Color) := do
  checkAccess s .read base.toNat (4 * size.val)
  .ok (Memory.loadColors s.mem base.toNat size.val)

/-! ## The commands -/

/-- PALRO.tm (rs1), rs2 (R296): with an explicit `tm` no memory is read. -/
def execPalro (rs1 rs2 : Reg) (tm : TmArg) (s : State) : Host.Outcome State Fault Refusal :=
  runCommand (.palro rs1 rs2 tm) s do
    let size ← sizeOperand (s.reg rs2)
    let cs ← if tm = .auto then readArray s (s.reg rs1) size else .ok []
    .ok (s.setBorrowed .readOnly (s.reg rs1) size (tmClass tm cs) [])

/-- PALRW.tm (rs1), rs2 (R297). -/
def execPalrw (rs1 rs2 : Reg) (tm : TmArg) (s : State) : Host.Outcome State Fault Refusal :=
  runCommand (.palrw rs1 rs2 tm) s do
    let size ← sizeOperand (s.reg rs2)
    let cs ← readArray s (s.reg rs1) size
    .ok (s.setBorrowed .readWrite (s.reg rs1) size (tmClass tm cs) (buildIndex [] 0 cs))

/-- PALDYN rs1 (R298). -/
def execPaldyn (rs1 : Reg) (s : State) : Host.Outcome State Fault Refusal :=
  runCommand (.paldyn rs1) s do
    let cap ← sizeOperand (s.reg rs1)
    .ok (s.setDynamic cap)

/-- PALIDX rd, rs1 (R299). -/
def execPalidx (rd rs1 : Reg) (s : State) : Host.Outcome State Fault Refusal :=
  runCommand (.palidx rd rs1) s do
    let r ← indexOfColor s (s.reg rs1)
    .ok (r.2.setRegNat rd r.1)

end Sys2Proof.Machine
end

