-- ==== Sys2Proof/Machine/Codec.lean ====
section
/-! DEFINITION. The colour-mode codecs (spec/42_colormode.md) and the commands TOARGB, FROMARGB, TRANSP, BPP. -/

namespace Sys2Proof.Machine

/-! ## Numeric helpers -/

/-- `bits_per_pixel(cm)` (R162). -/
def bitsPerPixel : ColorMode → Nat
  | .argb8888 | .rgba8888 => 32
  | .rgb888 | .argb6666 => 24
  | .argb4444 | .rgb565 | .rgb565t | .grayalpha8 => 16
  | .gray8 | .alpha8 | .idx8 => 8
  | .gray4 | .alpha4 | .idx4 => 4
  | .idx2 => 2
  | .mono | .idx1 => 1

/-- `bits_per_pixel(cm) div 8`, the bytes of a full-byte pixel in memory (R61(b), R162). -/
def bytesPerPixel (cm : ColorMode) : Nat := bitsPerPixel cm / 8

/-- `TruncN(c) = (c - (c >> N)) >> (8 - N)` (R167). -/
def truncTo (n c : Nat) : Nat := (c - c / 2 ^ n) / 2 ^ (8 - n)

/-- `Expand4(v)` (R168). -/
def expand4 (v : Nat) : Nat := v * 2 ^ 4 + v

/-- `Expand5(v)` (R168); the two parts share no bit, so the or is a sum. -/
def expand5 (v : Nat) : Nat := v * 2 ^ 3 + v / 2 ^ 2

/-- `Expand6(v)` (R168); the two parts share no bit, so the or is a sum. -/
def expand6 (v : Nat) : Nat := v * 2 ^ 2 + v / 2 ^ 4

/-- `LumaSum(c)` (R169). -/
def lumaSum (c : Color) : Nat := 3 * redOf c + 4 * greenOf c + blueOf c

/-- `Luma8(c)` (R169). -/
def luma8 (c : Color) : Nat := lumaSum c / 2 ^ 3

/-- `Luma4(c)` (R169). -/
def luma4 (c : Color) : Nat := lumaSum c / 2 ^ 7

/-! ## Decoding a raw pixel -/

/-- Rgb565 to colour (R180), `v` below `2^16`. -/
def rgb565ToArgb (v : Nat) : Color :=
  argb 0xFF (expand5 (slice v 15 11)) (expand6 (slice v 10 5)) (expand5 (slice v 4 0))

/-- `ToArgb(cm, raw)` (R164): the raw value is reduced to the pixel width first (R163). Only the Indexed modes can
raise, by the entry read of `palColor` (R197). -/
def toArgb (s : State) (cm : ColorMode) (raw : Nat) : Exec Color :=
  let v := raw % 2 ^ bitsPerPixel cm
  match cm with
  | .argb8888 => .ok (BitVec.ofNat 32 v)                                                          -- R170
  | .rgba8888 => .ok (BitVec.ofNat 32 (slice v 7 0 * 2 ^ 24 + v / 2 ^ 8))                         -- R172
  | .rgb888 => .ok (BitVec.ofNat 32 (0xFF000000 + v))                                             -- R174
  | .argb6666 =>                                                                                  -- R176
    .ok (argb (expand6 (slice v 23 18)) (expand6 (slice v 17 12)) (expand6 (slice v 11 6)) (expand6 (slice v 5 0)))
  | .argb4444 =>                                                                                  -- R178
    .ok (argb (expand4 (slice v 15 12)) (expand4 (slice v 11 8)) (expand4 (slice v 7 4)) (expand4 (slice v 3 0)))
  | .rgb565 => .ok (rgb565ToArgb v)                                                               -- R180
  | .rgb565t => .ok (if v = s.transp565.toNat then transparent else rgb565ToArgb v)               -- R182
  | .gray8 => .ok (BitVec.ofNat 32 (0xFF000000 + v * 0x010101))                                   -- R184
  | .grayalpha8 => .ok (BitVec.ofNat 32 (slice v 7 0 * 2 ^ 24 + slice v 15 8 * 0x010101))         -- R186
  | .gray4 => .ok (BitVec.ofNat 32 (0xFF000000 + v * 0x11 * 0x010101))                            -- R188
  | .alpha8 => .ok (BitVec.ofNat 32 (v * 2 ^ 24 + rgbOf s.tint))                                  -- R190
  | .alpha4 => .ok (BitVec.ofNat 32 (expand4 v * 2 ^ 24 + rgbOf s.tint))                          -- R192
  | .mono => .ok (if v = 0 then s.monoBg else s.monoFg)                                           -- R194
  | .idx1 | .idx2 | .idx4 | .idx8 => palColor s v                                                 -- R197

/-! ## Encoding a colour -/

/-- Colour to Rgb565 (R181): alpha is discarded. -/
def argbToRgb565 (c : Color) : Nat :=
  truncTo 5 (redOf c) * 2 ^ 11 + truncTo 6 (greenOf c) * 2 ^ 5 + truncTo 5 (blueOf c)

/-- Colour to Rgb565WithTransparency with the reserved value `t` (R183). -/
def argbToRgb565t (t : Nat) (c : Color) : Nat :=
  if alphaOf c ≤ 127 then t
  else if argbToRgb565 c = t then argbToRgb565 c ^^^ 0x0020 else argbToRgb565 c

/-- `FromArgb(cm, c)` (R165): the raw value, and the state with the insertion an Indexed mode may make into a Dynamic
palette (R198). The index of an Indexed mode is returned whole. -/
def fromArgb (s : State) (cm : ColorMode) (c : Color) : Exec (Nat × State) :=
  match cm with
  | .argb8888 => .ok (c.toNat, s)                                                                 -- R171
  | .rgba8888 => .ok (rgbOf c * 2 ^ 8 + alphaOf c, s)                                             -- R173
  | .rgb888 => .ok (rgbOf c, s)                                                                   -- R175
  | .argb6666 =>                                                                                  -- R177
    .ok (truncTo 6 (alphaOf c) * 2 ^ 18 + truncTo 6 (redOf c) * 2 ^ 12 + truncTo 6 (greenOf c) * 2 ^ 6
      + truncTo 6 (blueOf c), s)
  | .argb4444 =>                                                                                  -- R179
    .ok (truncTo 4 (alphaOf c) * 2 ^ 12 + truncTo 4 (redOf c) * 2 ^ 8 + truncTo 4 (greenOf c) * 2 ^ 4
      + truncTo 4 (blueOf c), s)
  | .rgb565 => .ok (argbToRgb565 c, s)                                                            -- R181
  | .rgb565t => .ok (argbToRgb565t s.transp565.toNat c, s)                                        -- R183
  | .gray8 => .ok (luma8 c, s)                                                                    -- R185
  | .grayalpha8 => .ok (luma8 c * 2 ^ 8 + alphaOf c, s)                                           -- R187
  | .gray4 => .ok (luma4 c, s)                                                                    -- R189
  | .alpha8 => .ok (alphaOf c, s)                                                                 -- R191
  | .alpha4 => .ok (alphaOf c / 2 ^ 4, s)                                                         -- R193
  | .mono => .ok (if c = s.monoBg ∨ alphaOf c = 0 then 0 else 1, s)                               -- R195
  | .idx1 | .idx2 | .idx4 | .idx8 => indexOfColor s c                                             -- R198

/-! ## Transparency -/

/-- `Transparency(cm)` (R166, R196). -/
def transparencyOf (s : State) : ColorMode → TransparencyClass
  | .argb8888 | .rgba8888 | .argb6666 | .argb4444 | .grayalpha8 | .alpha8 | .alpha4 => .kFull
  | .rgb888 | .rgb565 | .gray8 | .gray4 => .kNone
  | .rgb565t => .kCrude
  | .mono => (classOf s.monoFg).join (classOf s.monoBg)
  | .idx1 | .idx2 | .idx4 | .idx8 => s.palTm

/-! ## The commands -/

/-- TOARGB.cm rd, rs1 (R200). -/
def execToargb (rd rs1 : Reg) (cm : ColorMode) (s : State) : Host.Outcome State Fault Refusal :=
  runCommand (.toargb rd rs1 cm) s do
    let c ← toArgb s cm (s.num rs1)
    .ok (s.setReg rd c)

/-- FROMARGB.cm rd, rs1 (R201). -/
def execFromargb (rd rs1 : Reg) (cm : ColorMode) (s : State) : Host.Outcome State Fault Refusal :=
  runCommand (.fromargb rd rs1 cm) s do
    let r ← fromArgb s cm (s.reg rs1)
    .ok (r.2.setRegNat rd r.1)

/-- TRANSP.cm rd (R202). -/
def execTransp (rd : Reg) (cm : ColorMode) (s : State) : Host.Outcome State Fault Refusal :=
  runCommand (.transp rd cm) s (.ok (s.setRegNat rd (transparencyOf s cm).code))

/-- BPP.cm rd (R203). -/
def execBpp (rd : Reg) (cm : ColorMode) (s : State) : Host.Outcome State Fault Refusal :=
  runCommand (.bpp rd cm) s (.ok (s.setRegNat rd (bitsPerPixel cm)))

end Sys2Proof.Machine
end

