-- ==== Sys2Proof/Machine/Blending.lean ====
section
/-! DEFINITION. The blending operators and commands (spec/43_blending.md). -/

namespace Sys2Proof.Machine

/-! ## Division by 255 -/

/-- `div255(x)` (R220); no operator uses it alone. -/
def div255 (x : Nat) : Nat := x * 257 / 2 ^ 16

/-- `div255r(x)` (R221), the one division by 255 of every operator. -/
def div255r (x : Nat) : Nat := div255 (x + 128)

/-! ## The operators (R223: `d` the destination, `s` the source) -/

/-- A colour from its alpha and one formula for each of red, green and blue (R223 "for each channel"), which is given
the destination's and the source's channel. -/
def perChannel (alpha : Nat) (f : Nat → Nat → Nat) (d s : Color) : Color :=
  argb alpha (f (redOf d) (redOf s)) (f (greenOf d) (greenOf s)) (f (blueOf d) (blueOf s))

/-- The channel mix of the operators whose weights sum to 255: `sa` of the source, the rest of the destination. -/
def mix255 (sa dc sc : Nat) : Nat := div255r (sa * sc + (255 - sa) * dc)

/-- The channel mix by two weights, rounded to nearest by their sum (R226, R235). -/
def mixBy (wd ws dc sc : Nat) : Nat := (ws * sc + wd * dc + (wd + ws) / 2) / (wd + ws)

/-- kSourceOverOpaque (R241): the destination's alpha is not read. -/
def sourceOverOpaque (d s : Color) : Color := perChannel 0xFF (mix255 (alphaOf s)) d s

/-- kSourceOver (R226), its tests in order. -/
def sourceOver (d s : Color) : Color :=
  let sa := alphaOf s
  let da := alphaOf d
  if sa = 0xFF then s
  else if da = 0xFF then sourceOverOpaque d s
  else if sa = 0 then d
  else if da = 0 then s
  else perChannel (sa + da - div255r (sa * da)) (mixBy (da * (255 - sa)) (255 * sa)) d s

/-- kSourceIn (R227). -/
def sourceIn (d s : Color) : Color :=
  argb (div255r (alphaOf s * alphaOf d)) (redOf s) (greenOf s) (blueOf s)

/-- kSourceAtop (R228). -/
def sourceAtop (d s : Color) : Color := perChannel (alphaOf d) (mix255 (alphaOf s)) d s

/-- kSourceOut (R233). -/
def sourceOut (d s : Color) : Color :=
  argb (div255r (alphaOf s * (255 - alphaOf d))) (redOf s) (greenOf s) (blueOf s)

/-- kXor (R235). -/
def xorBlend (d s : Color) : Color :=
  let a1 := alphaOf s * (255 - alphaOf d)
  let a2 := alphaOf d * (255 - alphaOf s)
  if a1 + a2 = 0 then transparent else perChannel (div255r (a1 + a2)) (mixBy a2 a1) d s

/-- kClear (R240, the reading of section 8, spec/90_conflicts.md C1). -/
def clearBlend (d s : Color) : Color := if d = 0 ∧ s = 0 then transparent else background

/-- `Blend(bm, d, s)` (R224): the Destination modes are the Source modes with the arguments swapped (R243). -/
def blend : BlendMode → Color → Color → Color
  | .src, _, s => s                              -- R225
  | .srcover, d, s => sourceOver d s             -- R226
  | .srcin, d, s => sourceIn d s                 -- R227
  | .srcatop, d, s => sourceAtop d s             -- R228
  | .dst, d, _ => d                              -- R229
  | .dstover, d, s => sourceOver s d             -- R230
  | .dstin, d, s => sourceIn s d                 -- R231
  | .dstatop, d, s => sourceAtop s d             -- R232
  | .clear, d, s => clearBlend d s               -- R240
  | .srcout, d, s => sourceOut d s               -- R233
  | .dstout, d, s => sourceOut s d               -- R234
  | .xor, d, s => xorBlend d s                   -- R235
  | .srcoveropq, d, s => sourceOverOpaque d s    -- R241
  | .dstoveropq, d, s => sourceOverOpaque s d    -- R242

/-- `RawBlend(bm, cm, rawd, s)` (R250): the raw result, and the state with a Dynamic palette's insertion. -/
def rawBlend (st : State) (bm : BlendMode) (cm : ColorMode) (rawd : Nat) (src : Color) : Exec (Nat × State) := do
  let d ← toArgb st cm rawd
  fromArgb st cm (blend bm d src)

/-! ## Arrays (R67, R246, R247) -/

/-- Elements in increasing order, each destination and source word read just before its result is written. -/
def blendArrays (bm : BlendMode) (m : List Host.Cell) (pd ps : Nat) : Nat → List Host.Cell
  | 0 => m
  | n + 1 =>
    blendArrays bm (Memory.storeColor m pd (blend bm (Memory.loadColor m pd) (Memory.loadColor m ps))) (pd + 4) (ps + 4) n

/-- The same with one source colour. -/
def blendArraySingle (bm : BlendMode) (src : Color) (m : List Host.Cell) (pd : Nat) : Nat → List Host.Cell
  | 0 => m
  | n + 1 => blendArraySingle bm src (Memory.storeColor m pd (blend bm (Memory.loadColor m pd) src)) (pd + 4) n

/-! ## The commands -/

/-- BLEND.bm rd, rs1, rs2 (R245). -/
def execBlend (rd rs1 rs2 : Reg) (bm : BlendMode) (s : State) : Host.Outcome State Fault Refusal :=
  runCommand (.blend rd rs1 rs2 bm) s (.ok (s.setReg rd (blend bm (s.reg rs1) (s.reg rs2))))

/-- BLENDV.bm rn, (rs1), (rs2) (R246). -/
def execBlendv (rn rs1 rs2 : Reg) (bm : BlendMode) (s : State) : Host.Outcome State Fault Refusal :=
  runCommand (.blendv rn rs1 rs2 bm) s do
    checkAccess s .write (s.num rs1) (4 * s.num rn)
    checkAccess s .read (s.num rs2) (4 * s.num rn)
    .ok (s.setMem (blendArrays bm s.mem (s.num rs1) (s.num rs2) (s.num rn)))

/-- BLENDVS.bm rn, (rs1), rs2 (R247). -/
def execBlendvs (rn rs1 rs2 : Reg) (bm : BlendMode) (s : State) : Host.Outcome State Fault Refusal :=
  runCommand (.blendvs rn rs1 rs2 bm) s do
    checkAccess s .write (s.num rs1) (4 * s.num rn)
    .ok (s.setMem (blendArraySingle bm (s.reg rs2) s.mem (s.num rs1) (s.num rn)))

/-- BLENDRAW.bm.cm rd, rs1, rs2 (R248). -/
def execBlendraw (rd rs1 rs2 : Reg) (cm : ColorMode) (bm : BlendMode) (s : State) :
    Host.Outcome State Fault Refusal :=
  runCommand (.blendraw rd rs1 rs2 cm bm) s do
    let r ← rawBlend s bm cm (s.num rs1) (s.reg rs2)
    .ok (r.2.setRegNat rd r.1)

/-- BLENDRAWM.bm.cm.bo (rs1), rs2 (R249). -/
def execBlendrawm (rs1 rs2 : Reg) (cm : ColorMode) (bm : BlendMode) (bo : ByteOrder) (s : State) :
    Host.Outcome State Fault Refusal :=
  runCommand (.blendrawm rs1 rs2 cm bm bo) s do
    checkAccess s .write (s.num rs1) (bytesPerPixel cm)
    let r ← rawBlend s bm cm (Memory.load s.mem (s.num rs1) (bytesPerPixel cm) bo) (s.reg rs2)
    .ok (r.2.setMem (Memory.store s.mem (s.num rs1) (bytesPerPixel cm) r.1 bo))

end Sys2Proof.Machine
end

