-- ==== Sys2Proof/Machine/Moves.lean ====
section
/-! DEFINITION. The register, CSR and memory move commands NOP to STRAW (spec/40_register_ops.md). -/

namespace Sys2Proof.Machine

/-- NOP (R120). -/
def execNop (s : State) : Host.Outcome State Fault Refusal := runCommand .nop s (.ok s)

/-- LDI rd, imm16 (R121): zero-extended. -/
def execLdi (rd : Reg) (imm16 : BitVec 16) (s : State) : Host.Outcome State Fault Refusal :=
  runCommand (.ldi rd imm16) s (.ok (s.setReg rd (imm16.zeroExtend 32)))

/-- LDIH rd, imm16 (R122): the upper half, the lower half kept. -/
def execLdih (rd : Reg) (imm16 : BitVec 16) (s : State) : Host.Outcome State Fault Refusal :=
  runCommand (.ldih rd imm16) s (.ok (s.setRegNat rd (imm16.toNat * 2 ^ 16 + slice (s.num rd) 15 0)))

/-- MOV rd, rs1 (R123). -/
def execMov (rd rs1 : Reg) (s : State) : Host.Outcome State Fault Refusal :=
  runCommand (.mov rd rs1) s (.ok (s.setReg rd (s.reg rs1)))

/-- CSRR rd, csr (R124): CMDCNT is read before this command is counted. -/
def execCsrr (rd : Reg) (csr : Csr) (s : State) : Host.Outcome State Fault Refusal :=
  runCommand (.csrr rd csr) s (.ok (s.setReg rd (s.csr csr)))

/-- CSRW csr, rs1 (R125). -/
def execCsrw (rs1 : Reg) (csr : Csr) (s : State) : Host.Outcome State Fault Refusal :=
  runCommand (.csrw rs1 csr) s (.ok (s.setCsr csr (s.reg rs1)))

/-- LDC rd, (rs1) (R126). -/
def execLdc (rd rs1 : Reg) (s : State) : Host.Outcome State Fault Refusal :=
  runCommand (.ldc rd rs1) s do
    let c ← readColor s (s.num rs1)
    .ok (s.setReg rd c)

/-- STC rs2, (rs1) (R127). -/
def execStc (rs1 rs2 : Reg) (s : State) : Host.Outcome State Fault Refusal :=
  runCommand (.stc rs1 rs2) s do
    checkAccess s .write (s.num rs1) 4
    .ok (s.setMem (Memory.storeColor s.mem (s.num rs1) (s.reg rs2)))

/-- LDRAW.cm.bo rd, (rs1) (R128). -/
def execLdraw (rd rs1 : Reg) (cm : ColorMode) (bo : ByteOrder) (s : State) : Host.Outcome State Fault Refusal :=
  runCommand (.ldraw rd rs1 cm bo) s do
    checkAccess s .read (s.num rs1) (bytesPerPixel cm)
    .ok (s.setRegNat rd (Memory.load s.mem (s.num rs1) (bytesPerPixel cm) bo))

/-- STRAW.cm.bo rs2, (rs1) (R129). -/
def execStraw (rs1 rs2 : Reg) (cm : ColorMode) (bo : ByteOrder) (s : State) : Host.Outcome State Fault Refusal :=
  runCommand (.straw rs1 rs2 cm bo) s do
    checkAccess s .write (s.num rs1) (bytesPerPixel cm)
    .ok (s.setMem (Memory.store s.mem (s.num rs1) (bytesPerPixel cm) (s.num rs2) bo))

end Sys2Proof.Machine
end

