-- ==== Sys2Proof/Machine/SubByte.lean ====
section
/-! DEFINITION. Sub-byte pixels (spec/44_subbyte.md): the slots of a byte and the commands SBLOAD, SBSTORE,
SBEXPAND, SBBULK, SBLOADM, SBSTOREM. -/

namespace Sys2Proof.Machine

/-- `ppb = 8 div k`, the pixels of one byte (R270). -/
def pixelsPerByte (k : Nat) : Nat := 8 / k

/-- `mask = 2^k - 1` (R270). -/
def pixelMask (k : Nat) : Nat := 2 ^ k - 1

/-- `Shift(k, po, i)` (R271). -/
def slotShift (k : Nat) (po : PixelOrder) (i : Nat) : Nat :=
  match po with
  | .msb => (pixelsPerByte k - 1 - i) * k
  | .lsb => i * k

/-- `LoadRaw(k, po, byte, i)` (R272). -/
def loadRaw (k : Nat) (po : PixelOrder) (byte i : Nat) : Nat := byte / 2 ^ slotShift k po i &&& pixelMask k

/-- `StoreRaw(k, po, byte, raw, i)` (R273): the slot's bits replaced, the others kept, the result 8 bits. -/
def storeRaw (k : Nat) (po : PixelOrder) (byte raw i : Nat) : Nat :=
  let sh := slotShift k po i
  (byte &&& (0xFF ^^^ pixelMask k * 2 ^ sh)) ||| (raw &&& pixelMask k) * 2 ^ sh

/-- `ExpandRaw(k, raw)` (R280). -/
def expandRaw (k raw : Nat) : Nat := (raw &&& pixelMask k) * (0xFF / pixelMask k)

/-- The colours of the slots `i`, `i + 1`, ..., `i + n - 1` of a byte, in that order. -/
def loadSlots (s : State) (cm : ColorMode) (po : PixelOrder) (byte i : Nat) : Nat → Exec (List Color)
  | 0 => .ok []
  | n + 1 => do
    let c ← toArgb s cm (loadRaw (bitsPerPixel cm) po byte i)
    let cs ← loadSlots s cm po byte (i + 1) n
    .ok (c :: cs)

/-- `LoadBulk(cm, po, byte)` (R281): the first slot that cannot be decoded decides the fault. -/
def loadBulk (s : State) (cm : ColorMode) (po : PixelOrder) (byte : Nat) : Exec (List Color) :=
  loadSlots s cm po byte 0 (pixelsPerByte (bitsPerPixel cm))

/-! ## The commands -/

/-- SBLOAD.cm.po rd, rs1, rs2 (R274). -/
def execSbload (rd rs1 rs2 : Reg) (cm : ColorMode) (po : PixelOrder) (s : State) :
    Host.Outcome State Fault Refusal :=
  runCommand (.sbload rd rs1 rs2 cm po) s do
    checkBelow (s.reg rs2) (pixelsPerByte (bitsPerPixel cm))
    .ok (s.setRegNat rd (loadRaw (bitsPerPixel cm) po (s.byte rs1) (s.num rs2)))

/-- SBSTORE.cm.po rd, rs1, rs2 (R275): `rd` is read as a byte and written. -/
def execSbstore (rd rs1 rs2 : Reg) (cm : ColorMode) (po : PixelOrder) (s : State) :
    Host.Outcome State Fault Refusal :=
  runCommand (.sbstore rd rs1 rs2 cm po) s do
    checkBelow (s.reg rs2) (pixelsPerByte (bitsPerPixel cm))
    .ok (s.setRegNat rd (storeRaw (bitsPerPixel cm) po (s.byte rd) (s.num rs1) (s.num rs2)))

/-- SBEXPAND.cm rd, rs1 (R276). -/
def execSbexpand (rd rs1 : Reg) (cm : ColorMode) (s : State) : Host.Outcome State Fault Refusal :=
  runCommand (.sbexpand rd rs1 cm) s (.ok (s.setRegNat rd (expandRaw (bitsPerPixel cm) (s.num rs1))))

/-- SBBULK.cm.po rs1, (rs2) (R277): every colour is computed before the first is written (R67). -/
def execSbbulk (rs1 rs2 : Reg) (cm : ColorMode) (po : PixelOrder) (s : State) : Host.Outcome State Fault Refusal :=
  runCommand (.sbbulk rs1 rs2 cm po) s do
    checkAccess s .write (s.num rs2) (4 * pixelsPerByte (bitsPerPixel cm))
    let cs ← loadBulk s cm po (s.byte rs1)
    .ok (s.setMem (Memory.storeColors s.mem (s.num rs2) cs))

/-- SBLOADM.cm.po rd, (rs1), rs2 (R278). -/
def execSbloadm (rd rs1 rs2 : Reg) (cm : ColorMode) (po : PixelOrder) (s : State) :
    Host.Outcome State Fault Refusal :=
  runCommand (.sbloadm rd rs1 rs2 cm po) s do
    checkBelow (s.reg rs2) (pixelsPerByte (bitsPerPixel cm))
    checkAccess s .read (s.num rs1) 1
    .ok (s.setRegNat rd
      (loadRaw (bitsPerPixel cm) po (Memory.read s.mem (s.num rs1)).toNat (s.num rs2)))

/-- SBSTOREM.cm.po rn, (rs1), rs2 (R279). -/
def execSbstorem (rn rs1 rs2 : Reg) (cm : ColorMode) (po : PixelOrder) (s : State) :
    Host.Outcome State Fault Refusal :=
  runCommand (.sbstorem rn rs1 rs2 cm po) s do
    checkBelow (s.reg rs2) (pixelsPerByte (bitsPerPixel cm))
    checkAccess s .write (s.num rs1) 1
    .ok (s.setMem (Memory.write s.mem (s.num rs1) (BitVec.ofNat 8
      (storeRaw (bitsPerPixel cm) po (Memory.read s.mem (s.num rs1)).toNat (s.num rn) (s.num rs2)))))

end Sys2Proof.Machine
end

