-- ==== Sys2Proof/Machine/Dispatch.lean ====
section
/-! DEFINITION. The meaning of every command, one arm per row of spec/opcode_table.json (R94). -/

namespace Sys2Proof.Machine

def exec (i : Instr) (s : State) : Host.Outcome State Fault Refusal :=
  match i with
  | .nop => Sys2Proof.Machine.execNop s
  | .ldi rd imm16 => Sys2Proof.Machine.execLdi rd imm16 s
  | .ldih rd imm16 => Sys2Proof.Machine.execLdih rd imm16 s
  | .mov rd rs1 => Sys2Proof.Machine.execMov rd rs1 s
  | .csrr rd csr => Sys2Proof.Machine.execCsrr rd csr s
  | .csrw rs1 csr => Sys2Proof.Machine.execCsrw rs1 csr s
  | .ldc rd rs1 => Sys2Proof.Machine.execLdc rd rs1 s
  | .stc rs1 rs2 => Sys2Proof.Machine.execStc rs1 rs2 s
  | .ldraw rd rs1 cm bo => Sys2Proof.Machine.execLdraw rd rs1 cm bo s
  | .straw rs1 rs2 cm bo => Sys2Proof.Machine.execStraw rs1 rs2 cm bo s
  | .cget rd rs1 ch => Sys2Proof.Machine.execCget rd rs1 ch s
  | .cset rd rs1 rs2 ch => Sys2Proof.Machine.execCset rd rs1 rs2 ch s
  | .copq rd rs1 => Sys2Proof.Machine.execCopq rd rs1 s
  | .cisopq rd rs1 => Sys2Proof.Machine.execCisopq rd rs1 s
  | .toargb rd rs1 cm => Sys2Proof.Machine.execToargb rd rs1 cm s
  | .fromargb rd rs1 cm => Sys2Proof.Machine.execFromargb rd rs1 cm s
  | .transp rd cm => Sys2Proof.Machine.execTransp rd cm s
  | .bpp rd cm => Sys2Proof.Machine.execBpp rd cm s
  | .blend rd rs1 rs2 bm => Sys2Proof.Machine.execBlend rd rs1 rs2 bm s
  | .blendv rn rs1 rs2 bm => Sys2Proof.Machine.execBlendv rn rs1 rs2 bm s
  | .blendvs rn rs1 rs2 bm => Sys2Proof.Machine.execBlendvs rn rs1 rs2 bm s
  | .blendraw rd rs1 rs2 cm bm => Sys2Proof.Machine.execBlendraw rd rs1 rs2 cm bm s
  | .blendrawm rs1 rs2 cm bm bo => Sys2Proof.Machine.execBlendrawm rs1 rs2 cm bm bo s
  | .sbload rd rs1 rs2 cm po => Sys2Proof.Machine.execSbload rd rs1 rs2 cm po s
  | .sbstore rd rs1 rs2 cm po => Sys2Proof.Machine.execSbstore rd rs1 rs2 cm po s
  | .sbexpand rd rs1 cm => Sys2Proof.Machine.execSbexpand rd rs1 cm s
  | .sbbulk rs1 rs2 cm po => Sys2Proof.Machine.execSbbulk rs1 rs2 cm po s
  | .sbloadm rd rs1 rs2 cm po => Sys2Proof.Machine.execSbloadm rd rs1 rs2 cm po s
  | .sbstorem rn rs1 rs2 cm po => Sys2Proof.Machine.execSbstorem rn rs1 rs2 cm po s
  | .palro rs1 rs2 tm => Sys2Proof.Machine.execPalro rs1 rs2 tm s
  | .palrw rs1 rs2 tm => Sys2Proof.Machine.execPalrw rs1 rs2 tm s
  | .paldyn rs1 => Sys2Proof.Machine.execPaldyn rs1 s
  | .palidx rd rs1 => Sys2Proof.Machine.execPalidx rd rs1 s

end Sys2Proof.Machine
end

