-- ==== Sys2Proof/Machine/Flags.lean ====
section
/-! DEFINITION. The machine has no status flags, condition codes or predicates (spec/10_state.md R23): no command
sets or reads one. The one sticky condition is STATUS.FAULTED, and the one signal computed from state is IRQ. -/

namespace Sys2Proof.Machine

/-- The level of the IRQ output, `STATUS.FAULTED and CTRL.IRQ_EN` (R49, R330). It is no state and nothing in the
engine reads it. -/
def State.irq (s : State) : Bool := s.statusFaulted && s.ctrlIrqEn

/-- A command word written now is executed and not dropped (R90, R326). -/
def State.ready (s : State) : Bool := !s.statusFaulted

end Sys2Proof.Machine
end

