-- ==== Sys2Proof/Machine/HostPort.lean ====
section
/-! DEFINITION. The host's side of the engine: the host port (spec/10_state.md R45), the command port (R90), the
reset input (R350), and what each of the host's moves does (R367). -/

namespace Sys2Proof.Machine

/-! ## The map of the host port (R45) -/

/-- What lies at a byte offset of the host port. -/
inductive PortLocation where
  | register (r : Reg)
  | csr (n : Csr)
  | command
  | faultClear
  | reserved
deriving DecidableEq, Repr

/-- The location at an offset: `x[i]` at `4i`, `CMD` at `0x400`, `FAULT_CLR` at `0x404`, CSR number `n` at
`0x100 + 4n`; every other offset, a number that no CSR has among them, is reserved. [DEDUCED, log entry 5: the two
named ports win over the CSR numbers 0xC0 and 0xC1, which do not exist.] -/
def portLocation (offset : Nat) : PortLocation :=
  if offset = 0x400 then .command
  else if offset = 0x404 then .faultClear
  else if offset % 4 ≠ 0 then .reserved
  else if offset < 0x40 then .register (Fin.ofNat 16 (offset / 4))
  else if 0x100 ≤ offset ∧ offset ≤ 0x100 + 4 * 255 then
    match Csr.ofCode? ((offset - 0x100) / 4) with
    | some n => .csr n
    | none => .reserved
  else .reserved

/-- What a host read of an offset returns (R45); write-only and reserved locations read 0 (R332). A read changes
nothing (R367(e)). -/
def State.portRead (s : State) (offset : Nat) : Word :=
  match portLocation offset with
  | .register r => s.reg r
  | .csr n => s.csr n
  | .command | .faultClear | .reserved => 0

/-! ## The command port (R90, R326) -/

/-- A word written to `CMD`: dropped while a fault is latched (R326), otherwise decoded, where a word that is no
command raises IllegalCommand (R95, R321), and executed. -/
def writeCommand (w : Word) (s : State) : Host.Outcome State Fault Refusal :=
  if s.ready then
    match decode w with
    | .ok i => exec i s
    | .error _ => .next (s.takeFault .illegalCommand w)
  else .next s

/-- A host write to an offset of the port (R45); a write to a CSR of class RO or to a reserved location is ignored
(R24, R332). -/
def portWrite (offset : Nat) (v : Word) (s : State) : Host.Outcome State Fault Refusal :=
  match portLocation offset with
  | .register r => .next (s.setReg r v)
  | .csr n => .next (s.setCsr n v)
  | .command => writeCommand v s
  | .faultClear => .next s.clearFault
  | .reserved => .next s

/-! ## Reset and the host's moves (R350, R367) -/

/-- The reset input: every piece of engine state at its reset value; the data memory is not changed, and the map and
the host's further moves are not the engine's (R350). -/
def State.resetEngine (s : State) : State :=
  { State.reset with mem := s.mem, memMap := s.memMap, moves := s.moves }

/-- One move of the host (R367). Reads change nothing; a write to the data memory by the host's own path changes
that byte alone, whatever the engine's map says (log entry 6). -/
def hostMove (m : HostMove) (s : State) : Host.Outcome State Fault Refusal :=
  match m with
  | .portWrite offset v => portWrite offset v s
  | .portRead _ => .next s
  | .memWrite addr b => .next (s.setMem (Memory.write s.mem addr.toNat b))
  | .memRead _ => .next s
  | .reset => .next s.resetEngine

/-- The state with the host's pending moves replaced. -/
def State.setMoves (s : State) (ms : List HostMove) : State := { s with moves := ms }

/-- Take the host's next move, if it has one; otherwise the run has ended and nothing changes (R367). -/
def takeMove (s : State) : Host.Outcome State Fault Refusal :=
  match s.moves with
  | [] => .next s
  | m :: rest => hostMove m (s.setMoves rest)

/-- The state in which the host's next move writes the command word `w` to `CMD` and the engine takes it: a latched
fault, which would drop the word (R326), is cleared. -/
def State.withCommand (s : State) (w : Word) : State :=
  (if s.ready then s else s.clearFault).setMoves (.portWrite 0x400 w :: s.moves)

end Sys2Proof.Machine
end

