-- ==== Sys2Proof/Machine/Step.lean ====
section
/-! DEFINITION. One step of the machine: the engine has no program counter and fetches nothing (spec/10_state.md
R22); a step is the host's next move (spec/70_reset_and_hazards.md R367), most often a word written to `CMD`. -/

namespace Sys2Proof.Machine

/-- One step. -/
def step (s : State) : Host.Outcome State Fault Refusal := takeMove s

/-- The state with the instruction of `nbits` bits `w` placed where the next step takes its command from: as the
host's next move, a write of the 32-bit word to `CMD`. -/
def State.withFetchWord (s : State) (nbits w : Nat) : State := s.withCommand (BitVec.ofNat 32 (w % 2 ^ nbits))

end Sys2Proof.Machine
end

