-- ==== Sys2Proof/Safety.lean ====
section
/-! DEFINITION. The words in which statements about the machine are made: what a command leaves unchanged, what a
fault leaves, which address ranges are good, which word is legal, what a raw pixel stands for, and the invariants of
the state. Nothing here is used by the machine. -/

namespace Sys2Proof

/-- The colour modes Indexed1, Indexed2, Indexed4 and Indexed8, which go through the palette (R197, R198). -/
def ColorMode.indexed : ColorMode → Bool
  | .idx1 | .idx2 | .idx4 | .idx8 => true
  | .argb8888 | .rgba8888 | .rgb888 | .argb6666 | .argb4444 | .rgb565 | .rgb565t | .gray8 | .grayalpha8 => false
  | .gray4 | .alpha8 | .alpha4 | .mono => false

/-! ## Legal words, written from the encoding column of spec/opcode_table.json -/

/-- One row of the opcode table: the opcode, the bit ranges that must be 0, and which codes its selectors take. -/
structure CommandRow where
  opcode : Nat
  zero : List (Nat × Nat)
  cm : Nat → Bool := fun _ => true
  bm : Nat → Bool := fun _ => true
  csr : Nat → Bool := fun _ => true

/-- Colour-mode codes 0 to 16 (R93). -/
def anyMode (n : Nat) : Bool := n ≤ 16

/-- The full-byte codes of R93. -/
def fullByteMode (n : Nat) : Bool := [0, 1, 2, 3, 4, 5, 6, 7, 8, 10, 16].contains n

/-- The sub-byte codes of R93. -/
def subByteMode (n : Nat) : Bool := [9, 11, 12, 13, 14, 15].contains n

/-- Blending-mode codes 0 to 13 (R93). -/
def anyBlend (n : Nat) : Bool := n ≤ 13

/-- The CSR numbers of R24. -/
def anyCsr (n : Nat) : Bool :=
  [0x00, 0x01, 0x02, 0x03, 0x04, 0x05, 0x10, 0x11, 0x12, 0x13, 0x20, 0x21, 0x22, 0x23, 0x24].contains n

/-- The CSR numbers of class RW (R24). -/
def writableCsr (n : Nat) : Bool := [0x00, 0x10, 0x11, 0x12, 0x13].contains n

/-- The 33 rows (R94), every field that a command does not use among the bits that must be 0 (R95(b) to (e)). -/
def commandRows : List CommandRow := [
  { opcode := 0x00, zero := [(31, 8)] },
  { opcode := 0x01, zero := [(15, 12)] },
  { opcode := 0x02, zero := [(15, 12)] },
  { opcode := 0x03, zero := [(31, 16)] },
  { opcode := 0x04, zero := [(31, 28), (19, 12)], csr := anyCsr },
  { opcode := 0x05, zero := [(31, 28), (19, 16), (11, 8)], csr := writableCsr },
  { opcode := 0x06, zero := [(31, 16)] },
  { opcode := 0x07, zero := [(31, 20), (11, 8)] },
  { opcode := 0x08, zero := [(31, 31), (29, 25), (19, 16)], cm := fullByteMode },
  { opcode := 0x09, zero := [(31, 31), (29, 25), (11, 8)], cm := fullByteMode },
  { opcode := 0x10, zero := [(31, 22), (19, 16)] },
  { opcode := 0x11, zero := [(31, 22)] }] ++ [
  { opcode := 0x12, zero := [(31, 16)] },
  { opcode := 0x13, zero := [(31, 16)] },
  { opcode := 0x20, zero := [(31, 25), (19, 16)], cm := anyMode },
  { opcode := 0x21, zero := [(31, 25), (19, 16)], cm := anyMode },
  { opcode := 0x22, zero := [(31, 25), (19, 12)], cm := anyMode },
  { opcode := 0x23, zero := [(31, 25), (19, 12)], cm := anyMode },
  { opcode := 0x30, zero := [(31, 29), (24, 20)], bm := anyBlend },
  { opcode := 0x31, zero := [(31, 29), (24, 20)], bm := anyBlend },
  { opcode := 0x32, zero := [(31, 29), (24, 20)], bm := anyBlend },
  { opcode := 0x33, zero := [(31, 29)], cm := anyMode, bm := anyBlend },
  { opcode := 0x34, zero := [(31, 31), (29, 29), (11, 8)], cm := fullByteMode, bm := anyBlend }] ++ [
  { opcode := 0x40, zero := [(31, 30), (28, 25)], cm := subByteMode },
  { opcode := 0x41, zero := [(31, 30), (28, 25)], cm := subByteMode },
  { opcode := 0x42, zero := [(31, 25), (19, 16)], cm := subByteMode },
  { opcode := 0x43, zero := [(31, 30), (28, 25), (11, 8)], cm := subByteMode },
  { opcode := 0x44, zero := [(31, 30), (28, 25)], cm := subByteMode },
  { opcode := 0x45, zero := [(31, 30), (28, 25)], cm := subByteMode },
  { opcode := 0x50, zero := [(31, 22), (11, 8)] },
  { opcode := 0x51, zero := [(31, 22), (11, 8)] },
  { opcode := 0x52, zero := [(31, 16), (11, 8)] },
  { opcode := 0x53, zero := [(31, 16)] }]

/-- The word meets a row: its opcode, every bit that must be 0, and every selector. -/
def CommandRow.meets (row : CommandRow) (w : Word) : Prop :=
  slice w.toNat 7 0 = row.opcode ∧ (∀ f ∈ row.zero, slice w.toNat f.1 f.2 = 0) ∧
    row.cm (slice w.toNat 24 20) = true ∧ row.bm (slice w.toNat 28 25) = true ∧ row.csr (slice w.toNat 27 20) = true

/-- A legal command word (R95, R96). -/
def LegalWord (w : Word) : Prop := ∃ row ∈ commandRows, row.meets w

end Sys2Proof

namespace Sys2Proof.Machine

/-! ## What a command leaves unchanged -/

/-- Every general register keeps its value. -/
def RegsKept (s t : State) : Prop := ∀ r, t.reg r = s.reg r

/-- Every general register but `d` keeps its value. -/
def RegsKeptBut (d : Reg) (s t : State) : Prop := ∀ r, r ≠ d → t.reg r = s.reg r

/-- Every control and status register that is not listed keeps its value. -/
def CsrsKeptBut (ns : List Csr) (s t : State) : Prop := ∀ n, n ∉ ns → t.csr n = s.csr n

/-- CMDCNT went up by one, wrapping at `2^32` (R30). -/
def Counted (s t : State) : Prop := t.csr .cmdcnt = s.csr .cmdcnt + 1

/-- PALRAM and RIDX are as they were (R41, R42). -/
def PaletteStoreKept (s t : State) : Prop := t.palRam = s.palRam ∧ t.ridx = s.ridx

/-- Every byte of the data memory reads as before. -/
def MemoryKept (s t : State) : Prop := ∀ a, Memory.read t.mem a = Memory.read s.mem a

/-- Every byte outside the `len` bytes at `a` reads as before. -/
def MemoryKeptOutside (a len : Nat) (s t : State) : Prop :=
  ∀ x, x < a ∨ a + len ≤ x → Memory.read t.mem x = Memory.read s.mem x

/-- The memory map and the host's further moves, which no command can change. -/
def PlatformKept (s t : State) : Prop := t.memMap = s.memMap ∧ t.moves = s.moves

/-- The five registers of the palette (R35 to R39). -/
def paletteCsrs : List Csr := [.palKind, .palBase, .palSize, .palCap, .palTm]

/-- The four registers of the fault latch (R26 to R29). -/
def faultCsrs : List Csr := [.status, .faultCause, .faultCmd, .faultInfo]

/-- A command that completed and changed nothing but CMDCNT. -/
def ChangesNothing (s t : State) : Prop :=
  RegsKept s t ∧ CsrsKeptBut [.cmdcnt] s t ∧ Counted s t ∧ PaletteStoreKept s t ∧ MemoryKept s t ∧ PlatformKept s t

/-- A command that completed and changed, besides CMDCNT, at most the register `d`. -/
def ChangesOnlyReg (d : Reg) (s t : State) : Prop :=
  RegsKeptBut d s t ∧ CsrsKeptBut [.cmdcnt] s t ∧ Counted s t ∧ PaletteStoreKept s t ∧ MemoryKept s t ∧
    PlatformKept s t

/-- A command that completed and changed, besides CMDCNT, at most the register `n` of the CSRs. -/
def ChangesOnlyCsr (n : Csr) (s t : State) : Prop :=
  RegsKept s t ∧ CsrsKeptBut [n, .cmdcnt] s t ∧ Counted s t ∧ PaletteStoreKept s t ∧ MemoryKept s t ∧ PlatformKept s t

/-- A command that completed and changed, besides CMDCNT, at most the `len` bytes of memory at `a`. -/
def ChangesOnlyMemory (a len : Nat) (s t : State) : Prop :=
  RegsKept s t ∧ CsrsKeptBut [.cmdcnt] s t ∧ Counted s t ∧ PaletteStoreKept s t ∧ MemoryKeptOutside a len s t ∧
    PlatformKept s t

/-- A command that completed and changed, besides CMDCNT, at most the palette. -/
def ChangesOnlyPalette (s t : State) : Prop :=
  RegsKept s t ∧ CsrsKeptBut (.cmdcnt :: paletteCsrs) s t ∧ Counted s t ∧ MemoryKept s t ∧ PlatformKept s t

/-- A command that completed and changed, besides CMDCNT, at most the register `d` and the palette. -/
def ChangesRegAndPalette (d : Reg) (s t : State) : Prop :=
  RegsKeptBut d s t ∧ CsrsKeptBut (.cmdcnt :: paletteCsrs) s t ∧ Counted s t ∧ MemoryKept s t ∧ PlatformKept s t

/-- A command that completed and changed, besides CMDCNT, at most the `len` bytes at `a` and the palette. -/
def ChangesMemoryAndPalette (a len : Nat) (s t : State) : Prop :=
  RegsKept s t ∧ CsrsKeptBut (.cmdcnt :: paletteCsrs) s t ∧ Counted s t ∧ MemoryKeptOutside a len s t ∧ PlatformKept s t

/-- The state after a fault (R324): the four fault registers hold the fault, everything else is as before the
command, CMDCNT among it. `code` is the fault's number in R320. -/
def TakesFault (code : Nat) (info cmd : Word) (s t : State) : Prop :=
  t.csr .status = 1 ∧ t.csr .faultCause = BitVec.ofNat 32 code ∧ t.csr .faultCmd = cmd ∧ t.csr .faultInfo = info ∧
    RegsKept s t ∧ CsrsKeptBut faultCsrs s t ∧ PaletteStoreKept s t ∧ MemoryKept s t ∧ PlatformKept s t

/-- Executing the command takes this fault, the command's own word recorded. -/
def Raises (code : Nat) (info : Word) (i : Instr) (s : State) : Prop :=
  ∃ t, exec i s = .next t ∧ TakesFault code info (encode i) s t

/-! ## Address ranges (R63, R64) -/

/-- Each of the `len` addresses at `a` lies below `2^32` and permits the access. -/
def RangeOk (s : State) (k : Access) (a len : Nat) : Prop :=
  ∀ x, a ≤ x → x < a + len → accessible s.memMap k x = true

/-- `b` is the lowest of the `len` addresses at `a` that does not permit the access. -/
def LowestBad (s : State) (k : Access) (a len b : Nat) : Prop :=
  a ≤ b ∧ b < a + len ∧ accessible s.memMap k b = false ∧ ∀ x, a ≤ x → x < b → accessible s.memMap k x = true

/-- What FAULT_INFO shows for a bad address (R29): `0xFFFFFFFF` from `2^32` on. -/
def addressInfo (b : Nat) : Word := if b < 2 ^ 32 then BitVec.ofNat 32 b else 0xFFFFFFFF

/-! ## Colours and palettes -/

/-- The colour has these four channels (R7). -/
def HasChannels (c : Color) (a r g b : Nat) : Prop := c.toNat = a * 2 ^ 24 + r * 2 ^ 16 + g * 2 ^ 8 + b

/-- `Class(c)` (R161) as its code. -/
def colorClass (c : Color) : Nat := if alphaOf c = 0xFF then 0 else if alphaOf c = 0 then 1 else 2

/-- Five bits replicated to eight (R168). -/
def fiveToEight (v : Nat) : Nat := v * 8 + v / 4

/-- Six bits replicated to eight (R168). -/
def sixToEight (v : Nat) : Nat := v * 4 + v / 16

/-- The palette's entry `i` is the colour `c` (R292): the engine's own entry if the palette is Dynamic, otherwise the
word of the borrowed array, which must be readable. -/
def EntryIs (s : State) (i : Nat) (c : Color) : Prop :=
  (s.palKind = .dynamic ∧ ∃ h : i < 256, c = s.palRam[i]) ∨
    (s.palKind ≠ .dynamic ∧ RangeOk s .read (s.palBase.toNat + 4 * i) 4 ∧
      c = Memory.loadColor s.mem (s.palBase.toNat + 4 * i))

/-- The raw value `raw` of mode `cm`, its bits above the pixel width ignored (R163), decodes to the colour `c`: the
mode's rule among R170 to R197, by the channels of the result. -/
def DecodesTo (s : State) (cm : ColorMode) (raw : Nat) (c : Color) : Prop :=
  let v := raw % 2 ^ bitsPerPixel cm
  match cm with
  | .argb8888 => c.toNat = v
  | .rgba8888 => HasChannels c (v % 2 ^ 8) (v / 2 ^ 24) (v / 2 ^ 16 % 2 ^ 8) (v / 2 ^ 8 % 2 ^ 8)
  | .rgb888 => HasChannels c 255 (v / 2 ^ 16) (v / 2 ^ 8 % 2 ^ 8) (v % 2 ^ 8)
  | .argb6666 =>
    HasChannels c (sixToEight (v / 2 ^ 18)) (sixToEight (v / 2 ^ 12 % 2 ^ 6)) (sixToEight (v / 2 ^ 6 % 2 ^ 6))
      (sixToEight (v % 2 ^ 6))
  | .argb4444 => HasChannels c (v / 2 ^ 12 * 17) (v / 2 ^ 8 % 2 ^ 4 * 17) (v / 2 ^ 4 % 2 ^ 4 * 17) (v % 2 ^ 4 * 17)
  | .rgb565 => HasChannels c 255 (fiveToEight (v / 2 ^ 11)) (sixToEight (v / 2 ^ 5 % 2 ^ 6)) (fiveToEight (v % 2 ^ 5))
  | .rgb565t =>
    if (s.csr .transp565).toNat = v then c = 0
    else HasChannels c 255 (fiveToEight (v / 2 ^ 11)) (sixToEight (v / 2 ^ 5 % 2 ^ 6)) (fiveToEight (v % 2 ^ 5))
  | .gray8 => HasChannels c 255 v v v
  | .grayalpha8 => HasChannels c (v % 2 ^ 8) (v / 2 ^ 8) (v / 2 ^ 8) (v / 2 ^ 8)
  | .gray4 => HasChannels c 255 (17 * v) (17 * v) (17 * v)
  | .alpha8 => c.toNat = v * 2 ^ 24 + (s.csr .tint).toNat % 2 ^ 24
  | .alpha4 => c.toNat = 17 * v * 2 ^ 24 + (s.csr .tint).toNat % 2 ^ 24
  | .mono => c = if v = 1 then s.csr .monoFg else s.csr .monoBg
  | .idx1 | .idx2 | .idx4 | .idx8 => EntryIs s v c

/-- The palette entry that decoding `raw` needs, if it needs one in memory, can be read (R197, R292). -/
def EntryReadable (s : State) (cm : ColorMode) (raw : Nat) : Prop :=
  cm.indexed = true → s.palKind ≠ .dynamic →
    RangeOk s .read (s.palBase.toNat + 4 * (raw % 2 ^ bitsPerPixel cm)) 4

/-- A reverse lookup of the colour `c` answers the index `n`, and makes an insertion exactly if `inserts` (R293). It
answers nothing for a ReadOnly palette with ASSERT_EN set. -/
def LooksUpTo (s : State) (c : Color) (n : Nat) (inserts : Bool) : Prop :=
  (s.palKind = .readOnly ∧ s.ctrlAssertEn = false ∧ n = 0 ∧ inserts = false) ∨
    (s.palKind ≠ .readOnly ∧ (∃ i, ridxLookup s.ridx c = some i ∧ n = i.val) ∧ inserts = false) ∨
    (s.palKind = .readWrite ∧ ridxLookup s.ridx c = none ∧ n = 0 ∧ inserts = false) ∨
    (s.palKind = .dynamic ∧ ridxLookup s.ridx c = none ∧ s.palCap ≤ s.palSize ∧ n = 0 ∧ inserts = false) ∨
    (s.palKind = .dynamic ∧ ridxLookup s.ridx c = none ∧ s.palSize < s.palCap ∧ n = s.palSize.val ∧ inserts = true)

/-- A reverse lookup is allowed for this mode: it makes none, or the palette is not ReadOnly, or ASSERT_EN is clear
(R325). -/
def LookupAllowed (s : State) (cm : ColorMode) : Prop :=
  cm.indexed = true → s.palKind = .readOnly → s.ctrlAssertEn = false

/-- The 5/6/5 value of a colour by the truncations of R167 (R181). -/
def rgb565Of (c : Color) : Nat :=
  (redOf c - redOf c / 32) / 8 * 2 ^ 11 + (greenOf c - greenOf c / 64) / 4 * 2 ^ 5 + (blueOf c - blueOf c / 32) / 8

/-- A 16-bit value with its bit 5 inverted (R183). -/
def flipBit5 (w : Nat) : Nat := if w / 32 % 2 = 0 then w + 32 else w - 32

/-- The colour `c` encodes in mode `cm` to the raw value `n`, with an insertion into the palette exactly if `inserts`:
the mode's rule among R171 to R198. -/
def EncodesTo (s : State) (cm : ColorMode) (c : Color) (n : Nat) (inserts : Bool) : Prop :=
  let a := alphaOf c
  let r := redOf c
  let g := greenOf c
  let b := blueOf c
  match cm with
  | .argb8888 => n = c.toNat ∧ inserts = false
  | .rgba8888 => n = r * 2 ^ 24 + g * 2 ^ 16 + b * 2 ^ 8 + a ∧ inserts = false
  | .rgb888 => n = r * 2 ^ 16 + g * 2 ^ 8 + b ∧ inserts = false
  | .argb6666 =>
    n = (a - a / 64) / 4 * 2 ^ 18 + (r - r / 64) / 4 * 2 ^ 12 + (g - g / 64) / 4 * 2 ^ 6 + (b - b / 64) / 4 ∧
      inserts = false
  | .argb4444 =>
    n = (a - a / 16) / 16 * 2 ^ 12 + (r - r / 16) / 16 * 2 ^ 8 + (g - g / 16) / 16 * 2 ^ 4 + (b - b / 16) / 16 ∧
      inserts = false
  | .rgb565 => n = rgb565Of c ∧ inserts = false
  | .rgb565t =>
    n = (if a ≤ 127 then (s.csr .transp565).toNat
      else if rgb565Of c = (s.csr .transp565).toNat then flipBit5 (rgb565Of c) else rgb565Of c) ∧ inserts = false
  | .gray8 => n = (3 * r + 4 * g + b) / 8 ∧ inserts = false
  | .grayalpha8 => n = (3 * r + 4 * g + b) / 8 * 2 ^ 8 + a ∧ inserts = false
  | .gray4 => n = (3 * r + 4 * g + b) / 128 ∧ inserts = false
  | .alpha8 => n = a ∧ inserts = false
  | .alpha4 => n = a / 16 ∧ inserts = false
  | .mono => n = (if c = s.csr .monoBg ∨ a = 0 then 0 else 1) ∧ inserts = false
  | .idx1 | .idx2 | .idx4 | .idx8 => LooksUpTo s c n inserts

/-- The palette after a lookup that inserted `c` (R293, R294): the next entry and the next index are its own, PAL_SIZE
went up by one and PAL_TM rose to its class if that is larger. -/
def Inserted (c : Color) (s t : State) : Prop :=
  (∀ i (h : i < 256), t.palRam[i] = if i = s.palSize.val then c else s.palRam[i]) ∧
    (∀ d, (ridxLookup t.ridx d).map Fin.val =
      if d = c then some s.palSize.val else (ridxLookup s.ridx d).map Fin.val) ∧
    t.csr .palSize = s.csr .palSize + 1 ∧
    (t.csr .palTm).toNat = max (s.csr .palTm).toNat (colorClass c) ∧
    t.csr .palKind = s.csr .palKind ∧ t.csr .palBase = s.csr .palBase ∧ t.csr .palCap = s.csr .palCap

/-- The palette is as it was. -/
def PaletteKept (s t : State) : Prop := PaletteStoreKept s t ∧ ∀ n ∈ paletteCsrs, t.csr n = s.csr n

/-- The palette after a lookup of `c`. -/
def PaletteAfter (inserts : Bool) (c : Color) (s t : State) : Prop :=
  if inserts = true then Inserted c s t else PaletteKept s t

/-- The slot of pixel `i`, of `k` bits, starts at this bit of its byte (R271). -/
def slotBit (k : Nat) (po : PixelOrder) (i : Nat) : Nat :=
  match po with
  | .msb => 8 - k * (i + 1)
  | .lsb => k * i

/-- The pixel in slot `i` of a byte (R272). -/
def pixelOf (k : Nat) (po : PixelOrder) (byte i : Nat) : Nat := byte / 2 ^ slotBit k po i % 2 ^ k

/-- The byte `new` is the byte `old` with `raw` in slot `i` (R273), bit by bit. -/
def MergesPixel (k : Nat) (po : PixelOrder) (old raw i new : Nat) : Prop :=
  new < 256 ∧ ∀ j, j < 8 → new.testBit j =
    if slotBit k po i ≤ j ∧ j < slotBit k po i + k then raw.testBit (j - slotBit k po i) else old.testBit j

/-- The word `c` is the `Color` at address `a`: the byte of the lowest address is the least significant (R61(a)). -/
def WordAt (m : List Host.Cell) (a : Nat) (c : Color) : Prop :=
  ∀ k, k < 4 → (Memory.read m (a + k)).toNat = c.toNat / 256 ^ k % 256

/-- A raw pixel of `n` bytes at `a` (R61(b)): `bo = le` puts its least significant byte at the lowest address, `bo =
be` its most significant one. -/
def PixelAt (m : List Host.Cell) (a n : Nat) (bo : ByteOrder) (v : Nat) : Prop :=
  ∀ k, k < n → (Memory.read m (a + k)).toNat =
    v / 256 ^ (match bo with | .le => k | .be => n - 1 - k) % 256

/-- `k` is the tightest class of the `n` colours of the array at `base` (R295 `AutoTM`): it bounds the class of each and
is the class of one of them, or 0. -/
def TightestClass (m : List Host.Cell) (base n k : Nat) : Prop :=
  (∀ i, i < n → ∀ c, WordAt m (base + 4 * i) c → colorClass c ≤ k) ∧
    (k = 0 ∨ ∃ i c, i < n ∧ WordAt m (base + 4 * i) c ∧ colorClass c = k)

/-- `x` divided by 255 and rounded to the nearest integer is `q` (R221). -/
def NearestOver255 (x q : Nat) : Prop := 2 * x ≤ 510 * q + 255 ∧ 510 * q ≤ 2 * x + 255

/-! ## Which fault a command can raise (R329) -/

/-- A ReadOnly or ReadWrite palette. -/
def State.borrowed (s : State) : Bool :=
  match s.palKind with
  | .readOnly | .readWrite => true
  | .dynamic => false

/-- The faults besides IllegalCommand that the row of R329 allows a command. -/
def mayRaise (s : State) : Instr → List FaultCause
  | .nop | .ldi _ _ | .ldih _ _ | .mov _ _ | .csrr _ _ | .csrw _ _ => []
  | .cget _ _ _ | .cset _ _ _ _ | .copq _ _ | .cisopq _ _ => []
  | .ldc _ _ | .stc _ _ | .ldraw _ _ _ _ | .straw _ _ _ _ => [.accessFault]
  | .toargb _ _ cm => if cm.indexed && s.borrowed then [.accessFault] else []
  | .fromargb _ _ cm => if cm.indexed then [.paletteAssert] else []
  | .transp _ _ | .bpp _ _ | .blend _ _ _ _ => []
  | .blendv _ _ _ _ | .blendvs _ _ _ _ => [.accessFault]
  | .blendraw _ _ _ cm _ =>
    (if cm.indexed && s.borrowed then [.accessFault] else []) ++ (if cm.indexed then [.paletteAssert] else [])
  | .blendrawm _ _ cm _ _ => .accessFault :: (if cm = .idx8 then [.paletteAssert] else [])
  | .sbload _ _ _ _ _ | .sbstore _ _ _ _ _ => [.operandRange]
  | .sbexpand _ _ _ => []
  | .sbbulk _ _ _ _ => [.accessFault]
  | .sbloadm _ _ _ _ _ | .sbstorem _ _ _ _ _ => [.operandRange, .accessFault]
  | .palro _ _ tm => .operandRange :: (if tm = .auto then [.accessFault] else [])
  | .palrw _ _ _ => [.operandRange, .accessFault]
  | .paldyn _ => [.operandRange]
  | .palidx _ _ => [.paletteAssert]

/-! ## What each command writes (R21, R65) -/

/-- The register a command writes, if it writes one (R94: `w` or `rw` in the `rd` column). -/
def destination : Instr → Option Reg
  | .nop | .csrw _ _ | .stc _ _ | .straw _ _ _ _ => none
  | .ldi rd _ | .ldih rd _ | .mov rd _ | .csrr rd _ | .ldc rd _ | .ldraw rd _ _ _ => some rd
  | .cget rd _ _ | .cset rd _ _ _ | .copq rd _ | .cisopq rd _ => some rd
  | .toargb rd _ _ | .fromargb rd _ _ | .transp rd _ | .bpp rd _ => some rd
  | .blend rd _ _ _ | .blendraw rd _ _ _ _ => some rd
  | .blendv _ _ _ _ | .blendvs _ _ _ _ | .blendrawm _ _ _ _ _ => none
  | .sbload rd _ _ _ _ | .sbstore rd _ _ _ _ | .sbexpand rd _ _ | .sbloadm rd _ _ _ _ => some rd
  | .sbbulk _ _ _ _ | .sbstorem _ _ _ _ _ => none
  | .palro _ _ _ | .palrw _ _ _ | .paldyn _ => none
  | .palidx rd _ => some rd

/-- The address and the number of the bytes a command writes (R65). -/
def storedRange (s : State) : Instr → Nat × Nat
  | .stc rs1 _ => ((s.reg rs1).toNat, 4)
  | .straw rs1 _ cm _ => ((s.reg rs1).toNat, bitsPerPixel cm / 8)
  | .blendrawm rs1 _ cm _ _ => ((s.reg rs1).toNat, bitsPerPixel cm / 8)
  | .blendv rn rs1 _ _ => ((s.reg rs1).toNat, 4 * (s.reg rn).toNat)
  | .blendvs rn rs1 _ _ => ((s.reg rs1).toNat, 4 * (s.reg rn).toNat)
  | .sbstorem _ rs1 _ _ _ => ((s.reg rs1).toNat, 1)
  | .sbbulk _ rs2 cm _ => ((s.reg rs2).toNat, 4 * (8 / bitsPerPixel cm))
  | .nop | .ldi _ _ | .ldih _ _ | .mov _ _ | .csrr _ _ | .csrw _ _ | .ldc _ _ | .ldraw _ _ _ _ => (0, 0)
  | .cget _ _ _ | .cset _ _ _ _ | .copq _ _ | .cisopq _ _ => (0, 0)
  | .toargb _ _ _ | .fromargb _ _ _ | .transp _ _ | .bpp _ _ => (0, 0)
  | .blend _ _ _ _ | .blendraw _ _ _ _ _ => (0, 0)
  | .sbload _ _ _ _ _ | .sbstore _ _ _ _ _ | .sbexpand _ _ _ | .sbloadm _ _ _ _ _ => (0, 0)
  | .palro _ _ _ | .palrw _ _ _ | .paldyn _ | .palidx _ _ => (0, 0)

/-- The commands that establish a palette (R296 to R298). -/
def isFactory : Instr → Bool
  | .palro _ _ _ | .palrw _ _ _ | .paldyn _ => true
  | .nop | .ldi _ _ | .ldih _ _ | .mov _ _ | .csrr _ _ | .csrw _ _ | .ldc _ _ | .stc _ _ => false
  | .ldraw _ _ _ _ | .straw _ _ _ _ | .cget _ _ _ | .cset _ _ _ _ | .copq _ _ | .cisopq _ _ => false
  | .toargb _ _ _ | .fromargb _ _ _ | .transp _ _ | .bpp _ _ | .blend _ _ _ _ | .blendv _ _ _ _ => false
  | .blendvs _ _ _ _ | .blendraw _ _ _ _ _ | .blendrawm _ _ _ _ _ => false
  | .sbload _ _ _ _ _ | .sbstore _ _ _ _ _ | .sbexpand _ _ _ | .sbbulk _ _ _ _ => false
  | .sbloadm _ _ _ _ _ | .sbstorem _ _ _ _ _ | .palidx _ _ => false

/-- The commands that look a colour up in the palette, and so may insert into a Dynamic one (R293, R357). -/
def looksUp : Instr → Bool
  | .palidx _ _ => true
  | .fromargb _ _ cm => cm.indexed
  | .blendraw _ _ _ cm _ => cm.indexed
  | .blendrawm _ _ cm _ _ => cm.indexed
  | .nop | .ldi _ _ | .ldih _ _ | .mov _ _ | .csrr _ _ | .csrw _ _ | .ldc _ _ | .stc _ _ => false
  | .ldraw _ _ _ _ | .straw _ _ _ _ | .cget _ _ _ | .cset _ _ _ _ | .copq _ _ | .cisopq _ _ => false
  | .toargb _ _ _ | .transp _ _ | .bpp _ _ | .blend _ _ _ _ | .blendv _ _ _ _ | .blendvs _ _ _ _ => false
  | .sbload _ _ _ _ _ | .sbstore _ _ _ _ _ | .sbexpand _ _ _ | .sbbulk _ _ _ _ => false
  | .sbloadm _ _ _ _ _ | .sbstorem _ _ _ _ _ | .palro _ _ _ | .palrw _ _ _ | .paldyn _ => false

/-! ## Invariants -/

/-- The fault latch is consistent (R26 to R29): clear registers while nothing is latched, a cause while something
is. -/
def LatchOk (s : State) : Prop :=
  (s.statusFaulted = false → s.faultCause = .none ∧ s.faultCmd = 0 ∧ s.faultInfo = 0) ∧
    (s.statusFaulted = true → s.faultCause ≠ .none)

/-- The palette invariants R43(a) to (d). -/
structure PaletteOk (s : State) : Prop where
  size_le_cap : s.palSize ≤ s.palCap
  readOnly : s.palKind = .readOnly → s.ridx = [] ∧ s.palCap = s.palSize
  readWrite : s.palKind = .readWrite →
    s.palCap = s.palSize ∧ ∀ c i, ridxLookup s.ridx c = some i → i.val < s.palSize.val
  dynamic_distinct : s.palKind = .dynamic → ∀ i j (hi : i < 256) (hj : j < 256),
    i < s.palSize.val → j < s.palSize.val → i ≠ j → s.palRam[i] ≠ s.palRam[j]
  dynamic_index : s.palKind = .dynamic → ∀ c i,
    ridxLookup s.ridx c = some i ↔ i.val < s.palSize.val ∧ s.palRam[i.val] = c
  dynamic_unused : s.palKind = .dynamic → ∀ i (hi : i < 256), s.palSize.val ≤ i → s.palRam[i] = 0
  dynamic_class_bound : s.palKind = .dynamic → ∀ i (hi : i < 256), i < s.palSize.val →
    colorClass s.palRam[i] ≤ s.palTm.code
  dynamic_class_met : s.palKind = .dynamic → s.palTm.code = 0 ∨
    ∃ i, ∃ hi : i < 256, i < s.palSize.val ∧ colorClass s.palRam[i] = s.palTm.code

/-- The invariant of the machine: the memory in its canonical form, the fault latch and the palette consistent. -/
def Inv (s : State) : Prop := Memory.wf s.mem = true ∧ LatchOk s ∧ PaletteOk s

/-- Every register of the engine at its reset value, the palette's storage empty and IRQ low (R50). -/
def AtReset (s : State) : Prop :=
  (∀ r, s.reg r = 0) ∧ s.csr .ctrl = 1 ∧ (∀ n, n ≠ .ctrl → s.csr n = 0) ∧ (∀ i (h : i < 256), s.palRam[i] = 0) ∧
    (∀ c, ridxLookup s.ridx c = none) ∧ s.irq = false

/-! ## Sequences of lookups (R300) -/

/-- Look colours up one after another: the indices, and the state at the end. -/
def lookupAll (s : State) : List Color → Exec (List Nat × State)
  | [] => .ok ([], s)
  | c :: cs => do
    let r ← indexOfColor s c
    let rs ← lookupAll r.2 cs
    .ok (r.1 :: rs.1, rs.2)

/-- The different colours of a list in the order of their first occurrence, after those already seen. -/
def firstSeen (seen : List Color) : List Color → List Color
  | [] => seen
  | c :: cs => if c ∈ seen then firstSeen seen cs else firstSeen (seen ++ [c]) cs

end Sys2Proof.Machine
end

