-- ==== Sys2Proof/Certificates/Slice0/Obligations.lean ====
section
/-! DEFINITION. The statements for the provers. Each docstring names the rules of spec/ it rests on; the words the
statements use are those of Sys2Proof/Safety.lean. -/

section
open Sys2Proof Sys2Proof.Machine

/-! ## Command words -/

/-- R91, R93, R94: encoding a well-formed command and decoding the word gives the command back. -/
def Obligations.DecodeOfEncode : Prop := ∀ i : Instr, i.wellFormed = true → decode (encode i) = .ok i

/-- R91, R95: a word that decodes to a command is that command's own encoding, so no bit of a legal word is
ignored. -/
def Obligations.EncodeOfDecode : Prop :=
  ∀ (w : Word) (i : Instr), decode w = .ok i → i.wellFormed = true ∧ encode i = w

/-- R95, R96: the words that decode are exactly those that meet a row of the opcode table, its must-be-zero bits and
its selector codes. -/
def Obligations.LegalWordsAreCommands : Prop := ∀ w : Word, (∃ i, decode w = .ok i) ↔ LegalWord w

/-- Words that spec/ writes out, one or more of each family, decode to the commands they stand for. -/
def Obligations.SpecWordsDecode : Prop :=
  decode 0x00000000 = .ok .nop ∧ decode 0x12340101 = .ok (.ldi 1 0x1234) ∧
    decode 0x80000202 = .ok (.ldih 2 0x8000) ∧ decode 0x01107005 = .ok (.csrw 7 .tint) ∧
    decode 0x40501308 = .ok (.ldraw 3 1 .rgb565 .le) ∧ decode 0x00232111 = .ok (.cset 1 2 3 .r) ∧
    decode 0x00502321 = .ok (.fromargb 3 2 .rgb565) ∧ decode 0x42521034 = .ok (.blendrawm 1 2 .rgb565 .srcover .le) ∧
    decode 0x0A065431 = .ok (.blendv 4 5 6 .dstover) ∧ decode 0x20DA9B40 = .ok (.sbload 11 9 10 .idx1 .lsb) ∧
    decode 0x00221051 = .ok (.palrw 1 2 .full) ∧ decode 0x00001052 = .ok (.paldyn 1)

/-! ## The step -/

/-- R90, R367(c): when the host's next move writes the word of a command to `CMD` and no fault is latched, the step
executes that command, on the state whose pending moves are the rest. That the moves of a run stand in the state is the
model's own form (log entry 3). -/
def Obligations.StepRunsDecodedCommand : Prop :=
  ∀ (s : State) (w : Word) (i : Instr) (rest : List HostMove),
    s.moves = .portWrite 0x400 w :: rest → s.statusFaulted = false → decode w = .ok i →
      step s = exec i (s.setMoves rest)

/-- R321: a word written to `CMD` raises IllegalCommand exactly if it is not a legal word; the fault records the word
and the information 0. -/
def Obligations.IllegalWordFaults : Prop :=
  ∀ (s : State) (w : Word), s.statusFaulted = false → LatchOk s →
    ∃ t, portWrite 0x400 w s = .next t ∧ (t.csr .faultCause = 1 ↔ ¬ LegalWord w) ∧
      (¬ LegalWord w → TakesFault 1 0 w s t)

/-- R326: while a fault is latched a word written to `CMD` changes nothing at all, and writes of registers and
CSRs through the host port, and reads, work as usual. -/
def Obligations.FaultedEngineDropsCommands : Prop :=
  ∀ (s : State), s.statusFaulted = true →
    (∀ w, portWrite 0x400 w s = .next s) ∧
    (∀ w rest, s.moves = .portWrite 0x400 w :: rest → step s = .next (s.setMoves rest)) ∧
    (∀ (r : Reg) v, ∃ t, portWrite (4 * r.val) v s = .next t ∧ t.reg r = v) ∧
    (∀ v, ∃ t, portWrite 0x140 v s = .next t ∧ (t.csr .transp565).toNat = v.toNat % 65536) ∧
    s.portRead 0x104 = 1 ∧ s.portRead 0x10C = s.faultCmd

/-- R40, R328: a write of any value to `FAULT_CLR` clears the four fault registers and changes nothing else, and a
read of it returns 0. -/
def Obligations.FaultClear : Prop :=
  ∀ (s : State) (v : Word), s.portRead 0x404 = 0 ∧ ∃ t, portWrite 0x404 v s = .next t ∧
    (∀ n ∈ faultCsrs, t.csr n = 0) ∧ CsrsKeptBut faultCsrs s t ∧ RegsKept s t ∧ PaletteStoreKept s t ∧
    MemoryKept s t ∧ PlatformKept s t

/-- R367: the engine is never stuck: every state has a next state, and so has every command in every state. That a
state with no pending move has one, and a term that no word encodes, is the model's choice (log entries 4 and 8). -/
def Obligations.EngineIsNeverStuck : Prop :=
  (∀ s : State, ∃ t, step s = .next t) ∧ ∀ (i : Instr) (s : State), ∃ t, exec i s = .next t

/-- R324, R30: a word written to `CMD` while no fault is latched either completes, counted in CMDCNT and with the
fault registers as they were, or takes one of the four faults, which changes the fault registers alone, records the
word, and sets IRQ to IRQ_EN. -/
def Obligations.FaultsArePrecise : Prop :=
  ∀ (s t : State) (w : Word), s.statusFaulted = false → portWrite 0x400 w s = .next t →
    (Counted s t ∧ ∀ n ∈ faultCsrs, t.csr n = s.csr n) ∨
      (∃ code info, 1 ≤ code ∧ code ≤ 4 ∧ TakesFault code info w s t ∧ t.irq = s.ctrlIrqEn)

/-- R329: a command raises, besides IllegalCommand for its word, only the faults its row of the table allows. -/
def Obligations.FaultsByCommand : Prop :=
  ∀ (i : Instr) (s t : State), i.wellFormed = true → s.faultCause = .none → exec i s = .next t →
    t.faultCause = .none ∨ t.faultCause ∈ mayRaise s i

/-! ## Who writes what -/

/-- R21, R65, R94: a command changes no general register but the one its row marks as written, no byte of memory
outside the bytes the table says it writes, and neither the memory map nor the host's moves. -/
def Obligations.RegisterAndMemoryWriters : Prop :=
  ∀ (i : Instr) (s t : State), exec i s = .next t →
    (∀ r, destination i ≠ some r → t.reg r = s.reg r) ∧
    MemoryKeptOutside (storedRange s i).1 (storedRange s i).2 s t ∧ PlatformKept s t

/-- R27 to R42: besides CMDCNT and the fault registers, a CSR is changed only by a CSRW of it, or, if it belongs to
the palette, by a factory command or (PAL_SIZE and PAL_TM) by a lookup in a Dynamic palette; PALRAM is changed only by
PALDYN and by a lookup in a Dynamic palette, RIDX only by those and by PALRO and PALRW. -/
def Obligations.CsrAndPaletteWriters : Prop :=
  ∀ (i : Instr) (s t : State), exec i s = .next t →
    (∀ n, t.csr n ≠ s.csr n →
      n = .cmdcnt ∨ n ∈ faultCsrs ∨ (n.writable = true ∧ ∃ r, i = .csrw r n) ∨
        (n ∈ paletteCsrs ∧ isFactory i = true) ∨
        ((n = .palSize ∨ n = .palTm) ∧ looksUp i = true ∧ s.palKind = .dynamic)) ∧
    (t.palRam ≠ s.palRam → (∃ r, i = .paldyn r) ∨ (looksUp i = true ∧ s.palKind = .dynamic)) ∧
    (t.ridx ≠ s.ridx → isFactory i = true ∨ (looksUp i = true ∧ s.palKind = .dynamic))

/-! ## Reset and the invariants -/

/-- R50, R350: the reset state has every register of the engine at its reset value, and so has the state that the
reset input leaves, in any state; the memory is not changed by it. -/
def Obligations.ResetValues : Prop :=
  AtReset State.reset ∧
    ∀ s : State, ∃ u, hostMove .reset s = .next u ∧ AtReset u ∧ MemoryKept s u

/-- R352: what the colour modes do right after a reset, with any value put into one register. -/
def Obligations.ModesAfterReset : Prop :=
  ∀ (s : State) (v : Word) (rd rs1 : Reg) (u : State), u = s.resetEngine.setReg rs1 v →
    (v.toNat % 65536 = 0 → ∃ t, exec (.toargb rd rs1 .rgb565t) u = .next t ∧ t.reg rd = 0) ∧
    (alphaOf v = 255 → rgb565Of v = 0 → ∃ t, exec (.fromargb rd rs1 .rgb565t) u = .next t ∧ t.reg rd = 0x20) ∧
    (∃ t, exec (.toargb rd rs1 .alpha8) u = .next t ∧ (t.reg rd).toNat = v.toNat % 256 * 2 ^ 24) ∧
    (∃ t, exec (.toargb rd rs1 .alpha4) u = .next t ∧ (t.reg rd).toNat = v.toNat % 16 * 17 * 2 ^ 24) ∧
    (∃ t, exec (.toargb rd rs1 .mono) u = .next t ∧ t.reg rd = 0) ∧
    (∃ t, exec (.fromargb rd rs1 .mono) u = .next t ∧ t.reg rd = if alphaOf v = 0 then 0 else 1) ∧
    (∃ t, exec (.transp rd .mono) u = .next t ∧ t.reg rd = 1) ∧
    (∀ cm : ColorMode, cm.indexed = true →
      (RangeOk u .read (4 * (v.toNat % 2 ^ bitsPerPixel cm)) 4 →
        ∃ t, exec (.toargb rd rs1 cm) u = .next t ∧ WordAt u.mem (4 * (v.toNat % 2 ^ bitsPerPixel cm)) (t.reg rd)) ∧
      (∀ b, LowestBad u .read (4 * (v.toNat % 2 ^ bitsPerPixel cm)) 4 b →
        Raises 3 (addressInfo b) (.toargb rd rs1 cm) u) ∧
      Raises 4 v (.fromargb rd rs1 cm) u ∧
      ∃ t, exec (.transp rd cm) u = .next t ∧ t.reg rd = 0) ∧
    Raises 4 v (.palidx rd rs1) u

/-- R43, R50: the reset state meets the invariant of the machine; the canonical form of the memory is the model's own
(log entry 2). -/
def Obligations.InvariantAtReset : Prop := Inv State.reset

/-- R26 to R29, R43, R60: every step keeps the invariant: the memory's canonical form, the consistency of the fault
latch, and the palette invariants. The canonical form is the model's own (log entry 2). -/
def Obligations.InvariantKept : Prop := ∀ s t : State, Inv s → step s = .next t → Inv t

/-- R43: the palette invariants hold at reset and every command keeps them; while no factory command runs, an index
assigned to a colour of a Dynamic palette, and the entry it names, never change. -/
def Obligations.PaletteInvariants : Prop :=
  PaletteOk State.reset ∧
    ∀ (i : Instr) (s t : State), PaletteOk s → exec i s = .next t →
      PaletteOk t ∧ (s.palKind = .dynamic → isFactory i = false → ∀ c k, ridxLookup s.ridx c = some k →
        ridxLookup t.ridx c = some k ∧ t.palRam[k.val] = s.palRam[k.val])

/-! ## Moves (spec/40_register_ops.md) -/

/-- R120 to R123: NOP changes nothing; LDI writes the zero-extended immediate; LDIH writes the upper half and keeps
the lower; MOV copies a register. -/
def Obligations.MoveCommands : Prop :=
  ∀ (s : State) (rd rs1 : Reg) (imm : BitVec 16),
    (∃ t, exec .nop s = .next t ∧ ChangesNothing s t) ∧
    (∃ t, exec (.ldi rd imm) s = .next t ∧ (t.reg rd).toNat = imm.toNat ∧ ChangesOnlyReg rd s t) ∧
    (∃ t, exec (.ldih rd imm) s = .next t ∧
      (t.reg rd).toNat = imm.toNat * 65536 + (s.reg rd).toNat % 65536 ∧ ChangesOnlyReg rd s t) ∧
    ∃ t, exec (.mov rd rs1) s = .next t ∧ t.reg rd = s.reg rs1 ∧ ChangesOnlyReg rd s t

/-- R24 to R39, R124: CSRR copies a CSR, as it was before this command was counted, into a register, the reserved bits
as 0; while no fault is latched it reads the fault registers as 0. -/
def Obligations.CsrrCommand : Prop :=
  ∀ (s : State) (rd : Reg) (n : Csr), ∃ t, exec (.csrr rd n) s = .next t ∧ t.reg rd = s.csr n ∧
    ChangesOnlyReg rd s t ∧ (LatchOk s → s.statusFaulted = false → n ∈ faultCsrs → t.reg rd = 0) ∧
    (t.reg rd).toNat <
      (match n with
        | .ctrl => 4 | .status => 2 | .faultCause => 5 | .transp565 => 65536
        | .palKind => 3 | .palSize => 257 | .palCap => 257 | .palTm => 3
        | .faultCmd | .faultInfo | .cmdcnt | .tint | .monoFg | .monoBg | .palBase => 2 ^ 32)

/-- R125: CSRW writes a register of class RW, CTRL its two low bits, TRANSP565 its sixteen low bits, the colours all
32. For a register of class RO the term, which no word encodes, raises IllegalCommand: the model's choice, log entry
8. -/
def Obligations.CsrwCommand : Prop :=
  ∀ (s : State) (rs1 : Reg) (n : Csr),
    (n.writable = true → ∃ t, exec (.csrw rs1 n) s = .next t ∧ ChangesOnlyCsr n s t ∧
      (t.csr n).toNat = (s.reg rs1).toNat %
        (match n with | .ctrl => 2 ^ 2 | .transp565 => 2 ^ 16 | _ => 2 ^ 32)) ∧
    (n.writable = false → Raises 1 0 (.csrw rs1 n) s)

/-- R126, R128: LDC and LDRAW complete when their bytes can be read, and load a colour or a raw pixel, the bytes in
the order that the rule gives. -/
def Obligations.LoadCommands : Prop :=
  ∀ (s : State) (rd rs1 : Reg),
    (RangeOk s .read (s.reg rs1).toNat 4 → ∃ t, exec (.ldc rd rs1) s = .next t ∧
      WordAt s.mem (s.reg rs1).toNat (t.reg rd) ∧ ChangesOnlyReg rd s t) ∧
    ∀ (cm : ColorMode) (bo : ByteOrder), cm.fullByte = true →
      RangeOk s .read (s.reg rs1).toNat (bitsPerPixel cm / 8) →
        ∃ t, exec (.ldraw rd rs1 cm bo) s = .next t ∧
          PixelAt s.mem (s.reg rs1).toNat (bitsPerPixel cm / 8) bo (t.reg rd).toNat ∧
          (t.reg rd).toNat < 2 ^ bitsPerPixel cm ∧ ChangesOnlyReg rd s t

/-- R127, R129: STC and STRAW complete when their bytes can be written, and store a colour or the low bits of a raw
value at exactly those bytes. -/
def Obligations.StoreCommands : Prop :=
  ∀ (s : State) (rs1 rs2 : Reg), Memory.wf s.mem = true →
    (RangeOk s .write (s.reg rs1).toNat 4 → ∃ t, exec (.stc rs1 rs2) s = .next t ∧
      WordAt t.mem (s.reg rs1).toNat (s.reg rs2) ∧ ChangesOnlyMemory (s.reg rs1).toNat 4 s t) ∧
    ∀ (cm : ColorMode) (bo : ByteOrder), cm.fullByte = true →
      RangeOk s .write (s.reg rs1).toNat (bitsPerPixel cm / 8) →
        ∃ t, exec (.straw rs1 rs2 cm bo) s = .next t ∧
          PixelAt t.mem (s.reg rs1).toNat (bitsPerPixel cm / 8) bo (s.reg rs2).toNat ∧
          ChangesOnlyMemory (s.reg rs1).toNat (bitsPerPixel cm / 8) s t

/-! ## Colours (spec/00_scope.md R7, spec/41_color.md) -/

/-- R7: the four channels of a colour are its four bytes, alpha the highest, and a colour is rebuilt from them. -/
def Obligations.ColorChannels : Prop :=
  (∀ c : Color, alphaOf c = c.toNat / 2 ^ 24 ∧ redOf c = c.toNat / 2 ^ 16 % 2 ^ 8 ∧
    greenOf c = c.toNat / 2 ^ 8 % 2 ^ 8 ∧ blueOf c = c.toNat % 2 ^ 8 ∧
    argb (alphaOf c) (redOf c) (greenOf c) (blueOf c) = c) ∧
  ∀ a r g b : Nat, HasChannels (argb a r g b) (a % 256) (r % 256) (g % 256) (b % 256)

/-- R141 to R144: CGET reads one channel; CSET copies a colour with one channel replaced by the low byte of a register;
COPQ forces alpha to 0xFF and keeps the rest; CISOPQ answers 1 exactly for alpha 0xFF. -/
def Obligations.ColourCommands : Prop :=
  ∀ (s : State) (rd rs1 rs2 : Reg) (ch : Channel),
    (∃ t, exec (.cget rd rs1 ch) s = .next t ∧
      (t.reg rd).toNat = (s.reg rs1).toNat / 256 ^ ch.code % 256 ∧ ChangesOnlyReg rd s t) ∧
    (∃ t, exec (.cset rd rs1 rs2 ch) s = .next t ∧ ChangesOnlyReg rd s t ∧
      ∀ k, k < 4 → (t.reg rd).toNat / 256 ^ k % 256 =
        if k = ch.code then (s.reg rs2).toNat % 256 else (s.reg rs1).toNat / 256 ^ k % 256) ∧
    (∃ t, exec (.copq rd rs1) s = .next t ∧
      (t.reg rd).toNat = 255 * 2 ^ 24 + (s.reg rs1).toNat % 2 ^ 24 ∧ ChangesOnlyReg rd s t) ∧
    ∃ t, exec (.cisopq rd rs1) s = .next t ∧
      t.reg rd = (if (s.reg rs1).toNat / 2 ^ 24 = 255 then 1 else 0) ∧ ChangesOnlyReg rd s t

/-- R145: CGET of the result of CSET reads the byte that was set on its own channel, and what the colour had on each
other channel. -/
def Obligations.ChannelReadBack : Prop :=
  ∀ (s t : State) (x rs1 rs2 : Reg) (ch : Channel), exec (.cset x rs1 rs2 ch) s = .next t →
    (∃ u, exec (.cget x x ch) t = .next u ∧ (u.reg x).toNat = (s.reg rs2).toNat % 256) ∧
    ∀ ch' : Channel, ch' ≠ ch → ∃ u v, exec (.cget x x ch') t = .next u ∧ exec (.cget x rs1 ch') s = .next v ∧
      u.reg x = v.reg x

/-! ## Codecs (spec/42_colormode.md) -/

/-- R164, R170 to R197, R200: TOARGB completes when the palette entry it may need can be read, and decodes the raw
value by the rule of its mode. -/
def Obligations.ToargbCommand : Prop :=
  ∀ (s : State) (rd rs1 : Reg) (cm : ColorMode), EntryReadable s cm (s.reg rs1).toNat →
    ∃ t, exec (.toargb rd rs1 cm) s = .next t ∧ DecodesTo s cm (s.reg rs1).toNat (t.reg rd) ∧ ChangesOnlyReg rd s t

/-- R165, R171 to R198, R201: FROMARGB completes when its reverse lookup is allowed, and encodes the colour by the
rule of its mode; an Indexed mode may insert the colour into a Dynamic palette. -/
def Obligations.FromargbCommand : Prop :=
  ∀ (s : State) (rd rs1 : Reg) (cm : ColorMode), LookupAllowed s cm →
    ∃ t inserts, exec (.fromargb rd rs1 cm) s = .next t ∧
      EncodesTo s cm (s.reg rs1) (t.reg rd).toNat inserts ∧ PaletteAfter inserts (s.reg rs1) s t ∧
      (t.reg rd).toNat < (if cm.indexed then 256 else 2 ^ bitsPerPixel cm) ∧ ChangesRegAndPalette rd s t

/-- R293, R299: PALIDX answers the index of a colour, by the palette's kind, with the insertion that a Dynamic palette
with room makes on a miss. -/
def Obligations.PalidxCommand : Prop :=
  ∀ (s : State) (rd rs1 : Reg), ¬ (s.palKind = .readOnly ∧ s.ctrlAssertEn = true) →
    ∃ t inserts, exec (.palidx rd rs1) s = .next t ∧ LooksUpTo s (s.reg rs1) (t.reg rd).toNat inserts ∧
      PaletteAfter inserts (s.reg rs1) s t ∧ ChangesRegAndPalette rd s t

/-- R162, R166, R196, R202, R203: TRANSP answers the transparency class of the mode, BPP its pixel width. -/
def Obligations.ModeQueryCommands : Prop :=
  ∀ (s : State) (rd : Reg) (cm : ColorMode),
    (∃ t, exec (.transp rd cm) s = .next t ∧ ChangesOnlyReg rd s t ∧
      (t.reg rd).toNat =
        match cm with
        | .argb8888 | .rgba8888 | .argb6666 | .argb4444 | .grayalpha8 | .alpha8 | .alpha4 => 2
        | .rgb888 | .rgb565 | .gray8 | .gray4 => 0
        | .rgb565t => 1
        | .mono => max (colorClass (s.csr .monoFg)) (colorClass (s.csr .monoBg))
        | .idx1 | .idx2 | .idx4 | .idx8 => (s.csr .palTm).toNat) ∧
    ∃ t, exec (.bpp rd cm) s = .next t ∧ ChangesOnlyReg rd s t ∧
      some (t.reg rd).toNat = [32, 32, 24, 24, 16, 16, 16, 8, 16, 4, 8, 4, 1, 1, 2, 4, 8][cm.code]?

/-- R161: the class that TRANSP reports is never too small: no raw value of a direct mode, and no entry in use of a
Dynamic palette, decodes to a colour of a larger class. -/
def Obligations.TransparencyIsSafe : Prop :=
  ∀ (s t : State) (rd : Reg) (cm : ColorMode) (raw : Nat) (c : Color), PaletteOk s →
    (cm.indexed = true → s.palKind = .dynamic ∧ raw % 2 ^ bitsPerPixel cm < s.palSize.val) →
    exec (.transp rd cm) s = .next t → DecodesTo s cm raw c → colorClass c ≤ (t.reg rd).toNat

/-- R204: the properties of the truncation helpers: stable after one expansion, monotone, the plain shift or one
less, and within 16, 8 and 4 of the value after expansion. -/
def Obligations.TruncationProperties : Prop :=
  ∀ c d, c ≤ d → d < 256 →
    (truncTo 4 (expand4 (truncTo 4 c)) = truncTo 4 c ∧ truncTo 5 (expand5 (truncTo 5 c)) = truncTo 5 c ∧
      truncTo 6 (expand6 (truncTo 6 c)) = truncTo 6 c) ∧
    (truncTo 4 c ≤ truncTo 4 d ∧ truncTo 5 c ≤ truncTo 5 d ∧ truncTo 6 c ≤ truncTo 6 d) ∧
    ((truncTo 4 c = c / 16 ∨ truncTo 4 c + 1 = c / 16) ∧ (truncTo 5 c = c / 8 ∨ truncTo 5 c + 1 = c / 8) ∧
      (truncTo 6 c = c / 4 ∨ truncTo 6 c + 1 = c / 4)) ∧
    (expand4 (truncTo 4 c) ≤ c + 16 ∧ c ≤ expand4 (truncTo 4 c) + 16) ∧
    (expand5 (truncTo 5 c) ≤ c + 8 ∧ c ≤ expand5 (truncTo 5 c) + 8) ∧
    (expand6 (truncTo 6 c) ≤ c + 4 ∧ c ≤ expand6 (truncTo 6 c) + 4)

/-- R199: TOARGB and then FROMARGB gives every raw value of a direct mode back, of Monochrome too unless R195's
configurations hold, and of an Indexed mode for the entries in use of a Dynamic palette. -/
def Obligations.RoundTrip : Prop :=
  ∀ (s : State) (rd x rs1 : Reg) (cm : ColorMode), PaletteOk s →
    (cm = .mono → s.monoFg ≠ s.monoBg ∧ alphaOf s.monoFg ≠ 0) →
    (cm.indexed = true → s.palKind = .dynamic ∧ (s.reg rs1).toNat % 2 ^ bitsPerPixel cm < s.palSize.val) →
    ∃ t u, exec (.toargb x rs1 cm) s = .next t ∧ exec (.fromargb rd x cm) t = .next u ∧
      (u.reg rd).toNat = (s.reg rs1).toNat % 2 ^ bitsPerPixel cm

/-! ## Blending (spec/43_blending.md) -/

/-- R220, R221: the division by 255 rounds to the nearest integer and is exact on multiples; the variant without the
rounding is the floor, but one less on the non-zero multiples. -/
def Obligations.Division : Prop :=
  (∀ x, x ≤ 65025 → NearestOver255 x (div255r x) ∧
    div255 x = (if x ≠ 0 ∧ x % 255 = 0 then x / 255 - 1 else x / 255)) ∧
  ∀ k, k ≤ 255 → div255r (255 * k) = k

/-- R245: BLEND writes the blend of its two operands. -/
def Obligations.BlendCommand : Prop :=
  ∀ (s : State) (rd rs1 rs2 : Reg) (bm : BlendMode), ∃ t, exec (.blend rd rs1 rs2 bm) s = .next t ∧
    t.reg rd = blend bm (s.reg rs1) (s.reg rs2) ∧ ChangesOnlyReg rd s t

/-- R236: the alpha of the result of each blending mode. -/
def Obligations.BlendAlpha : Prop :=
  ∀ (bm : BlendMode) (d s : Color), alphaOf (blend bm d s) =
    match bm with
    | .src => alphaOf s
    | .srcover => alphaOf s + alphaOf d - div255r (alphaOf s * alphaOf d)
    | .srcin => div255r (alphaOf s * alphaOf d)
    | .srcatop => alphaOf d
    | .srcout => div255r (alphaOf s * (255 - alphaOf d))
    | .dst => alphaOf d
    | .dstover => alphaOf d + alphaOf s - div255r (alphaOf d * alphaOf s)
    | .dstin => div255r (alphaOf d * alphaOf s)
    | .dstatop => alphaOf s
    | .dstout => div255r (alphaOf d * (255 - alphaOf s))
    | .xor => div255r (alphaOf s * (255 - alphaOf d) + alphaOf d * (255 - alphaOf s))
    | .clear => 0
    | .srcoveropq | .dstoveropq => 255

/-- R225, R227, R228, R233, R240, R241: the colours of the blending modes that keep or mix by 255: each mixed channel
is the weighted sum divided by 255 and rounded to nearest. -/
def Obligations.BlendColours : Prop :=
  ∀ d s : Color, blend .src d s = s ∧
    blend .clear d s = (if d = 0 ∧ s = 0 then 0 else 0x00FFFFFF) ∧
    ∀ f ∈ [redOf, greenOf, blueOf],
      f (blend .srcin d s) = f s ∧ f (blend .srcout d s) = f s ∧
      NearestOver255 (alphaOf s * f s + (255 - alphaOf s) * f d) (f (blend .srcatop d s)) ∧
      NearestOver255 (alphaOf s * f s + (255 - alphaOf s) * f d) (f (blend .srcoveropq d s))

/-- R226, R235: kSourceOver's four fast paths in their order and its general mix, and kXor's mix: each channel is the
weighted sum divided by the sum of the weights, rounded to nearest. -/
def Obligations.BlendOverXor : Prop :=
  ∀ d s : Color,
    (alphaOf s = 255 → blend .srcover d s = s) ∧
    (alphaOf s ≠ 255 → alphaOf d = 255 → blend .srcover d s = blend .srcoveropq d s) ∧
    (alphaOf s = 0 → alphaOf d ≠ 255 → blend .srcover d s = d) ∧
    (0 < alphaOf s → alphaOf s < 255 → alphaOf d = 0 → blend .srcover d s = s) ∧
    (0 < alphaOf s → alphaOf s < 255 → 0 < alphaOf d → alphaOf d < 255 → ∀ f ∈ [redOf, greenOf, blueOf],
      f (blend .srcover d s) =
        (255 * alphaOf s * f s + alphaOf d * (255 - alphaOf s) * f d
          + (255 * alphaOf s + alphaOf d * (255 - alphaOf s)) / 2) /
        (255 * alphaOf s + alphaOf d * (255 - alphaOf s))) ∧
    (alphaOf s * (255 - alphaOf d) + alphaOf d * (255 - alphaOf s) = 0 → blend .xor d s = 0) ∧
    (alphaOf s * (255 - alphaOf d) + alphaOf d * (255 - alphaOf s) ≠ 0 → ∀ f ∈ [redOf, greenOf, blueOf],
      f (blend .xor d s) =
        (alphaOf s * (255 - alphaOf d) * f s + alphaOf d * (255 - alphaOf s) * f d
          + (alphaOf s * (255 - alphaOf d) + alphaOf d * (255 - alphaOf s)) / 2) /
        (alphaOf s * (255 - alphaOf d) + alphaOf d * (255 - alphaOf s)))

/-- R243: the Destination modes are the Source modes with the operands swapped, and kXor and kClear are symmetric. -/
def Obligations.BlendSwap : Prop :=
  ∀ d s : Color, blend .dst d s = blend .src s d ∧ blend .dstover d s = blend .srcover s d ∧
    blend .dstin d s = blend .srcin s d ∧ blend .dstatop d s = blend .srcatop s d ∧
    blend .dstout d s = blend .srcout s d ∧ blend .dstoveropq d s = blend .srcoveropq s d ∧
    blend .xor d s = blend .xor s d ∧ blend .clear d s = blend .clear s d

/-- R244: where the operand is opaque, the two Opaque variants give what the plain modes give. -/
def Obligations.BlendSubstitution : Prop :=
  (∀ d s : Color, alphaOf d = 255 → blend .srcoveropq d s = blend .srcover d s) ∧
    ∀ d s : Color, alphaOf s = 255 → blend .dstoveropq d s = blend .dstover d s

/-- R67, R246: BLENDV completes when both its ranges are good (for a count of 0 always); the memory goes through one
change for each element in increasing order, each from the words that stand there at that moment, so overlapping arrays
follow that order. -/
def Obligations.BlendvCommand : Prop :=
  ∀ (s : State) (rn rs1 rs2 : Reg) (bm : BlendMode) (n pd ps : Nat),
    n = (s.reg rn).toNat → pd = (s.reg rs1).toNat → ps = (s.reg rs2).toNat → Memory.wf s.mem = true →
    RangeOk s .write pd (4 * n) → RangeOk s .read ps (4 * n) →
    ∃ (t : State) (m : Nat → List Host.Cell), exec (.blendv rn rs1 rs2 bm) s = .next t ∧
      m 0 = s.mem ∧ t.mem = m n ∧ ChangesOnlyMemory pd (4 * n) s t ∧
      ∀ i, i < n → ∃ d c, WordAt (m i) (pd + 4 * i) d ∧ WordAt (m i) (ps + 4 * i) c ∧
        WordAt (m (i + 1)) (pd + 4 * i) (blend bm d c) ∧
        ∀ x, x < pd + 4 * i ∨ pd + 4 * i + 4 ≤ x → Memory.read (m (i + 1)) x = Memory.read (m i) x

/-- R246: where the arrays of BLENDV do not overlap each destination word becomes the blend of the old destination
word and the source word; where they are the same array, the blend of the word with itself. -/
def Obligations.BlendvDisjoint : Prop :=
  ∀ (s t : State) (rn rs1 rs2 : Reg) (bm : BlendMode) (n pd ps i : Nat) (d c : Color),
    n = (s.reg rn).toNat → pd = (s.reg rs1).toNat → ps = (s.reg rs2).toNat → Memory.wf s.mem = true →
    RangeOk s .write pd (4 * n) → RangeOk s .read ps (4 * n) → pd + 4 * n ≤ ps ∨ ps + 4 * n ≤ pd ∨ ps = pd →
    exec (.blendv rn rs1 rs2 bm) s = .next t → i < n →
    WordAt s.mem (pd + 4 * i) d → WordAt s.mem (ps + 4 * i) c → WordAt t.mem (pd + 4 * i) (blend bm d c)

/-- R247: BLENDVS completes when its range is good, and blends one source colour into every word of it. -/
def Obligations.BlendvsCommand : Prop :=
  ∀ (s : State) (rn rs1 rs2 : Reg) (bm : BlendMode) (n pd : Nat),
    n = (s.reg rn).toNat → pd = (s.reg rs1).toNat → Memory.wf s.mem = true → RangeOk s .write pd (4 * n) →
    ∃ t, exec (.blendvs rn rs1 rs2 bm) s = .next t ∧ ChangesOnlyMemory pd (4 * n) s t ∧
      ∀ i, i < n → ∀ d, WordAt s.mem (pd + 4 * i) d → WordAt t.mem (pd + 4 * i) (blend bm d (s.reg rs2))

/-- R248, R250: BLENDRAW completes when the palette entry and the lookup it may need are allowed: it decodes the raw
value, blends the source colour into it and encodes the result, with the palette's insertion. -/
def Obligations.BlendrawCommand : Prop :=
  ∀ (s : State) (rd rs1 rs2 : Reg) (cm : ColorMode) (bm : BlendMode),
    EntryReadable s cm (s.reg rs1).toNat → LookupAllowed s cm →
    ∃ t d inserts, exec (.blendraw rd rs1 rs2 cm bm) s = .next t ∧ DecodesTo s cm (s.reg rs1).toNat d ∧
      EncodesTo s cm (blend bm d (s.reg rs2)) (t.reg rd).toNat inserts ∧
      PaletteAfter inserts (blend bm d (s.reg rs2)) s t ∧ ChangesRegAndPalette rd s t

/-- R249, R250: BLENDRAWM does the same to a raw pixel in memory, whose bytes must be writable. -/
def Obligations.BlendrawmCommand : Prop :=
  ∀ (s : State) (rs1 rs2 : Reg) (cm : ColorMode) (bm : BlendMode) (bo : ByteOrder) (raw a n : Nat),
    a = (s.reg rs1).toNat → n = bitsPerPixel cm / 8 → cm.fullByte = true → Memory.wf s.mem = true →
    RangeOk s .write a n → PixelAt s.mem a n bo raw → EntryReadable s cm raw → LookupAllowed s cm →
    ∃ t d r inserts, exec (.blendrawm rs1 rs2 cm bm bo) s = .next t ∧ DecodesTo s cm raw d ∧
      EncodesTo s cm (blend bm d (s.reg rs2)) r inserts ∧ PixelAt t.mem a n bo r ∧
      PaletteAfter inserts (blend bm d (s.reg rs2)) s t ∧ ChangesMemoryAndPalette a n s t

/-! ## Sub-byte pixels (spec/44_subbyte.md) -/

/-- R274, R275, R276: SBLOAD and SBSTORE complete when the index is below the number of slots, SBEXPAND always; they
extract the pixel of a slot, merge one into it, and copy one into every slot. -/
def Obligations.SubByteRegisterCommands : Prop :=
  ∀ (s : State) (rd rs1 rs2 : Reg) (cm : ColorMode) (po : PixelOrder) (k : Nat),
    cm.fullByte = false → k = bitsPerPixel cm →
    ((s.reg rs2).toNat < 8 / k →
      (∃ t, exec (.sbload rd rs1 rs2 cm po) s = .next t ∧
        (t.reg rd).toNat = pixelOf k po ((s.reg rs1).toNat % 256) (s.reg rs2).toNat ∧ ChangesOnlyReg rd s t) ∧
      ∃ t, exec (.sbstore rd rs1 rs2 cm po) s = .next t ∧
        MergesPixel k po ((s.reg rd).toNat % 256) (s.reg rs1).toNat (s.reg rs2).toNat (t.reg rd).toNat ∧
        ChangesOnlyReg rd s t) ∧
    ∃ t, exec (.sbexpand rd rs1 cm) s = .next t ∧
      (t.reg rd).toNat = (s.reg rs1).toNat % 2 ^ k * (255 / (2 ^ k - 1)) ∧ ChangesOnlyReg rd s t

/-- R278, R279: SBLOADM and SBSTOREM do the same to one byte of memory, which must be readable, or writable. -/
def Obligations.SubByteMemoryCommands : Prop :=
  ∀ (s : State) (rd rs1 rs2 : Reg) (cm : ColorMode) (po : PixelOrder) (k a : Nat),
    cm.fullByte = false → k = bitsPerPixel cm → a = (s.reg rs1).toNat → (s.reg rs2).toNat < 8 / k →
    (RangeOk s .read a 1 → ∃ t, exec (.sbloadm rd rs1 rs2 cm po) s = .next t ∧
      (t.reg rd).toNat = pixelOf k po (Memory.read s.mem a).toNat (s.reg rs2).toNat ∧ ChangesOnlyReg rd s t) ∧
    (RangeOk s .write a 1 → Memory.wf s.mem = true → ∃ t, exec (.sbstorem rd rs1 rs2 cm po) s = .next t ∧
      MergesPixel k po (Memory.read s.mem a).toNat (s.reg rd).toNat (s.reg rs2).toNat (Memory.read t.mem a).toNat ∧
      ChangesOnlyMemory a 1 s t)

/-- R277, R281, R67: SBBULK completes when its output range is writable and every palette entry it needs is readable;
the words it writes are the colours of the slots in index order, all decoded before the first is written. -/
def Obligations.SbbulkCommand : Prop :=
  ∀ (s : State) (rs1 rs2 : Reg) (cm : ColorMode) (po : PixelOrder) (k out : Nat),
    cm.fullByte = false → k = bitsPerPixel cm → out = (s.reg rs2).toNat → Memory.wf s.mem = true →
    RangeOk s .write out (4 * (8 / k)) →
    (∀ i, i < 8 / k → EntryReadable s cm (pixelOf k po ((s.reg rs1).toNat % 256) i)) →
    ∃ t, exec (.sbbulk rs1 rs2 cm po) s = .next t ∧ ChangesOnlyMemory out (4 * (8 / k)) s t ∧
      ∀ i, i < 8 / k → ∃ c, DecodesTo s cm (pixelOf k po ((s.reg rs1).toNat % 256) i) c ∧
        WordAt t.mem (out + 4 * i) c

/-- R282: the consistency of the four sub-byte functions. -/
def Obligations.SubByteConsistency : Prop :=
  ∀ (s : State) (cm : ColorMode) (po : PixelOrder) (k b v i j : Nat), cm.fullByte = false → k = bitsPerPixel cm →
    b < 256 → v < 2 ^ k → i < 8 / k → j < 8 / k → i ≠ j →
    (∀ cs, loadBulk s cm po b = .ok cs → cs.length = 8 / k ∧
      ∃ c, cs[i]? = some c ∧ toArgb s cm (loadRaw k po b i) = .ok c) ∧
    loadRaw k po (storeRaw k po b v i) i = v ∧
    loadRaw k po (storeRaw k po b v i) j = loadRaw k po b j ∧
    loadRaw k po (expandRaw k v) i = v ∧
    loadRaw k .msb b i = loadRaw k .lsb b (8 / k - 1 - i)

/-! ## The palette (spec/45_palette.md) -/

/-- R295, R296, R298: PALRO completes when the size is at most 256 and, for `auto`, the array is readable: a ReadOnly
palette over the array, no reverse index, PALRAM untouched. PALDYN completes when the capacity is at most 256: an empty
Dynamic palette, its storage cleared. -/
def Obligations.PalroPaldynCommands : Prop :=
  ∀ (s : State) (rs1 rs2 : Reg) (tm : TmArg), (s.reg rs2).toNat ≤ 256 →
    ((tm = .auto → RangeOk s .read (s.reg rs1).toNat (4 * (s.reg rs2).toNat)) →
      ∃ t, exec (.palro rs1 rs2 tm) s = .next t ∧ ChangesOnlyPalette s t ∧ t.palRam = s.palRam ∧
        (∀ c, ridxLookup t.ridx c = none) ∧ t.csr .palKind = 0 ∧ t.csr .palBase = s.reg rs1 ∧
        t.csr .palSize = s.reg rs2 ∧ t.csr .palCap = s.reg rs2 ∧
        (if tm = .auto then TightestClass s.mem (s.reg rs1).toNat (s.reg rs2).toNat (t.csr .palTm).toNat
          else (t.csr .palTm).toNat = tm.code)) ∧
    ∃ t, exec (.paldyn rs2) s = .next t ∧ ChangesOnlyPalette s t ∧ (∀ i (h : i < 256), t.palRam[i] = 0) ∧
      (∀ c, ridxLookup t.ridx c = none) ∧ t.csr .palKind = 2 ∧ t.csr .palBase = 0 ∧ t.csr .palSize = 0 ∧
      t.csr .palCap = s.reg rs2 ∧ t.csr .palTm = 0

/-- R295, R297: PALRW completes when the size is at most 256 and the array is readable: a ReadWrite palette over the
array, whose reverse index sends each colour of the array to its lowest index. -/
def Obligations.PalrwCommand : Prop :=
  ∀ (s : State) (rs1 rs2 : Reg) (tm : TmArg) (base n : Nat), base = (s.reg rs1).toNat → n = (s.reg rs2).toNat →
    n ≤ 256 → RangeOk s .read base (4 * n) →
    ∃ t, exec (.palrw rs1 rs2 tm) s = .next t ∧ ChangesOnlyPalette s t ∧ t.palRam = s.palRam ∧
      (∀ c (k : Fin 256), ridxLookup t.ridx c = some k ↔ k.val < n ∧ WordAt s.mem (base + 4 * k.val) c ∧
        ∀ j, j < k.val → ¬ WordAt s.mem (base + 4 * j) c) ∧
      t.csr .palKind = 1 ∧ t.csr .palBase = s.reg rs1 ∧ t.csr .palSize = s.reg rs2 ∧ t.csr .palCap = s.reg rs2 ∧
      (if tm = .auto then TightestClass s.mem base n (t.csr .palTm).toNat else (t.csr .palTm).toNat = tm.code)

/-- R300: after PALDYN with capacity N the colours looked up receive the indices 0 to N-1 in the order of their first
lookup, and keep them; every later new colour answers 0 and changes nothing; a colour that has an index is read back
from it. -/
def Obligations.PaletteCapacity : Prop :=
  ∀ (s₀ s : State) (r : Reg) (N : Nat), N = (s₀.reg r).toNat → N ≤ 256 → exec (.paldyn r) s₀ = .next s →
    ∀ cs : List Color, ∃ t, lookupAll s cs =
        .ok (cs.map fun c => if (firstSeen [] cs).idxOf c < N then (firstSeen [] cs).idxOf c else 0, t) ∧
      t.palSize.val = min N (firstSeen [] cs).length ∧
      (∀ c ∈ cs, (firstSeen [] cs).idxOf c < N → palColor t ((firstSeen [] cs).idxOf c) = .ok c) ∧
      ∀ c, N ≤ (firstSeen [] cs).length → (c ∉ cs ∨ N ≤ (firstSeen [] cs).idxOf c) → indexOfColor t c = .ok (0, t)

/-! ## Faults (spec/60_exceptions.md) -/

/-- R322: a pixel index not below the number of slots, and a palette size or capacity above 256, raise OperandRange
with the register's value, whatever the addresses are (R327). -/
def Obligations.OperandRangeFaults : Prop :=
  ∀ (s : State) (rd rs1 rs2 : Reg) (cm : ColorMode) (po : PixelOrder) (tm : TmArg),
    (cm.fullByte = false → 8 / bitsPerPixel cm ≤ (s.reg rs2).toNat →
      Raises 2 (s.reg rs2) (.sbload rd rs1 rs2 cm po) s ∧ Raises 2 (s.reg rs2) (.sbstore rd rs1 rs2 cm po) s ∧
      Raises 2 (s.reg rs2) (.sbloadm rd rs1 rs2 cm po) s ∧ Raises 2 (s.reg rs2) (.sbstorem rd rs1 rs2 cm po) s) ∧
    (256 < (s.reg rs2).toNat →
      Raises 2 (s.reg rs2) (.palro rs1 rs2 tm) s ∧ Raises 2 (s.reg rs2) (.palrw rs1 rs2 tm) s ∧
      Raises 2 (s.reg rs2) (.paldyn rs2) s)

/-- R323, R327: a bad address among the bytes of a load or store, or of the range that an array or palette command
checks, raises AccessFault with the lowest one; BLENDV checks the destination first. -/
def Obligations.AccessFaultsOfRanges : Prop :=
  ∀ (s : State) (rd rs1 rs2 : Reg) (cm : ColorMode) (bm : BlendMode) (bo : ByteOrder) (po : PixelOrder) (tm : TmArg)
    (b a : Nat), a = (s.reg rs1).toNat →
    (LowestBad s .read a 4 b → Raises 3 (addressInfo b) (.ldc rd rs1) s) ∧
    (LowestBad s .write a 4 b → Raises 3 (addressInfo b) (.stc rs1 rs2) s) ∧
    (cm.fullByte = true → LowestBad s .read a (bitsPerPixel cm / 8) b →
      Raises 3 (addressInfo b) (.ldraw rd rs1 cm bo) s) ∧
    (cm.fullByte = true → LowestBad s .write a (bitsPerPixel cm / 8) b →
      Raises 3 (addressInfo b) (.straw rs1 rs2 cm bo) s ∧ Raises 3 (addressInfo b) (.blendrawm rs1 rs2 cm bm bo) s) ∧
    (LowestBad s .write a (4 * (s.reg rd).toNat) b →
      Raises 3 (addressInfo b) (.blendv rd rs1 rs2 bm) s ∧ Raises 3 (addressInfo b) (.blendvs rd rs1 rs2 bm) s) ∧
    (RangeOk s .write a (4 * (s.reg rd).toNat) → LowestBad s .read (s.reg rs2).toNat (4 * (s.reg rd).toNat) b →
      Raises 3 (addressInfo b) (.blendv rd rs1 rs2 bm) s) ∧
    (cm.fullByte = false → LowestBad s .write (s.reg rs2).toNat (4 * (8 / bitsPerPixel cm)) b →
      Raises 3 (addressInfo b) (.sbbulk rs1 rs2 cm po) s) ∧
    (cm.fullByte = false → (s.reg rs2).toNat < 8 / bitsPerPixel cm →
      (LowestBad s .read a 1 b → Raises 3 (addressInfo b) (.sbloadm rd rs1 rs2 cm po) s) ∧
      (LowestBad s .write a 1 b → Raises 3 (addressInfo b) (.sbstorem rd rs1 rs2 cm po) s)) ∧
    ((s.reg rs2).toNat ≤ 256 → LowestBad s .read a (4 * (s.reg rs2).toNat) b →
      Raises 3 (addressInfo b) (.palro rs1 rs2 .auto) s ∧ Raises 3 (addressInfo b) (.palrw rs1 rs2 tm) s)

/-- R197, R292, R323, R327: with a borrowed palette, an entry that cannot be read raises AccessFault with its lowest bad
address; SBBULK reports the lowest pixel index first. -/
def Obligations.AccessFaultsOfEntries : Prop :=
  ∀ (s : State) (rd rs1 rs2 : Reg) (cm : ColorMode) (bm : BlendMode) (bo : ByteOrder) (po : PixelOrder) (b : Nat),
    cm.indexed = true → s.palKind ≠ .dynamic →
    (LowestBad s .read (s.palBase.toNat + 4 * ((s.reg rs1).toNat % 2 ^ bitsPerPixel cm)) 4 b →
      Raises 3 (addressInfo b) (.toargb rd rs1 cm) s ∧ Raises 3 (addressInfo b) (.blendraw rd rs1 rs2 cm bm) s) ∧
    (cm = .idx8 → RangeOk s .write (s.reg rs1).toNat 1 →
      LowestBad s .read (s.palBase.toNat + 4 * (Memory.read s.mem (s.reg rs1).toNat).toNat) 4 b →
      Raises 3 (addressInfo b) (.blendrawm rs1 rs2 cm bm bo) s) ∧
    (cm ≠ .idx8 → RangeOk s .write (s.reg rs2).toNat (4 * (8 / bitsPerPixel cm)) →
      ∀ i, i < 8 / bitsPerPixel cm →
        (∀ j, j < i → EntryReadable s cm (pixelOf (bitsPerPixel cm) po ((s.reg rs1).toNat % 256) j)) →
        LowestBad s .read
          (s.palBase.toNat + 4 * pixelOf (bitsPerPixel cm) po ((s.reg rs1).toNat % 256) i) 4 b →
        Raises 3 (addressInfo b) (.sbbulk rs1 rs2 cm po) s)

/-- R325: a reverse lookup in a ReadOnly palette with ASSERT_EN set raises PaletteAssert with the colour looked up, for
the blend commands the blended colour. -/
def Obligations.PaletteAsserts : Prop :=
  ∀ (s : State) (rd rs1 rs2 : Reg) (cm : ColorMode) (bm : BlendMode) (bo : ByteOrder) (d : Color),
    s.palKind = .readOnly → s.ctrlAssertEn = true →
    Raises 4 (s.reg rs1) (.palidx rd rs1) s ∧
    (cm.indexed = true → Raises 4 (s.reg rs1) (.fromargb rd rs1 cm) s) ∧
    (cm.indexed = true → DecodesTo s cm (s.reg rs1).toNat d →
      Raises 4 (blend bm d (s.reg rs2)) (.blendraw rd rs1 rs2 cm bm) s) ∧
    (RangeOk s .write (s.reg rs1).toNat 1 →
      DecodesTo s .idx8 (Memory.read s.mem (s.reg rs1).toNat).toNat d →
      Raises 4 (blend bm d (s.reg rs2)) (.blendrawm rs1 rs2 .idx8 bm bo) s)

/-! ## The host's side (spec/10_state.md R45, R49, R367) -/

/-- R24, R45, R332: the host reads registers and CSRs at their offsets; `CMD`, `FAULT_CLR`, CSR numbers that do not
exist and every other offset read 0. A host write to the port, `CMD` and `FAULT_CLR` apart, changes one register, or
one CSR of class RW in its named bits, or nothing, and never the fault registers, CMDCNT, the palette or the memory.
That 0x400 and 0x404 are no CSR numbers is read from the table (log entry 5). -/
def Obligations.HostPort : Prop :=
  ∀ (s : State) (v : Word),
    ((∀ r : Reg, s.portRead (4 * r.val) = s.reg r) ∧
      (∀ n : Csr, s.portRead (0x100 + 4 * n.code) = s.csr n) ∧
      (∀ n, n < 256 → anyCsr n = false → s.portRead (0x100 + 4 * n) = 0) ∧
      s.portRead 0x400 = 0 ∧ s.portRead 0x404 = 0 ∧
      ∀ a, (a % 4 ≠ 0 ∨ (0x40 ≤ a ∧ a < 0x100) ∨ 0x404 < a) → s.portRead a = 0) ∧
    (∀ r : Reg, ∃ t, portWrite (4 * r.val) v s = .next t ∧ t.reg r = v ∧ RegsKeptBut r s t ∧ CsrsKeptBut [] s t ∧
      PaletteStoreKept s t ∧ MemoryKept s t ∧ PlatformKept s t) ∧
    (∀ n : Csr, n.writable = true → ∃ t, portWrite (0x100 + 4 * n.code) v s = .next t ∧
      (t.csr n).toNat = v.toNat % (match n with | .ctrl => 2 ^ 2 | .transp565 => 2 ^ 16 | _ => 2 ^ 32) ∧
      RegsKept s t ∧ CsrsKeptBut [n] s t ∧ PaletteStoreKept s t ∧ MemoryKept s t ∧ PlatformKept s t) ∧
    (∀ n : Csr, n.writable = false → portWrite (0x100 + 4 * n.code) v s = .next s) ∧
    ∀ a, a ≠ 0x400 → a ≠ 0x404 →
      (a % 4 ≠ 0 ∨ (0x40 ≤ a ∧ a < 0x100) ∨ 0x404 < a ∨ ∃ n, n < 256 ∧ a = 0x100 + 4 * n ∧ anyCsr n = false) →
      portWrite a v s = .next s

/-- R367(e), R367(f): the host's reads change nothing; its own write of a byte of memory changes that byte alone,
whatever the engine's map says of it (the model's choice, log entry 6). -/
def Obligations.HostMemoryMoves : Prop :=
  ∀ (s : State) (a : Word) (b : Byte) (off : Nat),
    hostMove (.portRead off) s = .next s ∧ hostMove (.memRead a) s = .next s ∧
    ∃ t, hostMove (.memWrite a b) s = .next t ∧ (Memory.wf s.mem = true → Memory.read t.mem a.toNat = b) ∧
      MemoryKeptOutside a.toNat 1 s t ∧ RegsKept s t ∧ CsrsKeptBut [] s t ∧ PaletteStoreKept s t ∧ PlatformKept s t

/-- R49, R330: IRQ is high exactly while a fault is latched and IRQ_EN is set: a write of CTRL or FAULT_CLR, or a fault,
changes it at once. -/
def Obligations.InterruptLevel : Prop :=
  ∀ s : State, (s.irq = true ↔ s.csr .status = 1 ∧ (s.csr .ctrl).toNat / 2 = 1) ∧
    (∃ t, portWrite 0x404 0 s = .next t ∧ t.irq = false) ∧
    (∃ t, portWrite 0x100 0 s = .next t ∧ t.irq = false ∧ t.csr .status = s.csr .status) ∧
    ∃ t, portWrite 0x100 3 s = .next t ∧ (t.irq = true ↔ s.csr .status = 1)

end
end

