-- ==== Sys2Proof/Laws/Memory.lean ====
section
/-! SUPPORT. The data memory: a read after a write, the canonical form, items of several bytes, and what the search
for the lowest bad address finds. -/

namespace Sys2Proof.Machine

/-! ## One byte -/

@[simp] theorem Memory.read_cell_append (a : Nat) (b : Byte) (m : List Host.Cell) (x : Nat) :
    Memory.read (Memory.cell a b ++ m) x = if b ≠ 0#8 ∧ a = x then b else Memory.read m x := by
  unfold Memory.cell
  by_cases hb : b = 0#8
  · simp [hb]
  · simp [hb, Memory.read]

/-- A byte below the first address of a canonical list reads as an unlisted byte. -/
theorem Memory.read_of_lt_wfFrom {lo a : Nat} {m : List Host.Cell} (h : Memory.wfFrom lo m = true) (ha : a < lo) :
    Memory.read m a = 0 := by
  induction m generalizing lo with
  | nil => rfl
  | cons c rest ih =>
    obtain ⟨k, v⟩ := c
    simp only [Memory.wfFrom, Bool.and_eq_true, decide_eq_true_eq] at h
    have hk : k ≠ a := by omega
    simp only [Memory.read, hk, if_false]
    exact ih h.2 (by omega)

/-- A byte that was just written reads as what was written, in a canonical memory. -/
theorem Memory.read_write_same_from {lo : Nat} {m : List Host.Cell} (a : Nat) (b : Byte)
    (h : Memory.wfFrom lo m = true) : Memory.read (Memory.write m a b) a = b := by
  induction m generalizing lo with
  | nil =>
    by_cases hb : b = 0#8
    · simp [Memory.write, Memory.cell, Memory.read, hb]
    · simp [Memory.write, Memory.cell, Memory.read, hb]
  | cons c rest ih =>
    obtain ⟨k, v⟩ := c
    simp only [Memory.wfFrom, Bool.and_eq_true, decide_eq_true_eq] at h
    simp only [Memory.write]
    split
    · rename_i hlt
      rw [Memory.read_cell_append]
      by_cases hb : b = 0#8
      · have : k ≠ a := by omega
        simp only [hb, ne_eq, not_true_eq_false, false_and, if_false, Memory.read, this]
        exact Memory.read_of_lt_wfFrom h.2 (by omega)
      · simp [hb]
    · split
      · rename_i heq
        subst heq
        rw [Memory.read_cell_append]
        by_cases hb : b = 0#8
        · simp only [hb, ne_eq, not_true_eq_false, false_and, if_false]
          exact Memory.read_of_lt_wfFrom h.2 (by omega)
        · simp [hb]
      · have : k ≠ a := by omega
        simp only [Memory.read, this, if_false]
        exact ih h.2

theorem Memory.read_write_same {m : List Host.Cell} (a : Nat) (b : Byte) (h : Memory.wf m = true) :
    Memory.read (Memory.write m a b) a = b := Memory.read_write_same_from a b h

/-- A write leaves every other byte alone. -/
theorem Memory.read_write_ne (m : List Host.Cell) (a x : Nat) (b : Byte) (hx : x ≠ a) :
    Memory.read (Memory.write m a b) x = Memory.read m x := by
  induction m with
  | nil =>
    have := Memory.read_cell_append a b [] x
    simp only [List.append_nil] at this
    simp [Memory.write, this, Memory.read, hx.symm]
  | cons c rest ih =>
    obtain ⟨k, v⟩ := c
    simp only [Memory.write]
    split
    · simp [Memory.read_cell_append, hx.symm]
    · split
      · rename_i heq
        subst heq
        simp [Memory.read_cell_append, Memory.read, hx.symm]
      · simp [Memory.read, ih]

/-! ## The canonical form -/

theorem Memory.wfFrom_mono {lo lo' : Nat} {m : List Host.Cell} (h : Memory.wfFrom lo m = true) (hl : lo' ≤ lo) :
    Memory.wfFrom lo' m = true := by
  cases m with
  | nil => rfl
  | cons c rest =>
    obtain ⟨k, v⟩ := c
    simp only [Memory.wfFrom, Bool.and_eq_true, decide_eq_true_eq] at h ⊢
    exact ⟨⟨⟨by omega, h.1.1.2⟩, h.1.2⟩, h.2⟩

theorem Memory.wfFrom_cell_append {lo : Nat} {m : List Host.Cell} {a : Nat} {b : Byte} (hlo : lo ≤ a)
    (ha : a < Config.addressSpace) (h : Memory.wfFrom (a + 1) m = true) :
    Memory.wfFrom lo (Memory.cell a b ++ m) = true := by
  unfold Memory.cell
  split
  · exact Memory.wfFrom_mono h (by omega)
  · rename_i hb
    simp only [List.singleton_append, Memory.wfFrom, Bool.and_eq_true, decide_eq_true_eq]
    exact ⟨⟨⟨hlo, ha⟩, hb⟩, h⟩

theorem Memory.wfFrom_write {lo : Nat} {m : List Host.Cell} {a : Nat} (b : Byte) (h : Memory.wfFrom lo m = true)
    (hlo : lo ≤ a) (ha : a < Config.addressSpace) : Memory.wfFrom lo (Memory.write m a b) = true := by
  induction m generalizing lo with
  | nil => simpa [Memory.write] using Memory.wfFrom_cell_append (m := []) (b := b) hlo ha rfl
  | cons c rest ih =>
    obtain ⟨k, v⟩ := c
    simp only [Memory.wfFrom, Bool.and_eq_true, decide_eq_true_eq] at h
    simp only [Memory.write]
    split
    · rename_i hlt
      refine Memory.wfFrom_cell_append hlo ha ?_
      simp only [Memory.wfFrom, Bool.and_eq_true, decide_eq_true_eq]
      exact ⟨⟨⟨by omega, h.1.1.2⟩, h.1.2⟩, h.2⟩
    · split
      · rename_i heq
        subst heq
        exact Memory.wfFrom_cell_append hlo ha h.2
      · simp only [Memory.wfFrom, Bool.and_eq_true, decide_eq_true_eq]
        exact ⟨⟨⟨h.1.1.1, h.1.1.2⟩, h.1.2⟩, ih h.2 (by omega)⟩

/-- A write inside the address space keeps the canonical form. -/
theorem Memory.wf_write {m : List Host.Cell} {a : Nat} (b : Byte) (h : Memory.wf m = true)
    (ha : a < Config.addressSpace) : Memory.wf (Memory.write m a b) = true :=
  Memory.wfFrom_write b h (Nat.zero_le a) ha

/-- Two canonical memories that read alike at every address are the same list. -/
theorem Memory.ext_of_wfFrom {lo : Nat} {m m' : List Host.Cell} (h : Memory.wfFrom lo m = true)
    (h' : Memory.wfFrom lo m' = true) (hr : ∀ a, Memory.read m a = Memory.read m' a) : m = m' := by
  induction m generalizing lo m' with
  | nil =>
    cases m' with
    | nil => rfl
    | cons c rest =>
      obtain ⟨k, v⟩ := c
      simp only [Memory.wfFrom, Bool.and_eq_true, decide_eq_true_eq] at h'
      have := hr k
      simp [Memory.read] at this
      exact absurd this.symm h'.1.2
  | cons c rest ih =>
    obtain ⟨k, v⟩ := c
    simp only [Memory.wfFrom, Bool.and_eq_true, decide_eq_true_eq] at h
    cases m' with
    | nil =>
      have := hr k
      simp [Memory.read] at this
      exact absurd this h.1.2
    | cons c' rest' =>
      obtain ⟨k', v'⟩ := c'
      simp only [Memory.wfFrom, Bool.and_eq_true, decide_eq_true_eq] at h'
      have hk : k = k' := by
        rcases Nat.lt_trichotomy k k' with hlt | heq | hgt
        · have h1 := hr k
          simp only [Memory.read, if_true, show k' ≠ k by omega, if_false] at h1
          rw [Memory.read_of_lt_wfFrom h'.2 (by omega)] at h1
          exact absurd h1 h.1.2
        · exact heq
        · have h1 := hr k'
          simp only [Memory.read, if_true, show k ≠ k' by omega, if_false] at h1
          rw [Memory.read_of_lt_wfFrom h.2 (by omega)] at h1
          exact absurd h1.symm h'.1.2
      subst hk
      have hv : v = v' := by simpa [Memory.read] using hr k
      subst hv
      have ht : rest = rest' := by
        refine ih h.2 h'.2 (fun a => ?_)
        rcases Nat.lt_or_ge k a with hlt | hge
        · have := hr a
          simpa [Memory.read, show k ≠ a by omega] using this
        · rw [Memory.read_of_lt_wfFrom h.2 (by omega), Memory.read_of_lt_wfFrom h'.2 (by omega)]
      rw [ht]

/-- The canonical form in one sentence: equal contents, equal data. -/
theorem Memory.ext_of_wf {m m' : List Host.Cell} (h : Memory.wf m = true) (h' : Memory.wf m' = true)
    (hr : ∀ a, Memory.read m a = Memory.read m' a) : m = m' := Memory.ext_of_wfFrom h h' hr

/-! ## Bytes of a number -/

@[simp] theorem length_bytesLE (v n : Nat) : (bytesLE v n).length = n := by
  induction n generalizing v with
  | zero => rfl
  | succ n ih => simp [bytesLE, ih]

@[simp] theorem length_toBytes (bo : ByteOrder) (v n : Nat) : (toBytes bo v n).length = n := by
  cases bo <;> simp [toBytes]

/-- Byte `k` of a number, least significant first. -/
theorem getElem_bytesLE (v n k : Nat) (hk : k < n) :
    (bytesLE v n)[k]'(by simpa using hk) = BitVec.ofNat 8 (v / 256 ^ k) := by
  induction n generalizing v k with
  | zero => omega
  | succ n ih =>
    cases k with
    | zero => simp [bytesLE]
    | succ k =>
      simp only [bytesLE, List.getElem_cons_succ]
      rw [ih (v / 256) k (by omega), Nat.div_div_eq_div_mul, Nat.pow_succ, Nat.mul_comm]

/-- Byte `k` in address order, in either byte order (R61(b)). -/
theorem getElem_toBytes (bo : ByteOrder) (v n k : Nat) (hk : k < n) :
    (toBytes bo v n)[k]'(by simpa using hk) =
      BitVec.ofNat 8 (v / 256 ^ (match bo with | .le => k | .be => n - 1 - k)) := by
  cases bo with
  | le => simpa [toBytes] using getElem_bytesLE v n k hk
  | be =>
    simp only [toBytes, List.getElem_reverse, length_bytesLE]
    exact getElem_bytesLE v n (n - 1 - k) (by omega)

theorem ofBytesLE_lt (bs : List Byte) : ofBytesLE bs < 256 ^ bs.length := by
  induction bs with
  | nil => simp [ofBytesLE]
  | cons b bs ih =>
    have hb := b.isLt
    simp only [ofBytesLE, List.length_cons, Nat.pow_succ]
    omega

theorem ofBytesLE_bytesLE (v n : Nat) : ofBytesLE (bytesLE v n) = v % 256 ^ n := by
  induction n generalizing v with
  | zero => simp [bytesLE, ofBytesLE, Nat.mod_one]
  | succ n ih =>
    have h : v % 256 ^ (n + 1) = v % 256 + 256 * (v / 256 % 256 ^ n) := by
      rw [Nat.pow_succ, Nat.mul_comm (256 ^ n) 256, Nat.mod_mul]
    simp only [bytesLE, ofBytesLE, ih, BitVec.toNat_ofNat, h]

/-- Bytes made from a number and read back in the same order give its low bytes. -/
theorem ofBytes_toBytes (bo : ByteOrder) (v n : Nat) : ofBytes bo (toBytes bo v n) = v % 256 ^ n := by
  cases bo <;> simp [ofBytes, toBytes, ofBytesLE_bytesLE]

@[simp] theorem Memory.length_readBytes (m : List Host.Cell) (a n : Nat) : (Memory.readBytes m a n).length = n := by
  induction n generalizing a with
  | zero => rfl
  | succ n ih => simp [Memory.readBytes, ih]

theorem Memory.load_lt (m : List Host.Cell) (a n : Nat) (bo : ByteOrder) : Memory.load m a n bo < 256 ^ n := by
  cases bo
  · simpa [Memory.load, ofBytes] using ofBytesLE_lt (Memory.readBytes m a n).reverse
  · simpa [Memory.load, ofBytes] using ofBytesLE_lt (Memory.readBytes m a n)

/-- Equal bytes give equal items. -/
theorem Memory.readBytes_congr {m m' : List Host.Cell} {a n : Nat}
    (h : ∀ x, a ≤ x → x < a + n → Memory.read m x = Memory.read m' x) :
    Memory.readBytes m a n = Memory.readBytes m' a n := by
  induction n generalizing a with
  | zero => rfl
  | succ n ih =>
    simp only [Memory.readBytes]
    rw [h a (by omega) (by omega), ih (fun x h1 h2 => h x (by omega) (by omega))]

/-! ## Strings of bytes -/

/-- A string of bytes leaves every byte outside it alone. -/
theorem Memory.read_writeBytes_outside (m : List Host.Cell) (a x : Nat) (bs : List Byte)
    (hx : x < a ∨ a + bs.length ≤ x) : Memory.read (Memory.writeBytes m a bs) x = Memory.read m x := by
  induction bs generalizing m a with
  | nil => rfl
  | cons b bs ih =>
    simp only [List.length_cons] at hx
    simp only [Memory.writeBytes]
    rw [ih (Memory.write m a b) (a + 1) (by omega), Memory.read_write_ne m a x b (by omega)]

theorem Memory.wf_writeBytes {m : List Host.Cell} {a : Nat} (bs : List Byte) (h : Memory.wf m = true)
    (ha : a + bs.length ≤ Config.addressSpace) : Memory.wf (Memory.writeBytes m a bs) = true := by
  induction bs generalizing m a with
  | nil => exact h
  | cons b bs ih =>
    simp only [List.length_cons] at ha
    exact ih (Memory.wf_write b h (by omega)) (by omega)

/-- Inside the string the bytes read as written. -/
theorem Memory.read_writeBytes_inside {m : List Host.Cell} {a : Nat} (bs : List Byte) (h : Memory.wf m = true)
    (ha : a + bs.length ≤ Config.addressSpace) (k : Nat) (hk : k < bs.length) :
    Memory.read (Memory.writeBytes m a bs) (a + k) = bs[k] := by
  induction bs generalizing m a k with
  | nil => simp at hk
  | cons b bs ih =>
    simp only [List.length_cons] at ha hk
    have hw := Memory.wf_write b h (show a < Config.addressSpace by omega)
    simp only [Memory.writeBytes]
    cases k with
    | zero =>
      rw [Memory.read_writeBytes_outside _ _ _ _ (by omega)]
      simpa using Memory.read_write_same a b h
    | succ k =>
      have := ih (a := a + 1) hw (by omega) k (by omega)
      rw [show a + (k + 1) = a + 1 + k by omega]
      simpa using this

/-! ## Items and colours -/

theorem Memory.wf_store {m : List Host.Cell} {a n : Nat} (v : Nat) (bo : ByteOrder) (h : Memory.wf m = true)
    (ha : a + n ≤ Config.addressSpace) : Memory.wf (Memory.store m a n v bo) = true :=
  Memory.wf_writeBytes _ h (by simpa using ha)

theorem Memory.read_store_outside (m : List Host.Cell) (a n v x : Nat) (bo : ByteOrder) (hx : x < a ∨ a + n ≤ x) :
    Memory.read (Memory.store m a n v bo) x = Memory.read m x :=
  Memory.read_writeBytes_outside m a x _ (by simpa using hx)

theorem Memory.read_store_inside {m : List Host.Cell} {a n : Nat} (v : Nat) (bo : ByteOrder) (h : Memory.wf m = true)
    (ha : a + n ≤ Config.addressSpace) (k : Nat) (hk : k < n) :
    Memory.read (Memory.store m a n v bo) (a + k) =
      BitVec.ofNat 8 (v / 256 ^ (match bo with | .le => k | .be => n - 1 - k)) := by
  rw [Memory.store, Memory.read_writeBytes_inside _ h (by simpa using ha) k (by simpa using hk)]
  exact getElem_toBytes bo v n k hk

/-- An item that was stored loads back, reduced to its width. -/
theorem Memory.load_store_same {m : List Host.Cell} {a n : Nat} (v : Nat) (bo : ByteOrder) (h : Memory.wf m = true)
    (ha : a + n ≤ Config.addressSpace) : Memory.load (Memory.store m a n v bo) a n bo = v % 256 ^ n := by
  have hb : Memory.readBytes (Memory.store m a n v bo) a n = toBytes bo v n := by
    have key : ∀ (bs : List Byte) (m' : List Host.Cell) (b : Nat),
        (∀ k (hk : k < bs.length), Memory.read m' (b + k) = bs[k]) → Memory.readBytes m' b bs.length = bs := by
      intro bs
      induction bs with
      | nil => intros; rfl
      | cons c cs ih =>
        intro m' b hr
        simp only [List.length_cons, Memory.readBytes]
        have h0 := hr 0 (by simp)
        simp only [Nat.add_zero, List.getElem_cons_zero] at h0
        rw [h0, ih m' (b + 1) (fun k hk => ?_)]
        have := hr (k + 1) (by simpa using hk)
        simpa [Nat.add_assoc, Nat.add_comm 1 k] using this
    have := key (toBytes bo v n) (Memory.store m a n v bo) a
      (fun k hk => Memory.read_writeBytes_inside _ h (by simpa using ha) k hk)
    simpa using this
  rw [Memory.load, hb, ofBytes_toBytes]

/-- A `Color` word as its four bytes, the lowest address least significant (R61(a)). -/
theorem Memory.toNat_loadColor (m : List Host.Cell) (a : Nat) :
    (Memory.loadColor m a).toNat = (Memory.read m a).toNat + 256 * (Memory.read m (a + 1)).toNat
      + 65536 * (Memory.read m (a + 2)).toNat + 16777216 * (Memory.read m (a + 3)).toNat := by
  have h0 := (Memory.read m a).isLt
  have h1 := (Memory.read m (a + 1)).isLt
  have h2 := (Memory.read m (a + 2)).isLt
  have h3 := (Memory.read m (a + 3)).isLt
  simp only [Memory.loadColor, Memory.load, ofBytes, Memory.readBytes, ofBytesLE, BitVec.toNat_ofNat, Nat.add_assoc,
    Nat.reduceAdd]
  omega

theorem Memory.loadColor_storeColor_same {m : List Host.Cell} {a : Nat} (c : Color) (h : Memory.wf m = true)
    (ha : a + 4 ≤ Config.addressSpace) : Memory.loadColor (Memory.storeColor m a c) a = c := by
  rw [Memory.loadColor, Memory.storeColor, Memory.load_store_same c.toNat .le h ha]
  apply BitVec.eq_of_toNat_eq
  have := c.isLt
  simp only [BitVec.toNat_ofNat]
  omega

/-- Equal bytes give equal `Color` words. -/
theorem Memory.loadColor_congr {m m' : List Host.Cell} {a : Nat}
    (h : ∀ x, a ≤ x → x < a + 4 → Memory.read m x = Memory.read m' x) :
    Memory.loadColor m a = Memory.loadColor m' a := by
  simp only [Memory.loadColor, Memory.load, Memory.readBytes_congr h]

theorem Memory.wf_storeColor {m : List Host.Cell} {a : Nat} (c : Color) (h : Memory.wf m = true)
    (ha : a + 4 ≤ Config.addressSpace) : Memory.wf (Memory.storeColor m a c) = true := Memory.wf_store _ _ h ha

theorem Memory.read_storeColor_outside (m : List Host.Cell) (a x : Nat) (c : Color) (hx : x < a ∨ a + 4 ≤ x) :
    Memory.read (Memory.storeColor m a c) x = Memory.read m x := Memory.read_store_outside m a 4 _ x _ hx

theorem Memory.loadColor_storeColor_outside (m : List Host.Cell) (a x : Nat) (c : Color)
    (hx : x + 4 ≤ a ∨ a + 4 ≤ x) : Memory.loadColor (Memory.storeColor m a c) x = Memory.loadColor m x :=
  Memory.loadColor_congr (fun y h1 h2 => Memory.read_storeColor_outside m a y c (by omega))

theorem Memory.wf_storeColors {m : List Host.Cell} {a : Nat} (cs : List Color) (h : Memory.wf m = true)
    (ha : a + 4 * cs.length ≤ Config.addressSpace) : Memory.wf (Memory.storeColors m a cs) = true := by
  induction cs generalizing m a with
  | nil => exact h
  | cons c cs ih =>
    simp only [List.length_cons] at ha
    exact ih (Memory.wf_storeColor c h (by omega)) (by omega)

theorem Memory.read_storeColors_outside (m : List Host.Cell) (a x : Nat) (cs : List Color)
    (hx : x < a ∨ a + 4 * cs.length ≤ x) : Memory.read (Memory.storeColors m a cs) x = Memory.read m x := by
  induction cs generalizing m a with
  | nil => rfl
  | cons c cs ih =>
    simp only [List.length_cons] at hx
    simp only [Memory.storeColors]
    rw [ih _ _ (by omega), Memory.read_storeColor_outside m a x c (by omega)]

/-- Colours stored one after the other load back, each at its own place. -/
theorem Memory.loadColor_storeColors {m : List Host.Cell} {a : Nat} (cs : List Color) (h : Memory.wf m = true)
    (ha : a + 4 * cs.length ≤ Config.addressSpace) (i : Nat) (hi : i < cs.length) :
    Memory.loadColor (Memory.storeColors m a cs) (a + 4 * i) = cs[i] := by
  induction cs generalizing m a i with
  | nil => simp at hi
  | cons c cs ih =>
    simp only [List.length_cons] at ha hi
    simp only [Memory.storeColors]
    cases i with
    | zero =>
      rw [Memory.loadColor_congr (m' := Memory.storeColor m a c)
        (fun y h1 h2 => Memory.read_storeColors_outside _ _ y cs (by omega))]
      simpa using Memory.loadColor_storeColor_same c h (by omega)
    | succ i =>
      have := ih (Memory.wf_storeColor (a := a) c h (by omega)) (a := a + 4) (by omega) i (by omega)
      rw [show a + 4 * (i + 1) = a + 4 + 4 * i by omega]
      simpa using this

@[simp] theorem Memory.length_loadColors (m : List Host.Cell) (a n : Nat) : (Memory.loadColors m a n).length = n := by
  induction n generalizing a with
  | zero => rfl
  | succ n ih => simp [Memory.loadColors, ih]

theorem Memory.getElem_loadColors (m : List Host.Cell) (a n i : Nat) (hi : i < n) :
    (Memory.loadColors m a n)[i]'(by simpa using hi) = Memory.loadColor m (a + 4 * i) := by
  induction n generalizing a i with
  | zero => omega
  | succ n ih =>
    cases i with
    | zero => simp [Memory.loadColors]
    | succ i =>
      simp only [Memory.loadColors, List.getElem_cons_succ]
      rw [ih (a + 4) i (by omega)]
      congr 1
      omega

/-! ## The lowest bad address -/

theorem grants_end {k : Access} {a : Nat} {r : Config.Region} (h : grants k a r = true) :
    r.base ≤ a ∧ a < r.base + r.size := by
  simp only [grants, Bool.and_eq_true, decide_eq_true_eq] at h
  exact h.1

theorem accessible_iff (map : List Config.Region) (k : Access) (a : Nat) :
    accessible map k a = true ↔ a < Config.addressSpace ∧ ∃ r ∈ map, grants k a r = true := by
  simp [accessible]

/-- `MemWritable(a)` implies `MemReadable(a)` (R4). -/
theorem readable_of_writable {map : List Config.Region} {a : Nat} (h : accessible map .write a = true) :
    accessible map .read a = true := by
  rw [accessible_iff] at h ⊢
  obtain ⟨ha, r, hr, hg⟩ := h
  refine ⟨ha, r, hr, ?_⟩
  simp only [grants, Bool.and_eq_true] at hg ⊢
  exact ⟨hg.1, by simp⟩

theorem foldl_max_ge (rs : List Config.Region) (e : Nat) :
    e ≤ rs.foldl (fun e r => max e (r.base + r.size)) e ∧
      ∀ r ∈ rs, r.base + r.size ≤ rs.foldl (fun e r => max e (r.base + r.size)) e := by
  induction rs generalizing e with
  | nil => simp
  | cons r rs ih =>
    have := ih (max e (r.base + r.size))
    simp only [List.foldl_cons, List.mem_cons, forall_eq_or_imp]
    exact ⟨by omega, by omega, this.2⟩

theorem foldl_max_cases (rs : List Config.Region) (e : Nat) :
    rs.foldl (fun e r => max e (r.base + r.size)) e = e ∨
      ∃ r ∈ rs, rs.foldl (fun e r => max e (r.base + r.size)) e = r.base + r.size := by
  induction rs generalizing e with
  | nil => simp
  | cons r rs ih =>
    simp only [List.foldl_cons]
    rcases ih (max e (r.base + r.size)) with h | ⟨r', hr', h⟩
    · rcases Nat.le_total e (r.base + r.size) with h1 | h1
      · exact .inr ⟨r, by simp, by rw [h]; omega⟩
      · exact .inl (by rw [h]; omega)
    · exact .inr ⟨r', by simp [hr'], h⟩

/-- Every address from `a` to where the granting regions end is accessible. -/
theorem accessible_below_grantedUntil {map : List Config.Region} {k : Access} {a c : Nat} (h1 : a ≤ c)
    (h2 : c < grantedUntil map k a) : accessible map k c = true := by
  unfold grantedUntil at h2
  rcases foldl_max_cases (map.filter (grants k a)) a with h | ⟨r, hr, h⟩
  · rw [h] at h2
    omega
  · rw [h] at h2
    obtain ⟨hm, hg⟩ := List.mem_filter.mp hr
    rw [accessible_iff]
    refine ⟨by omega, r, hm, ?_⟩
    have := grants_end hg
    simp only [grants, Bool.and_eq_true, decide_eq_true_eq] at hg ⊢
    exact ⟨⟨by omega, by omega⟩, hg.2⟩

/-- The regions whose end, cut at `2^32`, lies beyond `a`: what bounds the number of turns. -/
def regionsBeyond (map : List Config.Region) (a : Nat) : Nat :=
  map.countP (fun r => decide (a < min Config.addressSpace (r.base + r.size)))

theorem regionsBeyond_lt {map : List Config.Region} {k : Access} {a : Nat} (h : accessible map k a = true) :
    regionsBeyond map (grantedUntil map k a) < regionsBeyond map a := by
  obtain ⟨ha, r, hr, hg⟩ := (accessible_iff map k a).mp h
  have hend := grants_end hg
  have hfold := (foldl_max_ge (map.filter (grants k a)) a)
  have hr' := hfold.2 r (List.mem_filter.mpr ⟨hr, hg⟩)
  have hle : a ≤ grantedUntil map k a := by
    unfold grantedUntil
    have := hfold.1
    omega
  have hrend : min Config.addressSpace (r.base + r.size) ≤ grantedUntil map k a := by
    unfold grantedUntil
    omega
  unfold regionsBeyond
  obtain ⟨l1, l2, rfl⟩ := List.append_of_mem hr
  simp only [List.countP_append, List.countP_cons]
  have hmono : ∀ l : List Config.Region,
      l.countP (fun q => decide (grantedUntil (l1 ++ r :: l2) k a < min Config.addressSpace (q.base + q.size))) ≤
        l.countP (fun q => decide (a < min Config.addressSpace (q.base + q.size))) := fun l =>
    List.countP_mono_left (fun q _ hq => by
      simp only [decide_eq_true_eq] at hq ⊢
      omega)
  have m1 := hmono l1
  have m2 := hmono l2
  have e1 : decide (grantedUntil (l1 ++ r :: l2) k a < min Config.addressSpace (r.base + r.size)) = false := by
    simp only [decide_eq_false_iff_not]
    omega
  have e2 : decide (a < min Config.addressSpace (r.base + r.size)) = true := by
    simp only [decide_eq_true_eq]
    omega
  simp only [e1, e2, if_true, Bool.false_eq_true, if_false]
  omega

theorem not_accessible_of_regionsBeyond_zero {map : List Config.Region} {k : Access} {a : Nat}
    (h : regionsBeyond map a = 0) : accessible map k a = false := by
  by_contra hc
  have hc' : accessible map k a = true := by simpa using hc
  have := regionsBeyond_lt hc'
  omega

theorem regionsBeyond_le_length (map : List Config.Region) (a : Nat) : regionsBeyond map a ≤ map.length :=
  List.countP_le_length

/-- What the search answers, from any turn count that is large enough. -/
theorem firstBadFrom_spec (map : List Config.Region) (k : Access) (stop turns a : Nat)
    (ht : regionsBeyond map a ≤ turns) :
    match firstBadFrom map k stop turns a with
    | some b => a ≤ b ∧ b < stop ∧ accessible map k b = false ∧ ∀ c, a ≤ c → c < b → accessible map k c = true
    | none => ∀ c, a ≤ c → c < stop → accessible map k c = true := by
  induction turns generalizing a with
  | zero =>
    unfold firstBadFrom
    split_ifs with h
    · exact ⟨le_refl _, h, not_accessible_of_regionsBeyond_zero (by omega), fun c h1 h2 => by omega⟩
    · exact fun c h1 h2 => by omega
  | succ turns ih =>
    unfold firstBadFrom
    split_ifs with h1 h2
    · exact fun c h3 h4 => by omega
    · have hlt := regionsBeyond_lt h2
      have hle : a ≤ grantedUntil map k a := by
        obtain ⟨ha, _⟩ := (accessible_iff map k a).mp h2
        unfold grantedUntil
        have := (foldl_max_ge (map.filter (grants k a)) a).1
        omega
      have := ih (grantedUntil map k a) (by omega)
      split at this
      · refine ⟨by omega, this.2.1, this.2.2.1, fun c hc1 hc2 => ?_⟩
        by_cases hc : c < grantedUntil map k a
        · exact accessible_below_grantedUntil hc1 hc
        · exact this.2.2.2 c (by omega) hc2
      · intro c hc1 hc2
        by_cases hc : c < grantedUntil map k a
        · exact accessible_below_grantedUntil hc1 hc
        · exact this c (by omega) hc2
    · exact ⟨le_refl _, by omega, by simpa using h2, fun c h3 h4 => by omega⟩

/-- The search of R64 finds an address exactly when it is the lowest bad one of the range. -/
theorem firstBad_eq_some_iff (map : List Config.Region) (k : Access) (a len b : Nat) :
    firstBad map k a len = some b ↔
      a ≤ b ∧ b < a + len ∧ accessible map k b = false ∧ ∀ c, a ≤ c → c < b → accessible map k c = true := by
  have h := firstBadFrom_spec map k (a + len) map.length a (regionsBeyond_le_length map a)
  unfold firstBad
  split at h
  · rename_i b' hb'
    rw [hb']
    constructor
    · intro e
      injection e with e
      exact e ▸ h
    · rintro ⟨h1, h2, h3, h4⟩
      rcases Nat.lt_trichotomy b b' with hl | rfl | hg
      · rw [h.2.2.2 b h1 hl] at h3
        contradiction
      · rfl
      · rw [h4 b' h.1 hg] at h
        exact absurd h.2.2.1 (by simp)
  · rename_i hn
    rw [hn]
    constructor
    · intro e
      contradiction
    · rintro ⟨h1, h2, h3, _⟩
      rw [h b h1 h2] at h3
      contradiction

/-- The search finds nothing exactly when the whole range is accessible. -/
theorem firstBad_eq_none_iff (map : List Config.Region) (k : Access) (a len : Nat) :
    firstBad map k a len = none ↔ ∀ c, a ≤ c → c < a + len → accessible map k c = true := by
  have h := firstBadFrom_spec map k (a + len) map.length a (regionsBeyond_le_length map a)
  unfold firstBad
  split at h
  · rename_i b' hb'
    rw [hb']
    constructor
    · intro e
      contradiction
    · intro hall
      rw [hall b' h.1 h.2.1] at h
      exact absurd h.2.2.1 (by simp)
  · rename_i hn
    rw [hn]
    simpa using h

end Sys2Proof.Machine
end

