-- ==== Sys2Proof/Laws/State.lean ====
section
/-! SUPPORT. What each named update of the state does to each field: true by definition, so that no later proof
unfolds a record update. -/

namespace Sys2Proof.Machine

variable (s : State)

/-! ## setReg -/

@[simp] theorem setReg_regs (r : Reg) (v : Word) : (s.setReg r v).regs = s.regs.set r.val v := rfl
@[simp] theorem setReg_ctrlAssertEn (r : Reg) (v : Word) : (s.setReg r v).ctrlAssertEn = s.ctrlAssertEn := rfl
@[simp] theorem setReg_ctrlIrqEn (r : Reg) (v : Word) : (s.setReg r v).ctrlIrqEn = s.ctrlIrqEn := rfl
@[simp] theorem setReg_statusFaulted (r : Reg) (v : Word) : (s.setReg r v).statusFaulted = s.statusFaulted := rfl
@[simp] theorem setReg_faultCause (r : Reg) (v : Word) : (s.setReg r v).faultCause = s.faultCause := rfl
@[simp] theorem setReg_faultCmd (r : Reg) (v : Word) : (s.setReg r v).faultCmd = s.faultCmd := rfl
@[simp] theorem setReg_faultInfo (r : Reg) (v : Word) : (s.setReg r v).faultInfo = s.faultInfo := rfl
@[simp] theorem setReg_cmdcnt (r : Reg) (v : Word) : (s.setReg r v).cmdcnt = s.cmdcnt := rfl
@[simp] theorem setReg_transp565 (r : Reg) (v : Word) : (s.setReg r v).transp565 = s.transp565 := rfl
@[simp] theorem setReg_tint (r : Reg) (v : Word) : (s.setReg r v).tint = s.tint := rfl
@[simp] theorem setReg_monoFg (r : Reg) (v : Word) : (s.setReg r v).monoFg = s.monoFg := rfl
@[simp] theorem setReg_monoBg (r : Reg) (v : Word) : (s.setReg r v).monoBg = s.monoBg := rfl
@[simp] theorem setReg_palKind (r : Reg) (v : Word) : (s.setReg r v).palKind = s.palKind := rfl
@[simp] theorem setReg_palBase (r : Reg) (v : Word) : (s.setReg r v).palBase = s.palBase := rfl
@[simp] theorem setReg_palSize (r : Reg) (v : Word) : (s.setReg r v).palSize = s.palSize := rfl
@[simp] theorem setReg_palCap (r : Reg) (v : Word) : (s.setReg r v).palCap = s.palCap := rfl
@[simp] theorem setReg_palTm (r : Reg) (v : Word) : (s.setReg r v).palTm = s.palTm := rfl
@[simp] theorem setReg_palRam (r : Reg) (v : Word) : (s.setReg r v).palRam = s.palRam := rfl
@[simp] theorem setReg_ridx (r : Reg) (v : Word) : (s.setReg r v).ridx = s.ridx := rfl
@[simp] theorem setReg_mem (r : Reg) (v : Word) : (s.setReg r v).mem = s.mem := rfl
@[simp] theorem setReg_memMap (r : Reg) (v : Word) : (s.setReg r v).memMap = s.memMap := rfl
@[simp] theorem setReg_moves (r : Reg) (v : Word) : (s.setReg r v).moves = s.moves := rfl

/-! ## takeFault -/

@[simp] theorem takeFault_regs (f : Raise) (w : Word) : (s.takeFault f w).regs = s.regs := rfl
@[simp] theorem takeFault_ctrlAssertEn (f : Raise) (w : Word) : (s.takeFault f w).ctrlAssertEn = s.ctrlAssertEn := rfl
@[simp] theorem takeFault_ctrlIrqEn (f : Raise) (w : Word) : (s.takeFault f w).ctrlIrqEn = s.ctrlIrqEn := rfl
@[simp] theorem takeFault_statusFaulted (f : Raise) (w : Word) : (s.takeFault f w).statusFaulted = true := rfl
@[simp] theorem takeFault_faultCause (f : Raise) (w : Word) : (s.takeFault f w).faultCause = f.cause := rfl
@[simp] theorem takeFault_faultCmd (f : Raise) (w : Word) : (s.takeFault f w).faultCmd = w := rfl
@[simp] theorem takeFault_faultInfo (f : Raise) (w : Word) : (s.takeFault f w).faultInfo = f.info := rfl
@[simp] theorem takeFault_cmdcnt (f : Raise) (w : Word) : (s.takeFault f w).cmdcnt = s.cmdcnt := rfl
@[simp] theorem takeFault_transp565 (f : Raise) (w : Word) : (s.takeFault f w).transp565 = s.transp565 := rfl
@[simp] theorem takeFault_tint (f : Raise) (w : Word) : (s.takeFault f w).tint = s.tint := rfl
@[simp] theorem takeFault_monoFg (f : Raise) (w : Word) : (s.takeFault f w).monoFg = s.monoFg := rfl
@[simp] theorem takeFault_monoBg (f : Raise) (w : Word) : (s.takeFault f w).monoBg = s.monoBg := rfl
@[simp] theorem takeFault_palKind (f : Raise) (w : Word) : (s.takeFault f w).palKind = s.palKind := rfl
@[simp] theorem takeFault_palBase (f : Raise) (w : Word) : (s.takeFault f w).palBase = s.palBase := rfl
@[simp] theorem takeFault_palSize (f : Raise) (w : Word) : (s.takeFault f w).palSize = s.palSize := rfl
@[simp] theorem takeFault_palCap (f : Raise) (w : Word) : (s.takeFault f w).palCap = s.palCap := rfl
@[simp] theorem takeFault_palTm (f : Raise) (w : Word) : (s.takeFault f w).palTm = s.palTm := rfl
@[simp] theorem takeFault_palRam (f : Raise) (w : Word) : (s.takeFault f w).palRam = s.palRam := rfl
@[simp] theorem takeFault_ridx (f : Raise) (w : Word) : (s.takeFault f w).ridx = s.ridx := rfl
@[simp] theorem takeFault_mem (f : Raise) (w : Word) : (s.takeFault f w).mem = s.mem := rfl
@[simp] theorem takeFault_memMap (f : Raise) (w : Word) : (s.takeFault f w).memMap = s.memMap := rfl
@[simp] theorem takeFault_moves (f : Raise) (w : Word) : (s.takeFault f w).moves = s.moves := rfl

/-! ## clearFault -/

@[simp] theorem clearFault_regs : (s.clearFault).regs = s.regs := rfl
@[simp] theorem clearFault_ctrlAssertEn : (s.clearFault).ctrlAssertEn = s.ctrlAssertEn := rfl
@[simp] theorem clearFault_ctrlIrqEn : (s.clearFault).ctrlIrqEn = s.ctrlIrqEn := rfl
@[simp] theorem clearFault_statusFaulted : (s.clearFault).statusFaulted = false := rfl
@[simp] theorem clearFault_faultCause : (s.clearFault).faultCause = .none := rfl
@[simp] theorem clearFault_faultCmd : (s.clearFault).faultCmd = 0 := rfl
@[simp] theorem clearFault_faultInfo : (s.clearFault).faultInfo = 0 := rfl
@[simp] theorem clearFault_cmdcnt : (s.clearFault).cmdcnt = s.cmdcnt := rfl
@[simp] theorem clearFault_transp565 : (s.clearFault).transp565 = s.transp565 := rfl
@[simp] theorem clearFault_tint : (s.clearFault).tint = s.tint := rfl
@[simp] theorem clearFault_monoFg : (s.clearFault).monoFg = s.monoFg := rfl
@[simp] theorem clearFault_monoBg : (s.clearFault).monoBg = s.monoBg := rfl
@[simp] theorem clearFault_palKind : (s.clearFault).palKind = s.palKind := rfl
@[simp] theorem clearFault_palBase : (s.clearFault).palBase = s.palBase := rfl
@[simp] theorem clearFault_palSize : (s.clearFault).palSize = s.palSize := rfl
@[simp] theorem clearFault_palCap : (s.clearFault).palCap = s.palCap := rfl
@[simp] theorem clearFault_palTm : (s.clearFault).palTm = s.palTm := rfl
@[simp] theorem clearFault_palRam : (s.clearFault).palRam = s.palRam := rfl
@[simp] theorem clearFault_ridx : (s.clearFault).ridx = s.ridx := rfl
@[simp] theorem clearFault_mem : (s.clearFault).mem = s.mem := rfl
@[simp] theorem clearFault_memMap : (s.clearFault).memMap = s.memMap := rfl
@[simp] theorem clearFault_moves : (s.clearFault).moves = s.moves := rfl

/-! ## count -/

@[simp] theorem count_regs : (s.count).regs = s.regs := rfl
@[simp] theorem count_ctrlAssertEn : (s.count).ctrlAssertEn = s.ctrlAssertEn := rfl
@[simp] theorem count_ctrlIrqEn : (s.count).ctrlIrqEn = s.ctrlIrqEn := rfl
@[simp] theorem count_statusFaulted : (s.count).statusFaulted = s.statusFaulted := rfl
@[simp] theorem count_faultCause : (s.count).faultCause = s.faultCause := rfl
@[simp] theorem count_faultCmd : (s.count).faultCmd = s.faultCmd := rfl
@[simp] theorem count_faultInfo : (s.count).faultInfo = s.faultInfo := rfl
@[simp] theorem count_cmdcnt : (s.count).cmdcnt = s.cmdcnt + 1 := rfl
@[simp] theorem count_transp565 : (s.count).transp565 = s.transp565 := rfl
@[simp] theorem count_tint : (s.count).tint = s.tint := rfl
@[simp] theorem count_monoFg : (s.count).monoFg = s.monoFg := rfl
@[simp] theorem count_monoBg : (s.count).monoBg = s.monoBg := rfl
@[simp] theorem count_palKind : (s.count).palKind = s.palKind := rfl
@[simp] theorem count_palBase : (s.count).palBase = s.palBase := rfl
@[simp] theorem count_palSize : (s.count).palSize = s.palSize := rfl
@[simp] theorem count_palCap : (s.count).palCap = s.palCap := rfl
@[simp] theorem count_palTm : (s.count).palTm = s.palTm := rfl
@[simp] theorem count_palRam : (s.count).palRam = s.palRam := rfl
@[simp] theorem count_ridx : (s.count).ridx = s.ridx := rfl
@[simp] theorem count_mem : (s.count).mem = s.mem := rfl
@[simp] theorem count_memMap : (s.count).memMap = s.memMap := rfl
@[simp] theorem count_moves : (s.count).moves = s.moves := rfl

/-! ## setMem -/

@[simp] theorem setMem_regs (m : List Host.Cell) : (s.setMem m).regs = s.regs := rfl
@[simp] theorem setMem_ctrlAssertEn (m : List Host.Cell) : (s.setMem m).ctrlAssertEn = s.ctrlAssertEn := rfl
@[simp] theorem setMem_ctrlIrqEn (m : List Host.Cell) : (s.setMem m).ctrlIrqEn = s.ctrlIrqEn := rfl
@[simp] theorem setMem_statusFaulted (m : List Host.Cell) : (s.setMem m).statusFaulted = s.statusFaulted := rfl
@[simp] theorem setMem_faultCause (m : List Host.Cell) : (s.setMem m).faultCause = s.faultCause := rfl
@[simp] theorem setMem_faultCmd (m : List Host.Cell) : (s.setMem m).faultCmd = s.faultCmd := rfl
@[simp] theorem setMem_faultInfo (m : List Host.Cell) : (s.setMem m).faultInfo = s.faultInfo := rfl
@[simp] theorem setMem_cmdcnt (m : List Host.Cell) : (s.setMem m).cmdcnt = s.cmdcnt := rfl
@[simp] theorem setMem_transp565 (m : List Host.Cell) : (s.setMem m).transp565 = s.transp565 := rfl
@[simp] theorem setMem_tint (m : List Host.Cell) : (s.setMem m).tint = s.tint := rfl
@[simp] theorem setMem_monoFg (m : List Host.Cell) : (s.setMem m).monoFg = s.monoFg := rfl
@[simp] theorem setMem_monoBg (m : List Host.Cell) : (s.setMem m).monoBg = s.monoBg := rfl
@[simp] theorem setMem_palKind (m : List Host.Cell) : (s.setMem m).palKind = s.palKind := rfl
@[simp] theorem setMem_palBase (m : List Host.Cell) : (s.setMem m).palBase = s.palBase := rfl
@[simp] theorem setMem_palSize (m : List Host.Cell) : (s.setMem m).palSize = s.palSize := rfl
@[simp] theorem setMem_palCap (m : List Host.Cell) : (s.setMem m).palCap = s.palCap := rfl
@[simp] theorem setMem_palTm (m : List Host.Cell) : (s.setMem m).palTm = s.palTm := rfl
@[simp] theorem setMem_palRam (m : List Host.Cell) : (s.setMem m).palRam = s.palRam := rfl
@[simp] theorem setMem_ridx (m : List Host.Cell) : (s.setMem m).ridx = s.ridx := rfl
@[simp] theorem setMem_mem (m : List Host.Cell) : (s.setMem m).mem = m := rfl
@[simp] theorem setMem_memMap (m : List Host.Cell) : (s.setMem m).memMap = s.memMap := rfl
@[simp] theorem setMem_moves (m : List Host.Cell) : (s.setMem m).moves = s.moves := rfl

/-! ## setMoves -/

@[simp] theorem setMoves_regs (ms : List HostMove) : (s.setMoves ms).regs = s.regs := rfl
@[simp] theorem setMoves_ctrlAssertEn (ms : List HostMove) : (s.setMoves ms).ctrlAssertEn = s.ctrlAssertEn := rfl
@[simp] theorem setMoves_ctrlIrqEn (ms : List HostMove) : (s.setMoves ms).ctrlIrqEn = s.ctrlIrqEn := rfl
@[simp] theorem setMoves_statusFaulted (ms : List HostMove) : (s.setMoves ms).statusFaulted = s.statusFaulted := rfl
@[simp] theorem setMoves_faultCause (ms : List HostMove) : (s.setMoves ms).faultCause = s.faultCause := rfl
@[simp] theorem setMoves_faultCmd (ms : List HostMove) : (s.setMoves ms).faultCmd = s.faultCmd := rfl
@[simp] theorem setMoves_faultInfo (ms : List HostMove) : (s.setMoves ms).faultInfo = s.faultInfo := rfl
@[simp] theorem setMoves_cmdcnt (ms : List HostMove) : (s.setMoves ms).cmdcnt = s.cmdcnt := rfl
@[simp] theorem setMoves_transp565 (ms : List HostMove) : (s.setMoves ms).transp565 = s.transp565 := rfl
@[simp] theorem setMoves_tint (ms : List HostMove) : (s.setMoves ms).tint = s.tint := rfl
@[simp] theorem setMoves_monoFg (ms : List HostMove) : (s.setMoves ms).monoFg = s.monoFg := rfl
@[simp] theorem setMoves_monoBg (ms : List HostMove) : (s.setMoves ms).monoBg = s.monoBg := rfl
@[simp] theorem setMoves_palKind (ms : List HostMove) : (s.setMoves ms).palKind = s.palKind := rfl
@[simp] theorem setMoves_palBase (ms : List HostMove) : (s.setMoves ms).palBase = s.palBase := rfl
@[simp] theorem setMoves_palSize (ms : List HostMove) : (s.setMoves ms).palSize = s.palSize := rfl
@[simp] theorem setMoves_palCap (ms : List HostMove) : (s.setMoves ms).palCap = s.palCap := rfl
@[simp] theorem setMoves_palTm (ms : List HostMove) : (s.setMoves ms).palTm = s.palTm := rfl
@[simp] theorem setMoves_palRam (ms : List HostMove) : (s.setMoves ms).palRam = s.palRam := rfl
@[simp] theorem setMoves_ridx (ms : List HostMove) : (s.setMoves ms).ridx = s.ridx := rfl
@[simp] theorem setMoves_mem (ms : List HostMove) : (s.setMoves ms).mem = s.mem := rfl
@[simp] theorem setMoves_memMap (ms : List HostMove) : (s.setMoves ms).memMap = s.memMap := rfl
@[simp] theorem setMoves_moves (ms : List HostMove) : (s.setMoves ms).moves = ms := rfl

/-! ## insertColor -/

@[simp] theorem insertColor_regs (c : Color) (i : Fin 256) : (insertColor s c i).regs = s.regs := rfl
@[simp] theorem insertColor_ctrlAssertEn (c : Color) (i : Fin 256) : (insertColor s c i).ctrlAssertEn = s.ctrlAssertEn := rfl
@[simp] theorem insertColor_ctrlIrqEn (c : Color) (i : Fin 256) : (insertColor s c i).ctrlIrqEn = s.ctrlIrqEn := rfl
@[simp] theorem insertColor_statusFaulted (c : Color) (i : Fin 256) : (insertColor s c i).statusFaulted = s.statusFaulted := rfl
@[simp] theorem insertColor_faultCause (c : Color) (i : Fin 256) : (insertColor s c i).faultCause = s.faultCause := rfl
@[simp] theorem insertColor_faultCmd (c : Color) (i : Fin 256) : (insertColor s c i).faultCmd = s.faultCmd := rfl
@[simp] theorem insertColor_faultInfo (c : Color) (i : Fin 256) : (insertColor s c i).faultInfo = s.faultInfo := rfl
@[simp] theorem insertColor_cmdcnt (c : Color) (i : Fin 256) : (insertColor s c i).cmdcnt = s.cmdcnt := rfl
@[simp] theorem insertColor_transp565 (c : Color) (i : Fin 256) : (insertColor s c i).transp565 = s.transp565 := rfl
@[simp] theorem insertColor_tint (c : Color) (i : Fin 256) : (insertColor s c i).tint = s.tint := rfl
@[simp] theorem insertColor_monoFg (c : Color) (i : Fin 256) : (insertColor s c i).monoFg = s.monoFg := rfl
@[simp] theorem insertColor_monoBg (c : Color) (i : Fin 256) : (insertColor s c i).monoBg = s.monoBg := rfl
@[simp] theorem insertColor_palKind (c : Color) (i : Fin 256) : (insertColor s c i).palKind = s.palKind := rfl
@[simp] theorem insertColor_palBase (c : Color) (i : Fin 256) : (insertColor s c i).palBase = s.palBase := rfl
@[simp] theorem insertColor_palSize (c : Color) (i : Fin 256) : (insertColor s c i).palSize = ⟨i.val + 1, Nat.succ_lt_succ i.isLt⟩ := rfl
@[simp] theorem insertColor_palCap (c : Color) (i : Fin 256) : (insertColor s c i).palCap = s.palCap := rfl
@[simp] theorem insertColor_palTm (c : Color) (i : Fin 256) : (insertColor s c i).palTm = s.palTm.join (classOf c) := rfl
@[simp] theorem insertColor_palRam (c : Color) (i : Fin 256) : (insertColor s c i).palRam = s.palRam.set i.val c := rfl
@[simp] theorem insertColor_ridx (c : Color) (i : Fin 256) : (insertColor s c i).ridx = s.ridx ++ [(c, i)] := rfl
@[simp] theorem insertColor_mem (c : Color) (i : Fin 256) : (insertColor s c i).mem = s.mem := rfl
@[simp] theorem insertColor_memMap (c : Color) (i : Fin 256) : (insertColor s c i).memMap = s.memMap := rfl
@[simp] theorem insertColor_moves (c : Color) (i : Fin 256) : (insertColor s c i).moves = s.moves := rfl

/-! ## setBorrowed -/

@[simp] theorem setBorrowed_regs (k : PalKind) (b : Word) (n : Fin 257) (tm : TransparencyClass) (x : List (Color × Fin 256)) : (s.setBorrowed k b n tm x).regs = s.regs := rfl
@[simp] theorem setBorrowed_ctrlAssertEn (k : PalKind) (b : Word) (n : Fin 257) (tm : TransparencyClass) (x : List (Color × Fin 256)) : (s.setBorrowed k b n tm x).ctrlAssertEn = s.ctrlAssertEn := rfl
@[simp] theorem setBorrowed_ctrlIrqEn (k : PalKind) (b : Word) (n : Fin 257) (tm : TransparencyClass) (x : List (Color × Fin 256)) : (s.setBorrowed k b n tm x).ctrlIrqEn = s.ctrlIrqEn := rfl
@[simp] theorem setBorrowed_statusFaulted (k : PalKind) (b : Word) (n : Fin 257) (tm : TransparencyClass) (x : List (Color × Fin 256)) : (s.setBorrowed k b n tm x).statusFaulted = s.statusFaulted := rfl
@[simp] theorem setBorrowed_faultCause (k : PalKind) (b : Word) (n : Fin 257) (tm : TransparencyClass) (x : List (Color × Fin 256)) : (s.setBorrowed k b n tm x).faultCause = s.faultCause := rfl
@[simp] theorem setBorrowed_faultCmd (k : PalKind) (b : Word) (n : Fin 257) (tm : TransparencyClass) (x : List (Color × Fin 256)) : (s.setBorrowed k b n tm x).faultCmd = s.faultCmd := rfl
@[simp] theorem setBorrowed_faultInfo (k : PalKind) (b : Word) (n : Fin 257) (tm : TransparencyClass) (x : List (Color × Fin 256)) : (s.setBorrowed k b n tm x).faultInfo = s.faultInfo := rfl
@[simp] theorem setBorrowed_cmdcnt (k : PalKind) (b : Word) (n : Fin 257) (tm : TransparencyClass) (x : List (Color × Fin 256)) : (s.setBorrowed k b n tm x).cmdcnt = s.cmdcnt := rfl
@[simp] theorem setBorrowed_transp565 (k : PalKind) (b : Word) (n : Fin 257) (tm : TransparencyClass) (x : List (Color × Fin 256)) : (s.setBorrowed k b n tm x).transp565 = s.transp565 := rfl
@[simp] theorem setBorrowed_tint (k : PalKind) (b : Word) (n : Fin 257) (tm : TransparencyClass) (x : List (Color × Fin 256)) : (s.setBorrowed k b n tm x).tint = s.tint := rfl
@[simp] theorem setBorrowed_monoFg (k : PalKind) (b : Word) (n : Fin 257) (tm : TransparencyClass) (x : List (Color × Fin 256)) : (s.setBorrowed k b n tm x).monoFg = s.monoFg := rfl
@[simp] theorem setBorrowed_monoBg (k : PalKind) (b : Word) (n : Fin 257) (tm : TransparencyClass) (x : List (Color × Fin 256)) : (s.setBorrowed k b n tm x).monoBg = s.monoBg := rfl
@[simp] theorem setBorrowed_palKind (k : PalKind) (b : Word) (n : Fin 257) (tm : TransparencyClass) (x : List (Color × Fin 256)) : (s.setBorrowed k b n tm x).palKind = k := rfl
@[simp] theorem setBorrowed_palBase (k : PalKind) (b : Word) (n : Fin 257) (tm : TransparencyClass) (x : List (Color × Fin 256)) : (s.setBorrowed k b n tm x).palBase = b := rfl
@[simp] theorem setBorrowed_palSize (k : PalKind) (b : Word) (n : Fin 257) (tm : TransparencyClass) (x : List (Color × Fin 256)) : (s.setBorrowed k b n tm x).palSize = n := rfl
@[simp] theorem setBorrowed_palCap (k : PalKind) (b : Word) (n : Fin 257) (tm : TransparencyClass) (x : List (Color × Fin 256)) : (s.setBorrowed k b n tm x).palCap = n := rfl
@[simp] theorem setBorrowed_palTm (k : PalKind) (b : Word) (n : Fin 257) (tm : TransparencyClass) (x : List (Color × Fin 256)) : (s.setBorrowed k b n tm x).palTm = tm := rfl
@[simp] theorem setBorrowed_palRam (k : PalKind) (b : Word) (n : Fin 257) (tm : TransparencyClass) (x : List (Color × Fin 256)) : (s.setBorrowed k b n tm x).palRam = s.palRam := rfl
@[simp] theorem setBorrowed_ridx (k : PalKind) (b : Word) (n : Fin 257) (tm : TransparencyClass) (x : List (Color × Fin 256)) : (s.setBorrowed k b n tm x).ridx = x := rfl
@[simp] theorem setBorrowed_mem (k : PalKind) (b : Word) (n : Fin 257) (tm : TransparencyClass) (x : List (Color × Fin 256)) : (s.setBorrowed k b n tm x).mem = s.mem := rfl
@[simp] theorem setBorrowed_memMap (k : PalKind) (b : Word) (n : Fin 257) (tm : TransparencyClass) (x : List (Color × Fin 256)) : (s.setBorrowed k b n tm x).memMap = s.memMap := rfl
@[simp] theorem setBorrowed_moves (k : PalKind) (b : Word) (n : Fin 257) (tm : TransparencyClass) (x : List (Color × Fin 256)) : (s.setBorrowed k b n tm x).moves = s.moves := rfl

/-! ## setDynamic -/

@[simp] theorem setDynamic_regs (n : Fin 257) : (s.setDynamic n).regs = s.regs := rfl
@[simp] theorem setDynamic_ctrlAssertEn (n : Fin 257) : (s.setDynamic n).ctrlAssertEn = s.ctrlAssertEn := rfl
@[simp] theorem setDynamic_ctrlIrqEn (n : Fin 257) : (s.setDynamic n).ctrlIrqEn = s.ctrlIrqEn := rfl
@[simp] theorem setDynamic_statusFaulted (n : Fin 257) : (s.setDynamic n).statusFaulted = s.statusFaulted := rfl
@[simp] theorem setDynamic_faultCause (n : Fin 257) : (s.setDynamic n).faultCause = s.faultCause := rfl
@[simp] theorem setDynamic_faultCmd (n : Fin 257) : (s.setDynamic n).faultCmd = s.faultCmd := rfl
@[simp] theorem setDynamic_faultInfo (n : Fin 257) : (s.setDynamic n).faultInfo = s.faultInfo := rfl
@[simp] theorem setDynamic_cmdcnt (n : Fin 257) : (s.setDynamic n).cmdcnt = s.cmdcnt := rfl
@[simp] theorem setDynamic_transp565 (n : Fin 257) : (s.setDynamic n).transp565 = s.transp565 := rfl
@[simp] theorem setDynamic_tint (n : Fin 257) : (s.setDynamic n).tint = s.tint := rfl
@[simp] theorem setDynamic_monoFg (n : Fin 257) : (s.setDynamic n).monoFg = s.monoFg := rfl
@[simp] theorem setDynamic_monoBg (n : Fin 257) : (s.setDynamic n).monoBg = s.monoBg := rfl
@[simp] theorem setDynamic_palKind (n : Fin 257) : (s.setDynamic n).palKind = .dynamic := rfl
@[simp] theorem setDynamic_palBase (n : Fin 257) : (s.setDynamic n).palBase = 0 := rfl
@[simp] theorem setDynamic_palSize (n : Fin 257) : (s.setDynamic n).palSize = 0 := rfl
@[simp] theorem setDynamic_palCap (n : Fin 257) : (s.setDynamic n).palCap = n := rfl
@[simp] theorem setDynamic_palTm (n : Fin 257) : (s.setDynamic n).palTm = .kNone := rfl
@[simp] theorem setDynamic_palRam (n : Fin 257) : (s.setDynamic n).palRam = Vector.replicate 256 0 := rfl
@[simp] theorem setDynamic_ridx (n : Fin 257) : (s.setDynamic n).ridx = [] := rfl
@[simp] theorem setDynamic_mem (n : Fin 257) : (s.setDynamic n).mem = s.mem := rfl
@[simp] theorem setDynamic_memMap (n : Fin 257) : (s.setDynamic n).memMap = s.memMap := rfl
@[simp] theorem setDynamic_moves (n : Fin 257) : (s.setDynamic n).moves = s.moves := rfl

/-! ## resetEngine -/

@[simp] theorem resetEngine_regs : (s.resetEngine).regs = Vector.replicate 16 0 := rfl
@[simp] theorem resetEngine_ctrlAssertEn : (s.resetEngine).ctrlAssertEn = true := rfl
@[simp] theorem resetEngine_ctrlIrqEn : (s.resetEngine).ctrlIrqEn = false := rfl
@[simp] theorem resetEngine_statusFaulted : (s.resetEngine).statusFaulted = false := rfl
@[simp] theorem resetEngine_faultCause : (s.resetEngine).faultCause = .none := rfl
@[simp] theorem resetEngine_faultCmd : (s.resetEngine).faultCmd = 0 := rfl
@[simp] theorem resetEngine_faultInfo : (s.resetEngine).faultInfo = 0 := rfl
@[simp] theorem resetEngine_cmdcnt : (s.resetEngine).cmdcnt = 0 := rfl
@[simp] theorem resetEngine_transp565 : (s.resetEngine).transp565 = 0 := rfl
@[simp] theorem resetEngine_tint : (s.resetEngine).tint = 0 := rfl
@[simp] theorem resetEngine_monoFg : (s.resetEngine).monoFg = 0 := rfl
@[simp] theorem resetEngine_monoBg : (s.resetEngine).monoBg = 0 := rfl
@[simp] theorem resetEngine_palKind : (s.resetEngine).palKind = .readOnly := rfl
@[simp] theorem resetEngine_palBase : (s.resetEngine).palBase = 0 := rfl
@[simp] theorem resetEngine_palSize : (s.resetEngine).palSize = 0 := rfl
@[simp] theorem resetEngine_palCap : (s.resetEngine).palCap = 0 := rfl
@[simp] theorem resetEngine_palTm : (s.resetEngine).palTm = .kNone := rfl
@[simp] theorem resetEngine_palRam : (s.resetEngine).palRam = Vector.replicate 256 0 := rfl
@[simp] theorem resetEngine_ridx : (s.resetEngine).ridx = [] := rfl
@[simp] theorem resetEngine_mem : (s.resetEngine).mem = s.mem := rfl
@[simp] theorem resetEngine_memMap : (s.resetEngine).memMap = s.memMap := rfl
@[simp] theorem resetEngine_moves : (s.resetEngine).moves = s.moves := rfl

/-! ## setCsr -/

@[simp] theorem setCsr_regs (n : Csr) (v : Word) : (s.setCsr n v).regs = s.regs := by cases n <;> rfl
@[simp] theorem setCsr_statusFaulted (n : Csr) (v : Word) : (s.setCsr n v).statusFaulted = s.statusFaulted := by cases n <;> rfl
@[simp] theorem setCsr_faultCause (n : Csr) (v : Word) : (s.setCsr n v).faultCause = s.faultCause := by cases n <;> rfl
@[simp] theorem setCsr_faultCmd (n : Csr) (v : Word) : (s.setCsr n v).faultCmd = s.faultCmd := by cases n <;> rfl
@[simp] theorem setCsr_faultInfo (n : Csr) (v : Word) : (s.setCsr n v).faultInfo = s.faultInfo := by cases n <;> rfl
@[simp] theorem setCsr_cmdcnt (n : Csr) (v : Word) : (s.setCsr n v).cmdcnt = s.cmdcnt := by cases n <;> rfl
@[simp] theorem setCsr_palKind (n : Csr) (v : Word) : (s.setCsr n v).palKind = s.palKind := by cases n <;> rfl
@[simp] theorem setCsr_palBase (n : Csr) (v : Word) : (s.setCsr n v).palBase = s.palBase := by cases n <;> rfl
@[simp] theorem setCsr_palSize (n : Csr) (v : Word) : (s.setCsr n v).palSize = s.palSize := by cases n <;> rfl
@[simp] theorem setCsr_palCap (n : Csr) (v : Word) : (s.setCsr n v).palCap = s.palCap := by cases n <;> rfl
@[simp] theorem setCsr_palTm (n : Csr) (v : Word) : (s.setCsr n v).palTm = s.palTm := by cases n <;> rfl
@[simp] theorem setCsr_palRam (n : Csr) (v : Word) : (s.setCsr n v).palRam = s.palRam := by cases n <;> rfl
@[simp] theorem setCsr_ridx (n : Csr) (v : Word) : (s.setCsr n v).ridx = s.ridx := by cases n <;> rfl
@[simp] theorem setCsr_mem (n : Csr) (v : Word) : (s.setCsr n v).mem = s.mem := by cases n <;> rfl
@[simp] theorem setCsr_memMap (n : Csr) (v : Word) : (s.setCsr n v).memMap = s.memMap := by cases n <;> rfl
@[simp] theorem setCsr_moves (n : Csr) (v : Word) : (s.setCsr n v).moves = s.moves := by cases n <;> rfl
@[simp] theorem setCsr_ctrl (v : Word) :
    s.setCsr .ctrl v = { s with ctrlAssertEn := v.getLsbD 0, ctrlIrqEn := v.getLsbD 1 } := rfl
@[simp] theorem setCsr_transp565 (v : Word) : s.setCsr .transp565 v = { s with transp565 := v.truncate 16 } := rfl
@[simp] theorem setCsr_tint (v : Word) : s.setCsr .tint v = { s with tint := v } := rfl
@[simp] theorem setCsr_monoFg (v : Word) : s.setCsr .monoFg v = { s with monoFg := v } := rfl
@[simp] theorem setCsr_monoBg (v : Word) : s.setCsr .monoBg v = { s with monoBg := v } := rfl

/-- A write to a CSR of class RO is ignored (R24). -/
theorem setCsr_of_not_writable (n : Csr) (v : Word) (h : n.writable = false) : s.setCsr n v = s := by
  cases n <;> first | rfl | simp [Csr.writable] at h

/-! ## Reading general registers -/

@[simp] theorem reg_setReg_same (r : Reg) (v : Word) : (s.setReg r v).reg r = v := by
  simp [State.reg]

theorem reg_setReg_ne (r r' : Reg) (v : Word) (h : r' ≠ r) : (s.setReg r v).reg r' = s.reg r' := by
  simp only [State.reg, setReg_regs]
  exact Vector.getElem_set_ne _ _ (fun e => h (Fin.ext e.symm))

/-- What reading a register after a register write gives, in one equation. -/
theorem reg_setReg (r r' : Reg) (v : Word) : (s.setReg r v).reg r' = if r' = r then v else s.reg r' := by
  by_cases h : r' = r
  · simp [h]
  · simp [h, reg_setReg_ne]

@[simp] theorem setRegNat_eq (r : Reg) (v : Nat) : s.setRegNat r v = s.setReg r (BitVec.ofNat 32 v) := rfl

@[simp] theorem reg_takeFault (f : Raise) (w : Word) (r : Reg) : (s.takeFault f w).reg r = s.reg r := rfl
@[simp] theorem reg_clearFault (r : Reg) : (s.clearFault).reg r = s.reg r := rfl
@[simp] theorem reg_count (r : Reg) : (s.count).reg r = s.reg r := rfl
@[simp] theorem reg_setMem (m : List Host.Cell) (r : Reg) : (s.setMem m).reg r = s.reg r := rfl
@[simp] theorem reg_setMoves (ms : List HostMove) (r : Reg) : (s.setMoves ms).reg r = s.reg r := rfl
@[simp] theorem reg_insertColor (c : Color) (i : Fin 256) (r : Reg) : (insertColor s c i).reg r = s.reg r := rfl
@[simp] theorem reg_setBorrowed (k : PalKind) (b : Word) (n : Fin 257) (tm : TransparencyClass) (x : List (Color × Fin 256)) (r : Reg) : (s.setBorrowed k b n tm x).reg r = s.reg r := rfl
@[simp] theorem reg_setDynamic (n : Fin 257) (r : Reg) : (s.setDynamic n).reg r = s.reg r := rfl
@[simp] theorem reg_setCsr (n : Csr) (v : Word) (r : Reg) : (s.setCsr n v).reg r = s.reg r := by
  simp [State.reg]
@[simp] theorem reg_resetEngine (r : Reg) : s.resetEngine.reg r = 0 := by
  simp [State.reg]

/-! ## Reading control and status registers -/

@[simp] theorem csr_setReg (r : Reg) (v : Word) (n : Csr) : (s.setReg r v).csr n = s.csr n := by cases n <;> rfl
theorem csr_takeFault (f : Raise) (w : Word) (n : Csr) (_ : n ≠ .status) (_ : n ≠ .faultCause) (_ : n ≠ .faultCmd) (_ : n ≠ .faultInfo) :
    (s.takeFault f w).csr n = s.csr n := by cases n <;> first | rfl | contradiction
theorem csr_clearFault (n : Csr) (_ : n ≠ .status) (_ : n ≠ .faultCause) (_ : n ≠ .faultCmd) (_ : n ≠ .faultInfo) :
    (s.clearFault).csr n = s.csr n := by cases n <;> first | rfl | contradiction
theorem csr_count (n : Csr) (_ : n ≠ .cmdcnt) :
    (s.count).csr n = s.csr n := by cases n <;> first | rfl | contradiction
@[simp] theorem csr_setMem (m : List Host.Cell) (n : Csr) : (s.setMem m).csr n = s.csr n := by cases n <;> rfl
@[simp] theorem csr_setMoves (ms : List HostMove) (n : Csr) : (s.setMoves ms).csr n = s.csr n := by cases n <;> rfl
theorem csr_insertColor (c : Color) (i : Fin 256) (n : Csr) (_ : n ≠ .palSize) (_ : n ≠ .palTm) :
    (insertColor s c i).csr n = s.csr n := by cases n <;> first | rfl | contradiction

/-- A CSR of class RW reads back what was written, reduced to the bits it has; every other CSR is unchanged. -/
theorem csr_setCsr_ne (n n' : Csr) (v : Word) (h : n' ≠ n) : (s.setCsr n v).csr n' = s.csr n' := by
  cases n <;> cases n' <;> first | rfl | contradiction

end Sys2Proof.Machine
end

