-- ==== Sys2Proof/Laws/Ops.lean ====
section
/-! SUPPORT. What each shared operation can do, said once: the command frame, the checks, a checked colour read. -/

namespace Sys2Proof.Machine

/-! ## Computations that may raise -/

/-- A sequence completes exactly when both parts do. -/
theorem Exec.bind_eq_ok {α β : Type} {x : Exec α} {f : α → Exec β} {b : β} :
    (x >>= f) = .ok b ↔ ∃ a, x = .ok a ∧ f a = .ok b := by
  cases x with
  | error e => simp [bind, Except.bind]
  | ok a => simp [bind, Except.bind]

/-- A sequence raises what its first part raises, or what its second part does after the first completed. -/
theorem Exec.bind_eq_error {α β : Type} {x : Exec α} {f : α → Exec β} {e : Raise} :
    (x >>= f) = .error e ↔ x = .error e ∨ ∃ a, x = .ok a ∧ f a = .error e := by
  cases x with
  | error e' => simp [bind, Except.bind]
  | ok a => simp [bind, Except.bind]

@[simp] theorem Exec.ok_bind {α β : Type} (a : α) (f : α → Exec β) : ((.ok a : Exec α) >>= f) = f a := rfl

@[simp] theorem Exec.error_bind {α β : Type} (e : Raise) (f : α → Exec β) :
    ((.error e : Exec α) >>= f) = .error e := rfl

/-! ## The command frame (R64, R324) -/

@[simp] theorem runCommand_ok (i : Instr) (s t : State) (h : i.wellFormed = true) :
    runCommand i s (.ok t) = .next t.count := by simp [runCommand, h]

@[simp] theorem runCommand_error (i : Instr) (s : State) (f : Raise) (h : i.wellFormed = true) :
    runCommand i s (.error f) = .next (s.takeFault f (encode i)) := by simp [runCommand, h]

theorem runCommand_illFormed (i : Instr) (s : State) (b : Exec State) (h : i.wellFormed = false) :
    runCommand i s b = .next (s.takeFault .illegalCommand (encode i)) := by simp [runCommand, h]

/-- All that the frame can do: count a body that completed, take a fault that the body raised, or refuse an
ill-formed term with IllegalCommand. -/
theorem runCommand_cases {i : Instr} {s t : State} {b : Exec State} (h : runCommand i s b = .next t) :
    (i.wellFormed = true ∧ ∃ u, b = .ok u ∧ t = u.count) ∨
      (i.wellFormed = true ∧ ∃ f, b = .error f ∧ t = s.takeFault f (encode i)) ∨
      (i.wellFormed = false ∧ t = s.takeFault .illegalCommand (encode i)) := by
  cases hw : i.wellFormed with
  | false =>
    rw [runCommand_illFormed i s b hw] at h
    injection h with h
    exact .inr (.inr ⟨rfl, h.symm⟩)
  | true =>
    cases b with
    | ok u =>
      rw [runCommand_ok i s u hw] at h
      injection h with h
      exact .inl ⟨rfl, u, rfl, h.symm⟩
    | error f =>
      rw [runCommand_error i s f hw] at h
      injection h with h
      exact .inr (.inl ⟨rfl, f, rfl, h.symm⟩)

/-- The frame always answers a next state. -/
theorem runCommand_answers (i : Instr) (s : State) (b : Exec State) : ∃ t, runCommand i s b = .next t := by
  cases hw : i.wellFormed with
  | false => exact ⟨_, runCommand_illFormed i s b hw⟩
  | true =>
    cases b with
    | ok u => exact ⟨_, runCommand_ok i s u hw⟩
    | error f => exact ⟨_, runCommand_error i s f hw⟩

/-! ## Checks -/

theorem checkAccess_eq_ok_iff (s : State) (k : Access) (a len : Nat) :
    checkAccess s k a len = .ok () ↔ ∀ c, a ≤ c → c < a + len → accessible s.memMap k c = true := by
  unfold checkAccess
  rw [← firstBad_eq_none_iff]
  cases firstBad s.memMap k a len <;> simp

theorem checkAccess_eq_error_iff (s : State) (k : Access) (a len : Nat) (e : Raise) :
    checkAccess s k a len = .error e ↔ ∃ b, e = .accessFault b ∧ a ≤ b ∧ b < a + len ∧
      accessible s.memMap k b = false ∧ ∀ c, a ≤ c → c < b → accessible s.memMap k c = true := by
  unfold checkAccess
  cases h : firstBad s.memMap k a len with
  | none =>
    rw [firstBad_eq_none_iff] at h
    constructor
    · intro he
      contradiction
    · rintro ⟨b, _, h1, h2, h3, _⟩
      rw [h b h1 h2] at h3
      contradiction
  | some b =>
    have hb := (firstBad_eq_some_iff s.memMap k a len b).mp h
    constructor
    · intro he
      injection he with he
      exact ⟨b, he.symm, hb⟩
    · rintro ⟨b', rfl, h'⟩
      have := (firstBad_eq_some_iff s.memMap k a len b').mpr h'
      rw [h] at this
      injection this with this
      rw [this]

/-- A range that is checked lies inside the address space. -/
theorem range_le_of_check {s : State} {k : Access} {a len : Nat} (h : checkAccess s k a len = .ok ())
    (hl : 0 < len) : a + len ≤ Config.addressSpace := by
  have := (checkAccess_eq_ok_iff s k a len).mp h (a + len - 1) (by omega) (by omega)
  have := ((accessible_iff _ _ _).mp this).1
  omega

@[simp] theorem checkBelow_eq_ok_iff (v : Word) (n : Nat) : checkBelow v n = .ok () ↔ v.toNat < n := by
  unfold checkBelow
  split_ifs with h <;> simp [h]

@[simp] theorem checkBelow_eq_error_iff (v : Word) (n : Nat) (e : Raise) :
    checkBelow v n = .error e ↔ n ≤ v.toNat ∧ e = .operandRange v := by
  unfold checkBelow
  split_ifs with h
  · simp
    omega
  · constructor
    · intro he
      injection he with he
      exact ⟨by omega, he.symm⟩
    · rintro ⟨_, rfl⟩
      rfl

theorem sizeOperand_eq_ok_iff (v : Word) (n : Fin 257) : sizeOperand v = .ok n ↔ n.val = v.toNat := by
  unfold sizeOperand
  split_ifs with h
  · constructor
    · intro he
      injection he with he
      rw [← he]
    · intro he
      congr 1
      exact Fin.ext he.symm
  · constructor
    · intro he
      contradiction
    · intro he
      have := n.isLt
      omega

theorem sizeOperand_eq_error_iff (v : Word) (e : Raise) :
    sizeOperand v = .error e ↔ 256 < v.toNat ∧ e = .operandRange v := by
  unfold sizeOperand
  split_ifs with h
  · simp
    omega
  · constructor
    · intro he
      injection he with he
      exact ⟨by omega, he.symm⟩
    · rintro ⟨_, rfl⟩
      rfl

/-- A checked colour read completes exactly on four readable bytes, with the word there. -/
theorem readColor_eq_ok_iff (s : State) (a : Nat) (c : Color) :
    readColor s a = .ok c ↔
      (∀ x, a ≤ x → x < a + 4 → accessible s.memMap .read x = true) ∧ c = Memory.loadColor s.mem a := by
  unfold readColor
  rw [Exec.bind_eq_ok]
  constructor
  · rintro ⟨u, h1, h2⟩
    injection h2 with h2
    exact ⟨(checkAccess_eq_ok_iff s .read a 4).mp h1, h2.symm⟩
  · rintro ⟨h1, rfl⟩
    exact ⟨(), (checkAccess_eq_ok_iff s .read a 4).mpr h1, rfl⟩

/-- A checked colour read raises AccessFault at the lowest byte that cannot be read. -/
theorem readColor_eq_error_iff (s : State) (a : Nat) (e : Raise) :
    readColor s a = .error e ↔ ∃ b, e = .accessFault b ∧ a ≤ b ∧ b < a + 4 ∧
      accessible s.memMap .read b = false ∧ ∀ x, a ≤ x → x < b → accessible s.memMap .read x = true := by
  unfold readColor
  rw [Exec.bind_eq_error, checkAccess_eq_error_iff]
  constructor
  · rintro (h | ⟨_, _, h⟩)
    · exact h
    · contradiction
  · exact .inl

end Sys2Proof.Machine
end

