-- ==== Sys2Proof/Laws/Bytes.lean ====
section
/-! SUPPORT. Words and raw pixels as they stand in memory, byte by byte (R61): what the loads and stores of the
machine have to do with the predicates WordAt and PixelAt. -/

namespace Sys2Proof.Machine

/-- A word of memory is the colour that is loaded from there (R61(a)). -/
theorem wordAt_iff (m : List Host.Cell) (a : Nat) (c : Color) : WordAt m a c ↔ Memory.loadColor m a = c := by
  have hc := c.isLt
  constructor
  · intro h
    have h0 := h 0 (by omega)
    have h1 := h 1 (by omega)
    have h2 := h 2 (by omega)
    have h3 := h 3 (by omega)
    apply BitVec.eq_of_toNat_eq
    rw [Memory.toNat_loadColor]
    simp only [Nat.add_zero] at h0
    omega
  · rintro rfl k hk
    have := Memory.toNat_loadColor m a
    have b0 := (Memory.read m a).isLt
    have b1 := (Memory.read m (a+1)).isLt
    have b2 := (Memory.read m (a+2)).isLt
    have b3 := (Memory.read m (a+3)).isLt
    obtain rfl | rfl | rfl | rfl : k = 0 ∨ k = 1 ∨ k = 2 ∨ k = 3 := by omega
    all_goals (try simp only [Nat.add_zero]); omega

/-- The bytes of the number that a list of bytes stands for, least significant first, are those of the list (R61). -/
theorem byte_ofBytesLE (bs : List Byte) (k : Nat) (hk : k < bs.length) : ofBytesLE bs / 256 ^ k % 256 = bs[k].toNat := by
  induction bs generalizing k with
  | nil => simp at hk
  | cons b bs ih =>
    have hb := b.isLt
    cases k with
    | zero => simp [ofBytesLE]; omega
    | succ k =>
      have : (b.toNat + 256 * ofBytesLE bs) / 256 ^ (k+1) = ofBytesLE bs / 256 ^ k := by
        rw [Nat.pow_succ, Nat.mul_comm (256 ^ k) 256, ← Nat.div_div_eq_div_mul]
        congr 1; omega
      simp only [ofBytesLE, this, List.getElem_cons_succ]
      exact ih k (by simpa using hk)

/-- The bytes read from an address are the bytes that stand there. -/
theorem getElem_readBytes (m : List Host.Cell) (a n k : Nat) (hk : k < n) : (Memory.readBytes m a n)[k]'(by simpa using hk) = Memory.read m (a+k) := by
  induction n generalizing a k with
  | zero => omega
  | succ n ih =>
    cases k with
    | zero => rfl
    | succ k =>
      simp only [Memory.readBytes, List.getElem_cons_succ]
      rw [ih (a+1) k (by omega)]; congr 1; omega

/-- The raw pixel that is loaded stands in memory (R61(b)). -/
theorem pixelAt_load (m : List Host.Cell) (a n : Nat) (bo : ByteOrder) : PixelAt m a n bo (Memory.load m a n bo) := by
  intro k hk
  cases bo with
  | le =>
    have := byte_ofBytesLE (Memory.readBytes m a n) k (by simpa using hk)
    rw [getElem_readBytes m a n k hk] at this
    exact this.symm
  | be =>
    have := byte_ofBytesLE (Memory.readBytes m a n).reverse (n-1-k) (by simp; omega)
    rw [List.getElem_reverse] at this
    simp only [Memory.length_readBytes] at this
    rw [getElem_readBytes m a n _ (by omega)] at this
    rw [show n - 1 - (n - 1 - k) = k by omega] at this
    exact this.symm

/-- The bytes of memory determine a raw pixel up to its width (R61(b)). -/
theorem pixelAt_unique {m a n bo v w} (h1 : PixelAt m a n bo v) (h2 : PixelAt m a n bo w) : v % 256 ^ n = w % 256 ^ n := by
  have key : ∀ k, k < n → v / 256 ^ k % 256 = w / 256 ^ k % 256 := by
    intro k hk
    cases bo with
    | le => have a := h1 k hk; have b := h2 k hk; exact a.symm.trans b
    | be =>
      have a := h1 (n-1-k) (by omega); have b := h2 (n-1-k) (by omega)
      simp only [show n - 1 - (n - 1 - k) = k by omega] at a b
      exact a.symm.trans b
  clear h1 h2
  induction n generalizing v w with
  | zero => simp [Nat.mod_one]
  | succ n ih =>
    have h0 := key 0 (by omega)
    have := @ih (v/256) (w/256) (fun k hk => by
      have := key (k+1) (by omega)
      rwa [Nat.pow_succ, Nat.mul_comm, ← Nat.div_div_eq_div_mul, ← Nat.div_div_eq_div_mul] at this)
    rw [Nat.pow_succ, Nat.mul_comm, Nat.mod_mul, Nat.mod_mul, this]
    simp at h0
    omega

/-- A raw pixel that is stored stands in memory (R61(b)). -/
theorem pixelAt_store {m : List Host.Cell} {a n : Nat} (v bo) (h : Memory.wf m = true) (ha : a + n ≤ Config.addressSpace) :
   PixelAt (Memory.store m a n v bo) a n bo v := by
  intro k hk
  rw [Memory.read_store_inside v bo h ha k hk]
  cases bo <;> simp

/-- A good range that is not empty ends inside the address space (R60, R63). -/
theorem range_le {s : State} {k a len} (h : RangeOk s k a len) (hl : 0 < len) : a + len ≤ Config.addressSpace :=
  range_le_of_check ((checkAccess_eq_ok_iff s k a len).mpr h) hl

end Sys2Proof.Machine
end

