-- ==== Sys2Proof/Laws/Palette.lean ====
section
/-! SUPPORT. The palette: what an entry lookup, a reverse lookup and a build of the reverse index can do. -/

namespace Sys2Proof.Machine

/-! ## Classes -/

theorem TransparencyClass.code_inj {x y : TransparencyClass} (h : x.code = y.code) : x = y := by
  cases x <;> cases y <;> first | rfl | simp [TransparencyClass.code] at h

/-- `join` is the maximum of the codes (R161). -/
theorem TransparencyClass.code_join (x y : TransparencyClass) : (x.join y).code = max x.code y.code := by
  cases x <;> cases y <;> rfl

theorem TransparencyClass.join_eq (x y : TransparencyClass) : x.join y = x ∨ x.join y = y := by
  cases x <;> cases y <;> simp [TransparencyClass.join, TransparencyClass.code]

/-- `AutoTM` bounds every class of the list and is one of them, or kNone (R295). -/
theorem autoClass_spec (cs : List Color) :
    (∀ c ∈ cs, (classOf c).code ≤ (autoClass cs).code) ∧
      (autoClass cs = .kNone ∨ ∃ c ∈ cs, classOf c = autoClass cs) := by
  induction cs with
  | nil => simp [autoClass]
  | cons c cs ih =>
    simp only [autoClass, List.mem_cons, forall_eq_or_imp]
    refine ⟨⟨?_, fun x hx => ?_⟩, ?_⟩
    · rw [TransparencyClass.code_join]
      omega
    · have := ih.1 x hx
      rw [TransparencyClass.code_join]
      omega
    · rcases TransparencyClass.join_eq (classOf c) (autoClass cs) with h | h
      · exact .inr ⟨c, .inl rfl, h.symm⟩
      · rw [h]
        rcases ih.2 with h' | ⟨x, hx, h'⟩
        · exact .inl h'
        · exact .inr ⟨x, .inr hx, h'⟩

/-! ## The reverse index -/

theorem ridxLookup_append (m : List (Color × Fin 256)) (c d : Color) (i : Fin 256) :
    ridxLookup (m ++ [(d, i)]) c =
      match ridxLookup m c with
      | some k => some k
      | none => if d = c then some i else none := by
  induction m with
  | nil => simp [ridxLookup]
  | cons p m ih =>
    obtain ⟨k, j⟩ := p
    simp only [List.cons_append, ridxLookup]
    by_cases h : k = c
    · simp [h]
    · simp [h, ih]

theorem ridxLookup_mem {m : List (Color × Fin 256)} {c : Color} {i : Fin 256} (h : ridxLookup m c = some i) :
    (c, i) ∈ m := by
  induction m with
  | nil => simp [ridxLookup] at h
  | cons p m ih =>
    obtain ⟨k, j⟩ := p
    simp only [ridxLookup] at h
    split_ifs at h with hk
    · injection h with h
      simp [hk, h]
    · exact List.mem_cons_of_mem _ (ih h)

/-- What a build adds (R297): a colour already known keeps its index, a new one gets the lowest index at which it
occurs in the list, counted from `i`. -/
theorem ridxLookup_buildIndex (cs : List Color) (m : List (Color × Fin 256)) (i : Nat) (c : Color)
    (hi : i + cs.length ≤ 256) (k : Fin 256) :
    ridxLookup (buildIndex m i cs) c = some k ↔
      ridxLookup m c = some k ∨
        (ridxLookup m c = none ∧ ∃ j, ∃ hj : j < cs.length, k.val = i + j ∧ cs[j] = c ∧
          ∀ l (hl : l < j), cs[l] ≠ c) := by
  induction cs generalizing m i with
  | nil => simp [buildIndex]
  | cons d cs ih =>
    simp only [List.length_cons] at hi
    have hval : (Fin.ofNat 256 i).val = i := by
      simp only [Fin.ofNat]
      omega
    have key : ∀ m' : List (Color × Fin 256),
        ridxLookup (buildIndex m' (i + 1) cs) c = some k ↔
          ridxLookup m' c = some k ∨ (ridxLookup m' c = none ∧ ∃ j, ∃ hj : j < cs.length,
            k.val = i + 1 + j ∧ cs[j] = c ∧ ∀ l (hl : l < j), cs[l] ≠ c) := fun m' => ih m' (i + 1) (by omega)
    have shift : d ≠ c → ((∃ j, ∃ hj : j < (d :: cs).length, k.val = i + j ∧ (d :: cs)[j] = c ∧
          ∀ l (hl : l < j), (d :: cs)[l] ≠ c) ↔
        (∃ j, ∃ hj : j < cs.length, k.val = i + 1 + j ∧ cs[j] = c ∧ ∀ l (hl : l < j), cs[l] ≠ c)) := by
      intro hd
      constructor
      · rintro ⟨j, hj, h1, h2, h3⟩
        cases j with
        | zero => exact absurd h2 hd
        | succ j =>
          simp only [List.length_cons] at hj
          refine ⟨j, by omega, by omega, by simpa using h2, fun l hl => ?_⟩
          have := h3 (l + 1) (by omega)
          simpa using this
      · rintro ⟨j, hj, h1, h2, h3⟩
        refine ⟨j + 1, by simpa using hj, by omega, by simpa using h2, fun l hl => ?_⟩
        cases l with
        | zero => exact hd
        | succ l => simpa using h3 l (by omega)
    simp only [buildIndex]
    cases hd : ridxLookup m d with
    | some q =>
      simp only []
      rw [key]
      by_cases hdc : d = c
      · subst hdc
        simp [hd]
      · rw [shift hdc]
    | none =>
      simp only []
      rw [key, ridxLookup_append]
      by_cases hdc : d = c
      · subst hdc
        rw [hd]
        simp only [if_true, reduceCtorEq, false_and, or_false, Option.some.injEq, false_or, true_and]
        constructor
        · intro hk
          refine ⟨0, by simp, ?_, rfl, fun l hl => by omega⟩
          rw [← hk, hval]
          rfl
        · rintro ⟨j, hj, h1, h2, h3⟩
          cases j with
          | zero => exact Fin.ext (by rw [hval]; omega)
          | succ j => exact absurd rfl (h3 0 (by omega))
      · rw [shift hdc]
        cases ridxLookup m c <;> simp [hdc]

/-! ## Lookup -/

theorem palColor_dynamic (s : State) (i : Nat) (h : s.palKind = .dynamic) :
    palColor s i = .ok s.palRam[(Fin.ofNat 256 i).val] := by simp [palColor, h]

theorem palColor_borrowed (s : State) (i : Nat) (h : s.palKind ≠ .dynamic) :
    palColor s i = readColor s (s.palBase.toNat + 4 * i) := by
  cases hk : s.palKind <;> simp [palColor, hk] at h ⊢

/-- All that a reverse lookup can do (R293): a hit, a silent 0, an insertion at the next index, or PaletteAssert. -/
theorem indexOfColor_cases (s : State) (c : Color) :
    (s.palKind = .readOnly ∧ s.ctrlAssertEn = true ∧ indexOfColor s c = .error (.paletteAssert c)) ∨
      (s.palKind = .readOnly ∧ s.ctrlAssertEn = false ∧ indexOfColor s c = .ok (0, s)) ∨
      (s.palKind ≠ .readOnly ∧ ∃ i, ridxLookup s.ridx c = some i ∧ indexOfColor s c = .ok (i.val, s)) ∨
      (s.palKind = .readWrite ∧ ridxLookup s.ridx c = none ∧ indexOfColor s c = .ok (0, s)) ∨
      (s.palKind = .dynamic ∧ ridxLookup s.ridx c = none ∧ s.palCap.val ≤ s.palSize.val ∧
        indexOfColor s c = .ok (0, s)) ∨
      (s.palKind = .dynamic ∧ ridxLookup s.ridx c = none ∧ ∃ i : Fin 256, i.val = s.palSize.val ∧
        s.palSize.val < s.palCap.val ∧ indexOfColor s c = .ok (i.val, insertColor s c i)) := by
  cases hk : s.palKind with
  | readOnly => cases ha : s.ctrlAssertEn <;> simp [indexOfColor, hk, ha]
  | readWrite => cases hr : ridxLookup s.ridx c <;> simp [indexOfColor, hk, hr]
  | dynamic =>
    cases hr : ridxLookup s.ridx c with
    | some i => simp [indexOfColor, hk, hr]
    | none =>
      by_cases hc : s.palSize.val < s.palCap.val
      · refine .inr (.inr (.inr (.inr (.inr ⟨rfl, rfl, ⟨s.palSize.val, ?_⟩, rfl, hc, ?_⟩))))
        · have := s.palCap.isLt
          omega
        · simp only [indexOfColor, hk, hr, dif_pos hc]
      · refine .inr (.inr (.inr (.inr (.inl ⟨rfl, rfl, by omega, ?_⟩))))
        simp only [indexOfColor, hk, hr, dif_neg hc]

/-- The state a reverse lookup leaves is the state it was given, or that with one insertion. -/
theorem indexOfColor_state {s t : State} {c : Color} {n : Nat} (h : indexOfColor s c = .ok (n, t)) :
    t = s ∨ ∃ i : Fin 256, t = insertColor s c i ∧ s.palKind = .dynamic ∧ i.val = s.palSize.val ∧
      s.palSize.val < s.palCap.val ∧ ridxLookup s.ridx c = none := by
  rcases indexOfColor_cases s c with ⟨_, _, e⟩ | ⟨_, _, e⟩ | ⟨_, i, _, e⟩ | ⟨_, _, e⟩ | ⟨_, _, _, e⟩ | ⟨hk, hr, i, hi, hc, e⟩
  all_goals rw [e] at h
  · contradiction
  all_goals
    simp only [Except.ok.injEq, Prod.mk.injEq] at h
    first
      | exact .inl h.2.symm
      | exact .inr ⟨i, h.2.symm, hk, hi, hc, hr⟩

/-- A reverse lookup raises PaletteAssert only, on a ReadOnly palette with ASSERT_EN set (R325). -/
theorem indexOfColor_eq_error_iff (s : State) (c : Color) (e : Raise) :
    indexOfColor s c = .error e ↔ s.palKind = .readOnly ∧ s.ctrlAssertEn = true ∧ e = .paletteAssert c := by
  rcases indexOfColor_cases s c with ⟨h1, h2, e'⟩ | ⟨h1, h2, e'⟩ | ⟨h1, i, _, e'⟩ | ⟨h1, _, e'⟩ | ⟨h1, _, _, e'⟩ | ⟨h1, _, i, _, _, e'⟩ <;>
    rw [e']
  · exact ⟨fun h => ⟨h1, h2, (Except.error.inj h).symm⟩, fun h => by rw [h.2.2]⟩
  · exact ⟨fun h => (nomatch h), fun h => by rw [h2] at h; exact (nomatch h.2.1)⟩
  · exact ⟨fun h => (nomatch h), fun h => absurd h.1 h1⟩
  · exact ⟨fun h => (nomatch h), fun h => by rw [h1] at h; exact (nomatch h.1)⟩
  · exact ⟨fun h => (nomatch h), fun h => by rw [h1] at h; exact (nomatch h.1)⟩
  · exact ⟨fun h => (nomatch h), fun h => by rw [h1] at h; exact (nomatch h.1)⟩

/-- The index a reverse lookup answers is below 256. -/
theorem indexOfColor_lt {s t : State} {c : Color} {n : Nat} (h : indexOfColor s c = .ok (n, t)) : n < 256 := by
  rcases indexOfColor_cases s c with ⟨_, _, e⟩ | ⟨_, _, e⟩ | ⟨_, i, _, e⟩ | ⟨_, _, e⟩ | ⟨_, _, _, e⟩ | ⟨_, _, i, _, _, e⟩
  all_goals rw [e] at h
  · contradiction
  all_goals
    simp only [Except.ok.injEq, Prod.mk.injEq] at h
    omega

theorem readArray_eq_ok_iff (s : State) (b : Word) (n : Fin 257) (cs : List Color) :
    readArray s b n = .ok cs ↔
      (∀ x, b.toNat ≤ x → x < b.toNat + 4 * n.val → accessible s.memMap .read x = true) ∧
        cs = Memory.loadColors s.mem b.toNat n.val := by
  unfold readArray
  rw [Exec.bind_eq_ok]
  constructor
  · rintro ⟨u, h1, h2⟩
    injection h2 with h2
    exact ⟨(checkAccess_eq_ok_iff s .read _ _).mp h1, h2.symm⟩
  · rintro ⟨h1, rfl⟩
    exact ⟨(), (checkAccess_eq_ok_iff s .read _ _).mpr h1, rfl⟩

theorem readArray_eq_error_iff (s : State) (b : Word) (n : Fin 257) (e : Raise) :
    readArray s b n = .error e ↔ ∃ x, e = .accessFault x ∧ b.toNat ≤ x ∧ x < b.toNat + 4 * n.val ∧
      accessible s.memMap .read x = false ∧ ∀ y, b.toNat ≤ y → y < x → accessible s.memMap .read y = true := by
  unfold readArray
  rw [Exec.bind_eq_error, checkAccess_eq_error_iff]
  constructor
  · rintro (h | ⟨_, _, h⟩)
    · exact h
    · contradiction
  · exact .inl

end Sys2Proof.Machine
end

