-- ==== Sys2Proof/Laws/Codec.lean ====
section
/-! SUPPORT. The codecs: what decoding a raw pixel and encoding a colour can do, in the words of Sys2Proof/Safety.lean,
and the arithmetic of channels. -/

namespace Sys2Proof.Machine

/-! ## Channels -/

theorem alphaOf_eq (c : Color) : alphaOf c = c.toNat / 2 ^ 24 := by
  have := c.isLt
  simp only [alphaOf, slice]
  omega

theorem redOf_eq (c : Color) : redOf c = c.toNat / 2 ^ 16 % 2 ^ 8 := rfl

theorem greenOf_eq (c : Color) : greenOf c = c.toNat / 2 ^ 8 % 2 ^ 8 := rfl

theorem blueOf_eq (c : Color) : blueOf c = c.toNat % 2 ^ 8 := by simp [blueOf, slice]

theorem rgbOf_eq (c : Color) : rgbOf c = c.toNat % 2 ^ 24 := by simp [rgbOf, slice]

theorem alphaOf_lt (c : Color) : alphaOf c < 256 := by
  have := c.isLt
  rw [alphaOf_eq]
  omega

theorem redOf_lt (c : Color) : redOf c < 256 := by
  rw [redOf_eq]
  omega

theorem greenOf_lt (c : Color) : greenOf c < 256 := by
  rw [greenOf_eq]
  omega

theorem blueOf_lt (c : Color) : blueOf c < 256 := by
  rw [blueOf_eq]
  omega

/-- A colour as the sum of its channels. -/
theorem toNat_eq_channels (c : Color) :
    c.toNat = alphaOf c * 2 ^ 24 + redOf c * 2 ^ 16 + greenOf c * 2 ^ 8 + blueOf c := by
  have := c.isLt
  rw [alphaOf_eq, redOf_eq, greenOf_eq, blueOf_eq]
  omega

/-- `ARGB` masks its four arguments (R7). -/
theorem toNat_argb (a r g b : Nat) :
    (argb a r g b).toNat = a % 256 * 2 ^ 24 + r % 256 * 2 ^ 16 + g % 256 * 2 ^ 8 + b % 256 := by
  simp only [argb, BitVec.toNat_ofNat]
  omega

theorem alphaOf_argb (a r g b : Nat) : alphaOf (argb a r g b) = a % 256 := by
  rw [alphaOf_eq, toNat_argb]
  omega

theorem redOf_argb (a r g b : Nat) : redOf (argb a r g b) = r % 256 := by
  rw [redOf_eq, toNat_argb]
  omega

theorem greenOf_argb (a r g b : Nat) : greenOf (argb a r g b) = g % 256 := by
  rw [greenOf_eq, toNat_argb]
  omega

theorem blueOf_argb (a r g b : Nat) : blueOf (argb a r g b) = b % 256 := by
  rw [blueOf_eq, toNat_argb]
  omega

/-- Two colours with the same four channels are equal. -/
theorem color_ext {c d : Color} (ha : alphaOf c = alphaOf d) (hr : redOf c = redOf d) (hg : greenOf c = greenOf d)
    (hb : blueOf c = blueOf d) : c = d := by
  apply BitVec.eq_of_toNat_eq
  rw [toNat_eq_channels c, toNat_eq_channels d, ha, hr, hg, hb]

theorem ofNat_eq_iff {n : Nat} (c : Color) (h : n < 2 ^ 32) : BitVec.ofNat 32 n = c ↔ c.toNat = n := by
  constructor
  · rintro rfl
    simp only [BitVec.toNat_ofNat]
    omega
  · intro hc
    apply BitVec.eq_of_toNat_eq
    simp only [BitVec.toNat_ofNat]
    omega

theorem argb_eq_iff {a r g b : Nat} (c : Color) (ha : a < 256) (hr : r < 256) (hg : g < 256) (hb : b < 256) :
    argb a r g b = c ↔ HasChannels c a r g b := by
  unfold HasChannels
  constructor
  · rintro rfl
    rw [toNat_argb]
    omega
  · intro hc
    apply BitVec.eq_of_toNat_eq
    rw [toNat_argb]
    omega

/-! ## Classes -/

theorem code_classOf (c : Color) : (classOf c).code = colorClass c := by
  unfold classOf colorClass
  split_ifs <;> rfl

/-! ## Decoding (R164, R197) -/

theorem bitsPerPixel_le (cm : ColorMode) : bitsPerPixel cm ≤ 32 := by cases cm <;> decide

/-- A palette entry is read as the entry it is, or raises AccessFault at its lowest bad address (R292). -/
theorem palColor_eq_ok_iff (s : State) (i : Nat) (c : Color) (hi : i < 256) : palColor s i = .ok c ↔ EntryIs s i c := by
  unfold EntryIs
  by_cases hk : s.palKind = .dynamic
  · rw [palColor_dynamic s i hk]
    have hv : (Fin.ofNat 256 i).val = i := by
      simp only [Fin.ofNat]
      omega
    simp only [hv, Except.ok.injEq, hk, true_and, ne_eq, not_true_eq_false, false_and, or_false]
    exact ⟨fun h => ⟨hi, h.symm⟩, fun ⟨_, h⟩ => h.symm⟩
  · rw [palColor_borrowed s i hk, readColor_eq_ok_iff]
    simp only [hk, false_and, false_or, ne_eq, not_false_eq_true, true_and]
    rfl

theorem palColor_eq_error_iff (s : State) (i : Nat) (e : Raise) :
    palColor s i = .error e ↔
      s.palKind ≠ .dynamic ∧ ∃ b, e = .accessFault b ∧ LowestBad s .read (s.palBase.toNat + 4 * i) 4 b := by
  by_cases hk : s.palKind = .dynamic
  · rw [palColor_dynamic s i hk]
    simp [hk]
  · rw [palColor_borrowed s i hk, readColor_eq_error_iff]
    simp only [hk, ne_eq, not_false_eq_true, true_and]
    rfl

theorem rgb565ToArgb_eq_iff (v : Nat) (c : Color) (hv : v < 2 ^ 16) :
    rgb565ToArgb v = c ↔
      HasChannels c 255 (fiveToEight (v / 2 ^ 11)) (sixToEight (v / 2 ^ 5 % 2 ^ 6)) (fiveToEight (v % 2 ^ 5)) := by
  have h1 : slice v 15 11 = v / 2 ^ 11 := by
    simp only [slice]
    omega
  have h2 : slice v 4 0 = v % 2 ^ 5 := by simp [slice]
  rw [rgb565ToArgb, h1, h2]
  simp only [slice, expand5, expand6, fiveToEight, sixToEight]
  exact argb_eq_iff c (by omega) (by omega) (by omega) (by omega)

/-- Decoding answers exactly the colour that the mode's rule gives (R164). -/
theorem toArgb_eq_ok_iff (s : State) (cm : ColorMode) (raw : Nat) (c : Color) :
    toArgb s cm raw = .ok c ↔ DecodesTo s cm raw c := by
  have hv : raw % 2 ^ bitsPerPixel cm < 2 ^ bitsPerPixel cm := Nat.mod_lt _ (Nat.two_pow_pos _)
  have ht := s.tint.isLt
  unfold toArgb DecodesTo
  dsimp only
  generalize raw % 2 ^ bitsPerPixel cm = v at hv ⊢
  cases cm <;> simp only [bitsPerPixel] at hv ⊢
  case argb8888 => rw [Except.ok.injEq, ofNat_eq_iff _ hv]
  case rgba8888 =>
    have h1 : v / 2 ^ 24 = v / 2 ^ 16 / 2 ^ 8 := by omega
    have h2 : v / 2 ^ 16 = v / 2 ^ 8 / 2 ^ 8 := by omega
    simp only [slice, Nat.reduceAdd, Nat.reduceSub, Nat.pow_zero, Nat.div_one]
    rw [Except.ok.injEq, HasChannels, ofNat_eq_iff] <;> omega
  case rgb888 =>
    have h2 : v / 2 ^ 16 = v / 2 ^ 8 / 2 ^ 8 := by omega
    rw [Except.ok.injEq, HasChannels, ofNat_eq_iff] <;> omega
  case argb6666 =>
    rw [Except.ok.injEq]
    simp only [slice, expand6, sixToEight, Nat.reduceAdd, Nat.reduceSub, Nat.pow_zero, Nat.div_one]
    rw [Nat.mod_eq_of_lt (show v / 2 ^ 18 < 2 ^ 6 by omega)]
    exact argb_eq_iff _ (by omega) (by omega) (by omega) (by omega)
  case argb4444 =>
    rw [Except.ok.injEq]
    simp only [slice, expand4, Nat.reduceAdd, Nat.reduceSub, Nat.pow_zero, Nat.div_one]
    rw [argb_eq_iff _ (by omega) (by omega) (by omega) (by omega)]
    unfold HasChannels
    omega
  case rgb565 => rw [Except.ok.injEq, rgb565ToArgb_eq_iff _ _ hv]
  case rgb565t =>
    have he : (s.csr .transp565).toNat = s.transp565.toNat := by
      have := s.transp565.isLt
      simp only [State.csr, BitVec.truncate_eq_setWidth, BitVec.toNat_setWidth]
      omega
    rw [Except.ok.injEq, he]
    split_ifs with h1 h2 h2
    · exact eq_comm
    · exact absurd h1.symm h2
    · exact absurd h2.symm h1
    · exact rgb565ToArgb_eq_iff _ _ hv
  case gray8 => rw [Except.ok.injEq, HasChannels, ofNat_eq_iff] <;> omega
  case grayalpha8 =>
    simp only [slice, Nat.reduceAdd, Nat.reduceSub, Nat.pow_zero, Nat.div_one]
    rw [Except.ok.injEq, HasChannels, ofNat_eq_iff] <;> omega
  case gray4 => rw [Except.ok.injEq, HasChannels, ofNat_eq_iff] <;> omega
  case alpha8 =>
    rw [Except.ok.injEq, rgbOf_eq, ofNat_eq_iff]
    · rfl
    · omega
  case alpha4 =>
    rw [Except.ok.injEq, rgbOf_eq, expand4, ofNat_eq_iff]
    · simp only [State.csr]
      omega
    · omega
  case mono =>
    rw [Except.ok.injEq]
    split_ifs with h1 h2 h2
    · omega
    · exact eq_comm
    · exact eq_comm
    · omega
  all_goals exact palColor_eq_ok_iff s _ c (by omega)

/-- Decoding raises AccessFault only, for a palette entry of a borrowed palette that cannot be read (R197, R323). -/
theorem toArgb_eq_error_iff (s : State) (cm : ColorMode) (raw : Nat) (e : Raise) :
    toArgb s cm raw = .error e ↔ cm.indexed = true ∧ s.palKind ≠ .dynamic ∧ ∃ b, e = .accessFault b ∧
      LowestBad s .read (s.palBase.toNat + 4 * (raw % 2 ^ bitsPerPixel cm)) 4 b := by
  cases cm
  all_goals first
    | (simp only [toArgb, ColorMode.indexed, true_and, bitsPerPixel]; exact palColor_eq_error_iff s _ e)
    | simp [toArgb, ColorMode.indexed]

/-- Decoding completes when the entry it may need can be read. -/
theorem toArgb_completes {s : State} {cm : ColorMode} {raw : Nat} (h : EntryReadable s cm raw) :
    ∃ c, toArgb s cm raw = .ok c := by
  cases hr : toArgb s cm raw with
  | ok c => exact ⟨c, rfl⟩
  | error e =>
    obtain ⟨h1, h2, b, _, h3, h4, h5, _⟩ := (toArgb_eq_error_iff s cm raw e).mp hr
    have := h h1 h2 b h3 h4
    rw [h5] at this
    contradiction

/-! ## Encoding (R165, R198) -/

/-- A reverse lookup answers exactly what R293 says, with the insertion it says. -/
theorem indexOfColor_eq_ok_iff (s : State) (c : Color) (n : Nat) (t : State) :
    indexOfColor s c = .ok (n, t) ↔ ∃ ins, LooksUpTo s c n ins ∧
      ((ins = false ∧ t = s) ∨ (ins = true ∧ ∃ i : Fin 256, i.val = s.palSize.val ∧ t = insertColor s c i)) := by
  unfold LooksUpTo
  rcases indexOfColor_cases s c with ⟨h1, h2, e⟩ | ⟨h1, h2, e⟩ | ⟨h1, i, h2, e⟩ | ⟨h1, h2, e⟩ | ⟨h1, h2, h3, e⟩ |
    ⟨h1, h2, i, h3, h4, e⟩
  all_goals rw [e]
  · simp only [reduceCtorEq, false_iff]
    rintro ⟨ins, h, -⟩
    rw [h1, h2] at h
    simp at h
  · rw [h1, h2]
    simp only [Except.ok.injEq, Prod.mk.injEq, ne_eq, not_true_eq_false, false_and, reduceCtorEq, or_false, true_and]
    constructor
    · rintro ⟨rfl, rfl⟩
      exact ⟨false, ⟨rfl, rfl⟩, .inl ⟨rfl, rfl⟩⟩
    · rintro ⟨ins, ⟨rfl, rfl⟩, ⟨-, rfl⟩ | ⟨h, -⟩⟩
      · exact ⟨rfl, rfl⟩
      · contradiction
  · rw [h2]
    simp only [Except.ok.injEq, Prod.mk.injEq, h1, false_and, false_or, ne_eq, not_false_eq_true, true_and,
      Option.some.injEq, exists_eq_left', reduceCtorEq, and_false, or_false]
    constructor
    · rintro ⟨rfl, rfl⟩
      exact ⟨false, ⟨rfl, rfl⟩, .inl ⟨rfl, rfl⟩⟩
    · rintro ⟨ins, ⟨rfl, rfl⟩, ⟨-, rfl⟩ | ⟨h, -⟩⟩
      · exact ⟨rfl, rfl⟩
      · contradiction
  · rw [h1, h2]
    simp only [Except.ok.injEq, Prod.mk.injEq, ne_eq, reduceCtorEq, false_and, exists_false, and_false, or_false,
      true_and, false_or, not_false_eq_true]
    constructor
    · rintro ⟨rfl, rfl⟩
      exact ⟨false, ⟨rfl, rfl⟩, .inl ⟨rfl, rfl⟩⟩
    · rintro ⟨ins, ⟨rfl, rfl⟩, ⟨-, rfl⟩ | ⟨h, -⟩⟩
      · exact ⟨rfl, rfl⟩
      · contradiction
  · have h3' : s.palCap ≤ s.palSize := h3
    have h4' : ¬ s.palSize < s.palCap := Nat.not_lt.mpr h3
    rw [h1, h2]
    simp only [Except.ok.injEq, Prod.mk.injEq, ne_eq, reduceCtorEq, false_and, exists_false, and_false, or_false,
      true_and, false_or, not_false_eq_true, h3', h4']
    constructor
    · rintro ⟨rfl, rfl⟩
      exact ⟨false, ⟨rfl, rfl⟩, .inl ⟨rfl, rfl⟩⟩
    · rintro ⟨ins, ⟨rfl, rfl⟩, ⟨-, rfl⟩ | ⟨h, -⟩⟩
      · exact ⟨rfl, rfl⟩
      · contradiction
  · have h4' : s.palSize < s.palCap := h4
    have h3' : ¬ s.palCap ≤ s.palSize := Nat.not_le.mpr h4
    rw [h1, h2]
    simp only [Except.ok.injEq, Prod.mk.injEq, ne_eq, reduceCtorEq, false_and, exists_false, and_false,
      true_and, false_or, not_false_eq_true, h3', h4']
    constructor
    · rintro ⟨rfl, rfl⟩
      exact ⟨true, ⟨h3, rfl⟩, .inr ⟨rfl, i, h3, rfl⟩⟩
    · rintro ⟨ins, ⟨rfl, rfl⟩, ⟨h, -⟩ | ⟨-, j, hj, rfl⟩⟩
      · contradiction
      · have : i = j := Fin.ext (by omega)
        subst this
        exact ⟨h3, rfl⟩

theorem xor_bit5 (w : Nat) : w ^^^ 0x0020 = flipBit5 w := by
  have h : ∀ k : Nat, k < 64 → k ^^^ 32 = if k / 32 % 2 = 0 then k + 32 else k - 32 := by decide
  have h1 : w = 2 ^ 6 * (w / 64) + w % 64 := by omega
  have h2 : (w % 64) ^^^ 32 < 2 ^ 6 := Nat.xor_lt_two_pow (by omega) (by omega)
  have h3 : w ^^^ 32 = 2 ^ 6 * (w / 64) + ((w % 64) ^^^ 32) := by
    apply Nat.eq_of_testBit_eq
    intro i
    rw [Nat.testBit_two_pow_mul_add _ h2, Nat.testBit_xor]
    have e1 : (w % 64).testBit i = (decide (i < 6) && w.testBit i) := Nat.testBit_mod_two_pow w 6 i
    have e2 : (w / 64).testBit (i - 6) = w.testBit (i - 6 + 6) := Nat.testBit_div_two_pow (n := 6) w (i - 6)
    by_cases hi : i < 6
    · rw [if_pos hi, Nat.testBit_xor, e1]
      simp [hi]
    · rw [if_neg hi, e2, show i - 6 + 6 = i by omega, show (32 : Nat) = 2 ^ 5 from rfl, Nat.testBit_two_pow]
      simp [show ¬ (5 = i) by omega]
  rw [show (0x0020 : Nat) = 32 from rfl, h3, h (w % 64) (by omega), flipBit5]
  split_ifs <;> omega

theorem argbToRgb565_eq (c : Color) : argbToRgb565 c = rgb565Of c := rfl

/-- Encoding answers exactly what the mode's rule gives, with the insertion it says (R165). -/
theorem fromArgb_eq_ok_iff (s : State) (cm : ColorMode) (c : Color) (n : Nat) (t : State) :
    fromArgb s cm c = .ok (n, t) ↔ ∃ ins, EncodesTo s cm c n ins ∧
      ((ins = false ∧ t = s) ∨ (ins = true ∧ ∃ i : Fin 256, i.val = s.palSize.val ∧ t = insertColor s c i)) := by
  have plain : ∀ m k : Nat, m = k →
      ((Except.ok (m, s) : Exec (Nat × State)) = .ok (n, t) ↔ ∃ ins, (n = k ∧ ins = false) ∧
        ((ins = false ∧ t = s) ∨ (ins = true ∧ ∃ i : Fin 256, i.val = s.palSize.val ∧ t = insertColor s c i))) := by
    rintro m _ rfl
    simp only [Except.ok.injEq, Prod.mk.injEq]
    constructor
    · rintro ⟨rfl, rfl⟩
      exact ⟨false, ⟨rfl, rfl⟩, .inl ⟨rfl, rfl⟩⟩
    · rintro ⟨ins, ⟨rfl, rfl⟩, ⟨-, rfl⟩ | ⟨h, -⟩⟩
      · exact ⟨rfl, rfl⟩
      · contradiction
  have hc := toNat_eq_channels c
  have ha := alphaOf_lt c
  have hr := redOf_lt c
  have hg := greenOf_lt c
  have hb := blueOf_lt c
  have hrgb : rgbOf c = redOf c * 2 ^ 16 + greenOf c * 2 ^ 8 + blueOf c := by
    rw [rgbOf_eq]
    omega
  cases cm <;> simp only [fromArgb, EncodesTo]
  case argb8888 => exact plain _ _ rfl
  case rgba8888 => exact plain _ _ (by omega)
  case rgb888 => exact plain _ _ hrgb
  case argb6666 => exact plain _ _ rfl
  case argb4444 => exact plain _ _ rfl
  case rgb565 => exact plain _ _ rfl
  case rgb565t =>
    refine plain _ _ ?_
    have ht : (s.csr .transp565).toNat = s.transp565.toNat := by
      have := s.transp565.isLt
      simp only [State.csr, BitVec.truncate_eq_setWidth, BitVec.toNat_setWidth]
      omega
    rw [argbToRgb565t, argbToRgb565_eq, xor_bit5, ht]
  case gray8 => exact plain _ _ rfl
  case grayalpha8 => exact plain _ _ rfl
  case gray4 => exact plain _ _ rfl
  case alpha8 => exact plain _ _ rfl
  case alpha4 => exact plain _ _ rfl
  case mono => exact plain _ _ rfl
  all_goals exact indexOfColor_eq_ok_iff s c n t

/-- Encoding raises PaletteAssert only, in an Indexed mode with a ReadOnly palette and ASSERT_EN set (R325). -/
theorem fromArgb_eq_error_iff (s : State) (cm : ColorMode) (c : Color) (e : Raise) :
    fromArgb s cm c = .error e ↔
      cm.indexed = true ∧ s.palKind = .readOnly ∧ s.ctrlAssertEn = true ∧ e = .paletteAssert c := by
  cases cm
  all_goals first
    | (simp only [fromArgb, ColorMode.indexed, true_and]; exact indexOfColor_eq_error_iff s c e)
    | simp [fromArgb, ColorMode.indexed]

/-- Encoding completes when the lookup it may make is allowed. -/
theorem fromArgb_completes {s : State} {cm : ColorMode} (c : Color) (h : LookupAllowed s cm) :
    ∃ n t, fromArgb s cm c = .ok (n, t) := by
  cases hr : fromArgb s cm c with
  | ok r => exact ⟨r.1, r.2, rfl⟩
  | error e =>
    obtain ⟨h1, h2, h3, _⟩ := (fromArgb_eq_error_iff s cm c e).mp hr
    rw [h h1 h2] at h3
    contradiction

end Sys2Proof.Machine
end

