-- ==== Sys2Proof/Laws/Decode.lean ====
section
/-! SUPPORT. The codes of the selectors and the fields of an encoded word. -/

namespace Sys2Proof

/-! ## Codes -/

theorem ColorMode.code_lt (x : ColorMode) : x.code < 17 := by cases x <;> decide

theorem BlendMode.code_lt (x : BlendMode) : x.code < 14 := by cases x <;> decide

theorem PixelOrder.code_lt (x : PixelOrder) : x.code < 2 := by cases x <;> decide

theorem ByteOrder.code_lt (x : ByteOrder) : x.code < 2 := by cases x <;> decide

theorem Channel.code_lt (x : Channel) : x.code < 4 := by cases x <;> decide

theorem TmArg.code_lt (x : TmArg) : x.code < 4 := by cases x <;> decide

theorem Csr.code_lt (x : Csr) : x.code < 256 := by cases x <;> decide

theorem Opcode.code_lt (x : Opcode) : x.code < 256 := by cases x <;> decide

@[simp] theorem ColorMode.ofCode?_code (x : ColorMode) : ColorMode.ofCode? x.code = some x := by cases x <;> rfl

@[simp] theorem BlendMode.ofCode?_code (x : BlendMode) : BlendMode.ofCode? x.code = some x := by cases x <;> rfl

@[simp] theorem PixelOrder.ofField_code (x : PixelOrder) : PixelOrder.ofField x.code = x := by cases x <;> rfl

@[simp] theorem ByteOrder.ofField_code (x : ByteOrder) : ByteOrder.ofField x.code = x := by cases x <;> rfl

@[simp] theorem Channel.ofField_code (x : Channel) : Channel.ofField x.code = x := by cases x <;> rfl

@[simp] theorem TmArg.ofField_code (x : TmArg) : TmArg.ofField x.code = x := by cases x <;> rfl

@[simp] theorem Csr.ofCode?_code (x : Csr) : Csr.ofCode? x.code = some x := by cases x <;> rfl

@[simp] theorem Opcode.ofCode?_code (x : Opcode) : Opcode.ofCode? x.code = some x := by cases x <;> rfl

/-! ## Fields of an encoded word (R91) -/

/-- Every field of a format R word of sub-form RM reads as it was packed, and bit 31 is clear. -/
theorem packRM_fields (op : Opcode) {rd rs1 rs2 cm bm po bo : Nat} (h1 : rd < 16) (h2 : rs1 < 16) (h3 : rs2 < 16)
    (h4 : cm < 32) (h5 : bm < 16) (h6 : po < 2) (h7 : bo < 2) :
    slice (packRM op rd rs1 rs2 cm bm po bo).toNat 7 0 = op.code ∧
      slice (packRM op rd rs1 rs2 cm bm po bo).toNat 11 8 = rd ∧
      slice (packRM op rd rs1 rs2 cm bm po bo).toNat 15 12 = rs1 ∧
      slice (packRM op rd rs1 rs2 cm bm po bo).toNat 19 16 = rs2 ∧
      slice (packRM op rd rs1 rs2 cm bm po bo).toNat 24 20 = cm ∧
      slice (packRM op rd rs1 rs2 cm bm po bo).toNat 28 25 = bm ∧
      slice (packRM op rd rs1 rs2 cm bm po bo).toNat 29 29 = po ∧
      slice (packRM op rd rs1 rs2 cm bm po bo).toNat 30 30 = bo ∧
      slice (packRM op rd rs1 rs2 cm bm po bo).toNat 31 31 = 0 := by
  have h0 := op.code_lt
  simp only [packRM, slice, BitVec.toNat_ofNat]
  omega

/-- Every field of a format R word of sub-form RC, RT or RS reads as it was packed; the selector's eight bits stand at
27:20, and bits 31:28 are clear. -/
theorem packSel_fields (op : Opcode) {rd rs1 rs2 sel : Nat} (h1 : rd < 16) (h2 : rs1 < 16) (h3 : rs2 < 16)
    (h4 : sel < 256) :
    slice (packSel op rd rs1 rs2 sel).toNat 7 0 = op.code ∧
      slice (packSel op rd rs1 rs2 sel).toNat 11 8 = rd ∧
      slice (packSel op rd rs1 rs2 sel).toNat 15 12 = rs1 ∧
      slice (packSel op rd rs1 rs2 sel).toNat 19 16 = rs2 ∧
      slice (packSel op rd rs1 rs2 sel).toNat 21 20 = sel % 4 ∧
      slice (packSel op rd rs1 rs2 sel).toNat 27 20 = sel ∧
      slice (packSel op rd rs1 rs2 sel).toNat 30 22 = sel / 4 ∧
      slice (packSel op rd rs1 rs2 sel).toNat 30 28 = 0 ∧
      slice (packSel op rd rs1 rs2 sel).toNat 31 31 = 0 := by
  have h0 := op.code_lt
  simp only [packSel, slice, BitVec.toNat_ofNat]
  omega

/-- Every field of a format I word reads as it was packed, and bits 15:12 are clear. -/
theorem packI_fields (op : Opcode) {rd imm16 : Nat} (h1 : rd < 16) (h2 : imm16 < 65536) :
    slice (packI op rd imm16).toNat 7 0 = op.code ∧ slice (packI op rd imm16).toNat 11 8 = rd ∧
      slice (packI op rd imm16).toNat 15 12 = 0 ∧ slice (packI op rd imm16).toNat 31 16 = imm16 := by
  have h0 := op.code_lt
  simp only [packI, slice, BitVec.toNat_ofNat]
  omega

/-- A register field holds the number of its register. -/
theorem regField_eq {v lo : Nat} (r : Reg) (h : slice v (lo + 3) lo = r.val) : regField v lo = r := by
  apply Fin.ext
  simp only [regField, h, Fin.ofNat]
  omega

/-- A selector field that holds the code of a value reads as that value. -/
theorem cmField_eq {v : Nat} (x : ColorMode) (h : slice v 24 20 = x.code) : cmField v = some x := by
  rw [cmField, h, ColorMode.ofCode?_code]

theorem bmField_eq {v : Nat} (x : BlendMode) (h : slice v 28 25 = x.code) : bmField v = some x := by
  rw [bmField, h, BlendMode.ofCode?_code]

theorem poField_eq {v : Nat} (x : PixelOrder) (h : slice v 29 29 = x.code) : poField v = x := by
  rw [poField, h, PixelOrder.ofField_code]

theorem boField_eq {v : Nat} (x : ByteOrder) (h : slice v 30 30 = x.code) : boField v = x := by
  rw [boField, h, ByteOrder.ofField_code]

theorem chField_eq {v : Nat} (x : Channel) (h : slice v 21 20 = x.code) : chField v = x := by
  rw [chField, h, Channel.ofField_code]

theorem tmField_eq {v : Nat} (x : TmArg) (h : slice v 21 20 = x.code) : tmField v = x := by
  rw [tmField, h, TmArg.ofField_code]

theorem csrField_eq {v : Nat} (x : Csr) (h : slice v 27 20 = x.code) : csrField v = some x := by
  rw [csrField, h, Csr.ofCode?_code]

theorem cmBmField_eq {v : Nat} (x : ColorMode) (y : BlendMode) (h1 : slice v 24 20 = x.code)
    (h2 : slice v 28 25 = y.code) : cmBmField v = some (x, y) := by
  rw [cmBmField, cmField_eq x h1, bmField_eq y h2]

/-! ## The decoder -/

/-- A word decodes to a command when its opcode is in the table, the bits its row says must be 0 are 0, its fields make
that command, and the command is well-formed; and only then. -/
theorem decode_eq_ok_iff (w : Word) (i : Instr) :
    decode w = .ok i ↔ ∃ op, Opcode.ofCode? (slice w.toNat 7 0) = some op ∧ reservedBits op.row w.toNat = none ∧
      buildInstr op w.toNat = .ok i ∧ i.wellFormed = true := by
  unfold decode
  cases h1 : Opcode.ofCode? (slice w.toNat 7 0) with
  | none => simp
  | some op =>
    cases h2 : reservedBits op.row w.toNat with
    | some e => simp [h2]
    | none =>
      cases h3 : buildInstr op w.toNat with
      | error e => simp [h2, h3]
      | ok j =>
        cases h4 : j.wellFormed with
        | false =>
          simp only [h2, h3, h4, Bool.false_eq_true, if_false, reduceCtorEq, Option.some.injEq, exists_eq_left',
            Except.ok.injEq, true_and, false_iff, not_and]
          rintro rfl
          simp [h4]
        | true =>
          simp only [h2, h3, h4, if_true, Except.ok.injEq, Option.some.injEq, exists_eq_left', true_and]
          constructor
          · rintro rfl
            exact ⟨rfl, h4⟩
          · exact fun h => h.1

end Sys2Proof
end

