-- ==== Sys2Proof/Laws/Frames.lean ====
section
/-! SUPPORT. What the named updates leave unchanged, in the words of Sys2Proof/Safety.lean: one lemma for each kind of
command, so that a statement about one command does not look into the state. -/

namespace Sys2Proof.Machine

/-! ## Pieces -/

theorem MemoryKept.refl (s : State) : MemoryKept s s := fun _ => rfl

theorem csr_count_of_ne (s : State) {n : Csr} (h : n ≠ .cmdcnt) : s.count.csr n = s.csr n := csr_count s n h

theorem counted_count {s u : State} (h : u.cmdcnt = s.cmdcnt) : Counted s u.count := by
  show u.cmdcnt + 1 = s.cmdcnt + 1
  rw [h]

/-! ## Commands that complete -/

theorem changesNothing_count (s : State) : ChangesNothing s s.count := by
  refine ⟨fun _ => rfl, fun n hn => csr_count s n ?_, rfl, ⟨rfl, rfl⟩, fun _ => rfl, rfl, rfl⟩
  simpa using hn

theorem changesOnlyReg_setReg (s : State) (d : Reg) (v : Word) : ChangesOnlyReg d s (s.setReg d v).count := by
  refine ⟨fun r hr => ?_, fun n hn => ?_, rfl, ⟨rfl, rfl⟩, fun _ => rfl, rfl, rfl⟩
  · rw [reg_count]
    exact reg_setReg_ne s d r v hr
  · rw [csr_count _ n (by simpa using hn), csr_setReg]

theorem changesOnlyCsr_setCsr (s : State) (n : Csr) (v : Word) : ChangesOnlyCsr n s (s.setCsr n v).count := by
  refine ⟨fun r => by rw [reg_count, reg_setCsr], fun m hm => ?_, counted_count (by simp), ⟨by simp, by simp⟩,
    fun a => ?_, by simp, by simp⟩
  · simp only [List.mem_cons, List.not_mem_nil, or_false, not_or] at hm
    rw [csr_count _ m hm.2, csr_setCsr_ne _ _ _ _ hm.1]
  · show Memory.read (s.setCsr n v).mem a = _
    rw [setCsr_mem]

/-- A new memory that differs from the old one only in the `len` bytes at `a`. -/
theorem changesOnlyMemory_setMem {s : State} {m : List Host.Cell} {a len : Nat}
    (h : ∀ x, x < a ∨ a + len ≤ x → Memory.read m x = Memory.read s.mem x) :
    ChangesOnlyMemory a len s (s.setMem m).count := by
  refine ⟨fun _ => rfl, fun n hn => ?_, rfl, ⟨rfl, rfl⟩, h, rfl, rfl⟩
  rw [csr_count _ n (by simpa using hn), csr_setMem]

theorem csr_setBorrowed (s : State) (k : PalKind) (b : Word) (z : Fin 257) (tm : TransparencyClass)
    (x : List (Color × Fin 256)) (n : Csr) (h : n ∉ paletteCsrs) : (s.setBorrowed k b z tm x).csr n = s.csr n := by
  cases n <;> first | rfl | simp [paletteCsrs] at h

theorem csr_setDynamic (s : State) (z : Fin 257) (n : Csr) (h : n ∉ paletteCsrs) :
    (s.setDynamic z).csr n = s.csr n := by
  cases n <;> first | rfl | simp [paletteCsrs] at h

theorem changesOnlyPalette_setBorrowed (s : State) (k : PalKind) (b : Word) (z : Fin 257) (tm : TransparencyClass)
    (x : List (Color × Fin 256)) : ChangesOnlyPalette s (s.setBorrowed k b z tm x).count := by
  refine ⟨fun _ => rfl, fun n hn => ?_, rfl, fun _ => rfl, rfl, rfl⟩
  simp only [List.mem_cons, not_or] at hn
  rw [csr_count _ n hn.1, csr_setBorrowed _ _ _ _ _ _ _ hn.2]

theorem changesOnlyPalette_setDynamic (s : State) (z : Fin 257) : ChangesOnlyPalette s (s.setDynamic z).count := by
  refine ⟨fun _ => rfl, fun n hn => ?_, rfl, fun _ => rfl, rfl, rfl⟩
  simp only [List.mem_cons, not_or] at hn
  rw [csr_count _ n hn.1, csr_setDynamic _ _ _ hn.2]

/-! ## Lookups -/

/-- The state that a lookup leaves: unchanged, or with the insertion of the colour at the next index. -/
def LookupLeaves (inserts : Bool) (c : Color) (s u : State) : Prop :=
  (inserts = false ∧ u = s) ∨
    (inserts = true ∧ ∃ i : Fin 256, i.val = s.palSize.val ∧ u = insertColor s c i)

theorem csr_insertColor_of_not_palette (s : State) (c : Color) (i : Fin 256) (n : Csr) (h : n ∉ paletteCsrs) :
    (insertColor s c i).csr n = s.csr n := by
  cases n <;> first | rfl | simp [paletteCsrs] at h

theorem csr_of_lookupLeaves {ins : Bool} {c : Color} {s u : State} (h : LookupLeaves ins c s u) (n : Csr)
    (hn : n ∉ paletteCsrs) : u.csr n = s.csr n := by
  rcases h with ⟨_, rfl⟩ | ⟨_, i, _, rfl⟩
  · rfl
  · exact csr_insertColor_of_not_palette s c i n hn

theorem lookupLeaves_fields {ins : Bool} {c : Color} {s u : State} (h : LookupLeaves ins c s u) :
    u.regs = s.regs ∧ u.cmdcnt = s.cmdcnt ∧ u.mem = s.mem ∧ u.memMap = s.memMap ∧ u.moves = s.moves := by
  rcases h with ⟨_, rfl⟩ | ⟨_, i, _, rfl⟩
  · exact ⟨rfl, rfl, rfl, rfl, rfl⟩
  · exact ⟨rfl, rfl, rfl, rfl, rfl⟩

theorem reg_of_lookupLeaves {ins : Bool} {c : Color} {s u : State} (h : LookupLeaves ins c s u) (r : Reg) :
    u.reg r = s.reg r := by
  rcases h with ⟨_, rfl⟩ | ⟨_, i, _, rfl⟩ <;> rfl

theorem changesRegAndPalette_lookup {ins : Bool} {c : Color} {s u : State} (h : LookupLeaves ins c s u) (d : Reg)
    (v : Word) : ChangesRegAndPalette d s (u.setReg d v).count := by
  obtain ⟨h1, h2, h3, h4, h5⟩ := lookupLeaves_fields h
  refine ⟨fun r hr => ?_, fun n hn => ?_, counted_count h2, fun a => ?_, h4, h5⟩
  · rw [reg_count, reg_setReg_ne _ _ _ _ hr, reg_of_lookupLeaves h]
  · simp only [List.mem_cons, not_or] at hn
    rw [csr_count _ n hn.1, csr_setReg, csr_of_lookupLeaves h n hn.2]
  · show Memory.read u.mem a = _
    rw [h3]

theorem changesMemoryAndPalette_lookup {ins : Bool} {c : Color} {s u : State} (h : LookupLeaves ins c s u)
    {m : List Host.Cell} {a len : Nat} (hm : ∀ x, x < a ∨ a + len ≤ x → Memory.read m x = Memory.read s.mem x) :
    ChangesMemoryAndPalette a len s (u.setMem m).count := by
  obtain ⟨h1, h2, h3, h4, h5⟩ := lookupLeaves_fields h
  refine ⟨fun r => ?_, fun n hn => ?_, counted_count h2, hm, h4, h5⟩
  · rw [reg_count, reg_setMem, reg_of_lookupLeaves h]
  · simp only [List.mem_cons, not_or] at hn
    rw [csr_count _ n hn.1, csr_setMem, csr_of_lookupLeaves h n hn.2]

/-- An insertion of a colour that is not in the reverse index, at the next index, is what R293 and R294 say. -/
theorem inserted_insertColor {s : State} {c : Color} {i : Fin 256} (hi : i.val = s.palSize.val)
    (hn : ridxLookup s.ridx c = none) : Inserted c s (insertColor s c i) := by
  refine ⟨fun j hj => ?_, fun d => ?_, ?_, ?_, rfl, rfl, rfl⟩
  · show (s.palRam.set i.val c)[j] = _
    rw [Vector.getElem_set]
    by_cases h : i.val = j
    · rw [if_pos h, if_pos (by omega)]
    · rw [if_neg h, if_neg (by omega)]
  · show (ridxLookup (s.ridx ++ [(c, i)]) d).map Fin.val = _
    rw [ridxLookup_append]
    by_cases h : d = c
    · subst h
      rw [hn]
      simp [hi]
    · have h' : ¬ c = d := fun e => h e.symm
      rw [if_neg h]
      cases ridxLookup s.ridx d <;> simp [h']
  · show BitVec.ofNat 32 (i.val + 1) = BitVec.ofNat 32 s.palSize.val + 1
    rw [hi]
    apply BitVec.eq_of_toNat_eq
    have := s.palSize.isLt
    have h1 : (1 : Word).toNat = 1 := rfl
    simp only [BitVec.toNat_ofNat, BitVec.toNat_add, h1]
    omega
  · show (BitVec.ofNat 32 (s.palTm.join (classOf c)).code).toNat = max (BitVec.ofNat 32 s.palTm.code).toNat _
    rw [TransparencyClass.code_join, code_classOf]
    have h1 : s.palTm.code ≤ 2 := by cases s.palTm <;> decide
    have h2 : colorClass c ≤ 2 := by
      unfold colorClass
      split_ifs <;> omega
    simp only [BitVec.toNat_ofNat]
    omega

/-- A colour that a lookup inserts was not in the reverse index. -/
theorem none_of_inserts {s : State} {c : Color} {n : Nat} (h : LooksUpTo s c n true) :
    ridxLookup s.ridx c = none := by
  unfold LooksUpTo at h
  rcases h with h | h | h | h | h
  · exact absurd h.2.2.2 (by decide)
  · exact absurd h.2.2 (by decide)
  · exact absurd h.2.2.2 (by decide)
  · exact absurd h.2.2.2.2 (by decide)
  · exact h.2.1

/-- Only an Indexed mode inserts. -/
theorem looksUpTo_of_encodesTo_true {s : State} {cm : ColorMode} {c : Color} {n : Nat}
    (h : EncodesTo s cm c n true) : LooksUpTo s c n true := by
  cases cm <;> simp only [EncodesTo, reduceCtorEq, and_false] at h <;> exact h

/-- Two states with the same palette have the same palette before and after. -/
theorem paletteAfter_of_leaves {ins : Bool} {c : Color} {s u t : State} (h : LookupLeaves ins c s u)
    (hn : ins = true → ridxLookup s.ridx c = none) (hr : t.palRam = u.palRam) (hx : t.ridx = u.ridx)
    (hc : ∀ n ∈ paletteCsrs, t.csr n = u.csr n) : PaletteAfter ins c s t := by
  have hk := hc .palKind (by simp [paletteCsrs])
  have hb := hc .palBase (by simp [paletteCsrs])
  have hz := hc .palSize (by simp [paletteCsrs])
  have hp := hc .palCap (by simp [paletteCsrs])
  have ht := hc .palTm (by simp [paletteCsrs])
  unfold PaletteAfter
  rcases h with ⟨rfl, rfl⟩ | ⟨rfl, i, hi, rfl⟩
  · simp only [Bool.false_eq_true, if_false]
    exact ⟨⟨hr, hx⟩, hc⟩
  · simp only [if_true]
    obtain ⟨a, b, c', d, e, f, g⟩ := inserted_insertColor hi (hn rfl)
    refine ⟨fun j hj => ?_, fun k => ?_, hz.trans c', ?_, hk.trans e, hb.trans f, hp.trans g⟩
    · simp only [hr]
      exact a j hj
    · rw [hx]
      exact b k
    · rw [ht]
      exact d

/-! ## Faults -/

theorem toNat_cause (f : Raise) : f.cause.code = match f with
    | .illegalCommand => 1 | .operandRange _ => 2 | .accessFault _ => 3 | .paletteAssert _ => 4 := by
  cases f <;> rfl

theorem addressInfo_eq (b : Nat) : (Raise.accessFault b).info = addressInfo b := by
  simp only [Raise.info, addressInfo]
  split_ifs with h
  · congr 1
    omega
  · rw [show min b 0xFFFFFFFF = 0xFFFFFFFF by omega]
    rfl

/-- Taking a fault changes the fault registers alone (R324). -/
theorem takesFault_takeFault (s : State) (f : Raise) (w : Word) :
    TakesFault f.cause.code f.info w s (s.takeFault f w) := by
  refine ⟨rfl, rfl, rfl, rfl, fun _ => rfl, fun n hn => ?_, ⟨rfl, rfl⟩, fun _ => rfl, rfl, rfl⟩
  simp only [faultCsrs, List.mem_cons, List.not_mem_nil, or_false, not_or] at hn
  exact csr_takeFault s f w n hn.1 hn.2.1 hn.2.2.1 hn.2.2.2

/-- A well-formed command whose body completes is counted. -/
theorem next_of_ok {i : Instr} {s u : State} {b : Exec State} (he : exec i s = runCommand i s b)
    (hw : i.wellFormed = true) (hb : b = .ok u) : exec i s = .next u.count := by
  rw [he, hb, runCommand_ok i s u hw]

/-- A well-formed command whose body raises takes that fault. -/
theorem raises_of_error {i : Instr} {s : State} {f : Raise} {b : Exec State} (he : exec i s = runCommand i s b)
    (hw : i.wellFormed = true) (hb : b = .error f) : Raises f.cause.code f.info i s := by
  refine ⟨s.takeFault f (encode i), ?_, takesFault_takeFault s f (encode i)⟩
  rw [he, hb, runCommand_error i s f hw]

end Sys2Proof.Machine
end

