-- ==== Sys2Proof/Laws/Exec.lean ====
section
/-! SUPPORT. The body of each command inside the frame of R64: one equation for each constructor, true by definition, so
that a proof about one command does not unfold the dispatch. -/

namespace Sys2Proof.Machine

variable (s : State)

theorem exec_nop :
    exec .nop s = runCommand .nop s (.ok s) := rfl

theorem exec_ldi (rd : Reg) (imm16 : BitVec 16) :
    exec (.ldi rd imm16) s = runCommand (.ldi rd imm16) s (.ok (s.setReg rd (imm16.zeroExtend 32))) := rfl

theorem exec_ldih (rd : Reg) (imm16 : BitVec 16) :
    exec (.ldih rd imm16) s = runCommand (.ldih rd imm16) s
      (.ok (s.setRegNat rd (imm16.toNat * 2 ^ 16 + slice (s.num rd) 15 0))) := rfl

theorem exec_mov (rd : Reg) (rs1 : Reg) :
    exec (.mov rd rs1) s = runCommand (.mov rd rs1) s (.ok (s.setReg rd (s.reg rs1))) := rfl

theorem exec_csrr (rd : Reg) (csr : Csr) :
    exec (.csrr rd csr) s = runCommand (.csrr rd csr) s (.ok (s.setReg rd (s.csr csr))) := rfl

theorem exec_csrw (rs1 : Reg) (csr : Csr) :
    exec (.csrw rs1 csr) s = runCommand (.csrw rs1 csr) s (.ok (s.setCsr csr (s.reg rs1))) := rfl

theorem exec_ldc (rd : Reg) (rs1 : Reg) :
    exec (.ldc rd rs1) s = runCommand (.ldc rd rs1) s (do
      let c ← readColor s (s.num rs1)
      .ok (s.setReg rd c)) := rfl

theorem exec_stc (rs1 : Reg) (rs2 : Reg) :
    exec (.stc rs1 rs2) s = runCommand (.stc rs1 rs2) s (do
      checkAccess s .write (s.num rs1) 4
      .ok (s.setMem (Memory.storeColor s.mem (s.num rs1) (s.reg rs2)))) := rfl

theorem exec_ldraw (rd : Reg) (rs1 : Reg) (cm : ColorMode) (bo : ByteOrder) :
    exec (.ldraw rd rs1 cm bo) s = runCommand (.ldraw rd rs1 cm bo) s (do
      checkAccess s .read (s.num rs1) (bytesPerPixel cm)
      .ok (s.setRegNat rd (Memory.load s.mem (s.num rs1) (bytesPerPixel cm) bo))) := rfl

theorem exec_straw (rs1 : Reg) (rs2 : Reg) (cm : ColorMode) (bo : ByteOrder) :
    exec (.straw rs1 rs2 cm bo) s = runCommand (.straw rs1 rs2 cm bo) s (do
      checkAccess s .write (s.num rs1) (bytesPerPixel cm)
      .ok (s.setMem (Memory.store s.mem (s.num rs1) (bytesPerPixel cm) (s.num rs2) bo))) := rfl

theorem exec_cget (rd : Reg) (rs1 : Reg) (ch : Channel) :
    exec (.cget rd rs1 ch) s = runCommand (.cget rd rs1 ch) s (.ok (s.setRegNat rd (channelOf ch (s.reg rs1)))) := rfl

theorem exec_cset (rd : Reg) (rs1 : Reg) (rs2 : Reg) (ch : Channel) :
    exec (.cset rd rs1 rs2 ch) s = runCommand (.cset rd rs1 rs2 ch) s
      (.ok (s.setReg rd (withChannel ch (s.reg rs1) (s.byte rs2)))) := rfl

theorem exec_copq (rd : Reg) (rs1 : Reg) :
    exec (.copq rd rs1) s = runCommand (.copq rd rs1) s (.ok (s.setReg rd (toOpaque (s.reg rs1)))) := rfl

theorem exec_cisopq (rd : Reg) (rs1 : Reg) :
    exec (.cisopq rd rs1) s = runCommand (.cisopq rd rs1) s
      (.ok (s.setRegNat rd (if alphaOf (s.reg rs1) = 0xFF then 1 else 0))) := rfl

theorem exec_toargb (rd : Reg) (rs1 : Reg) (cm : ColorMode) :
    exec (.toargb rd rs1 cm) s = runCommand (.toargb rd rs1 cm) s (do
      let c ← toArgb s cm (s.num rs1)
      .ok (s.setReg rd c)) := rfl

theorem exec_fromargb (rd : Reg) (rs1 : Reg) (cm : ColorMode) :
    exec (.fromargb rd rs1 cm) s = runCommand (.fromargb rd rs1 cm) s (do
      let r ← fromArgb s cm (s.reg rs1)
      .ok (r.2.setRegNat rd r.1)) := rfl

theorem exec_transp (rd : Reg) (cm : ColorMode) :
    exec (.transp rd cm) s = runCommand (.transp rd cm) s (.ok (s.setRegNat rd (transparencyOf s cm).code)) := rfl

theorem exec_bpp (rd : Reg) (cm : ColorMode) :
    exec (.bpp rd cm) s = runCommand (.bpp rd cm) s (.ok (s.setRegNat rd (bitsPerPixel cm))) := rfl

theorem exec_blend (rd : Reg) (rs1 : Reg) (rs2 : Reg) (bm : BlendMode) :
    exec (.blend rd rs1 rs2 bm) s = runCommand (.blend rd rs1 rs2 bm) s
      (.ok (s.setReg rd (blend bm (s.reg rs1) (s.reg rs2)))) := rfl

theorem exec_blendv (rn : Reg) (rs1 : Reg) (rs2 : Reg) (bm : BlendMode) :
    exec (.blendv rn rs1 rs2 bm) s = runCommand (.blendv rn rs1 rs2 bm) s (do
      checkAccess s .write (s.num rs1) (4 * s.num rn)
      checkAccess s .read (s.num rs2) (4 * s.num rn)
      .ok (s.setMem (blendArrays bm s.mem (s.num rs1) (s.num rs2) (s.num rn)))) := rfl

theorem exec_blendvs (rn : Reg) (rs1 : Reg) (rs2 : Reg) (bm : BlendMode) :
    exec (.blendvs rn rs1 rs2 bm) s = runCommand (.blendvs rn rs1 rs2 bm) s (do
      checkAccess s .write (s.num rs1) (4 * s.num rn)
      .ok (s.setMem (blendArraySingle bm (s.reg rs2) s.mem (s.num rs1) (s.num rn)))) := rfl

theorem exec_blendraw (rd : Reg) (rs1 : Reg) (rs2 : Reg) (cm : ColorMode) (bm : BlendMode) :
    exec (.blendraw rd rs1 rs2 cm bm) s = runCommand (.blendraw rd rs1 rs2 cm bm) s (do
      let r ← rawBlend s bm cm (s.num rs1) (s.reg rs2)
      .ok (r.2.setRegNat rd r.1)) := rfl

theorem exec_blendrawm (rs1 : Reg) (rs2 : Reg) (cm : ColorMode) (bm : BlendMode) (bo : ByteOrder) :
    exec (.blendrawm rs1 rs2 cm bm bo) s = runCommand (.blendrawm rs1 rs2 cm bm bo) s (do
      checkAccess s .write (s.num rs1) (bytesPerPixel cm)
      let r ← rawBlend s bm cm (Memory.load s.mem (s.num rs1) (bytesPerPixel cm) bo) (s.reg rs2)
      .ok (r.2.setMem (Memory.store s.mem (s.num rs1) (bytesPerPixel cm) r.1 bo))) := rfl

theorem exec_sbload (rd : Reg) (rs1 : Reg) (rs2 : Reg) (cm : ColorMode) (po : PixelOrder) :
    exec (.sbload rd rs1 rs2 cm po) s = runCommand (.sbload rd rs1 rs2 cm po) s (do
      checkBelow (s.reg rs2) (pixelsPerByte (bitsPerPixel cm))
      .ok (s.setRegNat rd (loadRaw (bitsPerPixel cm) po (s.byte rs1) (s.num rs2)))) := rfl

theorem exec_sbstore (rd : Reg) (rs1 : Reg) (rs2 : Reg) (cm : ColorMode) (po : PixelOrder) :
    exec (.sbstore rd rs1 rs2 cm po) s = runCommand (.sbstore rd rs1 rs2 cm po) s (do
      checkBelow (s.reg rs2) (pixelsPerByte (bitsPerPixel cm))
      .ok (s.setRegNat rd (storeRaw (bitsPerPixel cm) po (s.byte rd) (s.num rs1) (s.num rs2)))) := rfl

theorem exec_sbexpand (rd : Reg) (rs1 : Reg) (cm : ColorMode) :
    exec (.sbexpand rd rs1 cm) s = runCommand (.sbexpand rd rs1 cm) s
      (.ok (s.setRegNat rd (expandRaw (bitsPerPixel cm) (s.num rs1)))) := rfl

theorem exec_sbbulk (rs1 : Reg) (rs2 : Reg) (cm : ColorMode) (po : PixelOrder) :
    exec (.sbbulk rs1 rs2 cm po) s = runCommand (.sbbulk rs1 rs2 cm po) s (do
      checkAccess s .write (s.num rs2) (4 * pixelsPerByte (bitsPerPixel cm))
      let cs ← loadBulk s cm po (s.byte rs1)
      .ok (s.setMem (Memory.storeColors s.mem (s.num rs2) cs))) := rfl

theorem exec_sbloadm (rd : Reg) (rs1 : Reg) (rs2 : Reg) (cm : ColorMode) (po : PixelOrder) :
    exec (.sbloadm rd rs1 rs2 cm po) s = runCommand (.sbloadm rd rs1 rs2 cm po) s (do
      checkBelow (s.reg rs2) (pixelsPerByte (bitsPerPixel cm))
      checkAccess s .read (s.num rs1) 1
      .ok (s.setRegNat rd
        (loadRaw (bitsPerPixel cm) po (Memory.read s.mem (s.num rs1)).toNat (s.num rs2)))) := rfl

theorem exec_sbstorem (rn : Reg) (rs1 : Reg) (rs2 : Reg) (cm : ColorMode) (po : PixelOrder) :
    exec (.sbstorem rn rs1 rs2 cm po) s = runCommand (.sbstorem rn rs1 rs2 cm po) s (do
      checkBelow (s.reg rs2) (pixelsPerByte (bitsPerPixel cm))
      checkAccess s .write (s.num rs1) 1
      .ok (s.setMem (Memory.write s.mem (s.num rs1) (BitVec.ofNat 8
        (storeRaw (bitsPerPixel cm) po (Memory.read s.mem (s.num rs1)).toNat (s.num rn) (s.num rs2)))))) := rfl

theorem exec_palro (rs1 : Reg) (rs2 : Reg) (tm : TmArg) :
    exec (.palro rs1 rs2 tm) s = runCommand (.palro rs1 rs2 tm) s (do
      let size ← sizeOperand (s.reg rs2)
      let cs ← if tm = .auto then readArray s (s.reg rs1) size else .ok []
      .ok (s.setBorrowed .readOnly (s.reg rs1) size (tmClass tm cs) [])) := rfl

theorem exec_palrw (rs1 : Reg) (rs2 : Reg) (tm : TmArg) :
    exec (.palrw rs1 rs2 tm) s = runCommand (.palrw rs1 rs2 tm) s (do
      let size ← sizeOperand (s.reg rs2)
      let cs ← readArray s (s.reg rs1) size
      .ok (s.setBorrowed .readWrite (s.reg rs1) size (tmClass tm cs) (buildIndex [] 0 cs))) := rfl

theorem exec_paldyn (rs1 : Reg) :
    exec (.paldyn rs1) s = runCommand (.paldyn rs1) s (do
      let cap ← sizeOperand (s.reg rs1)
      .ok (s.setDynamic cap)) := rfl

theorem exec_palidx (rd : Reg) (rs1 : Reg) :
    exec (.palidx rd rs1) s = runCommand (.palidx rd rs1) s (do
      let r ← indexOfColor s (s.reg rs1)
      .ok (r.2.setRegNat rd r.1)) := rfl

/-- Every command runs inside the frame of R64. -/
theorem exec_eq_runCommand (i : Instr) : ∃ b, exec i s = runCommand i s b := by
  cases i
  case nop  => exact ⟨_, exec_nop s⟩
  case ldi rd imm16 => exact ⟨_, exec_ldi s rd imm16⟩
  case ldih rd imm16 => exact ⟨_, exec_ldih s rd imm16⟩
  case mov rd rs1 => exact ⟨_, exec_mov s rd rs1⟩
  case csrr rd csr => exact ⟨_, exec_csrr s rd csr⟩
  case csrw rs1 csr => exact ⟨_, exec_csrw s rs1 csr⟩
  case ldc rd rs1 => exact ⟨_, exec_ldc s rd rs1⟩
  case stc rs1 rs2 => exact ⟨_, exec_stc s rs1 rs2⟩
  case ldraw rd rs1 cm bo => exact ⟨_, exec_ldraw s rd rs1 cm bo⟩
  case straw rs1 rs2 cm bo => exact ⟨_, exec_straw s rs1 rs2 cm bo⟩
  case cget rd rs1 ch => exact ⟨_, exec_cget s rd rs1 ch⟩
  case cset rd rs1 rs2 ch => exact ⟨_, exec_cset s rd rs1 rs2 ch⟩
  case copq rd rs1 => exact ⟨_, exec_copq s rd rs1⟩
  case cisopq rd rs1 => exact ⟨_, exec_cisopq s rd rs1⟩
  case toargb rd rs1 cm => exact ⟨_, exec_toargb s rd rs1 cm⟩
  case fromargb rd rs1 cm => exact ⟨_, exec_fromargb s rd rs1 cm⟩
  case transp rd cm => exact ⟨_, exec_transp s rd cm⟩
  case bpp rd cm => exact ⟨_, exec_bpp s rd cm⟩
  case blend rd rs1 rs2 bm => exact ⟨_, exec_blend s rd rs1 rs2 bm⟩
  case blendv rn rs1 rs2 bm => exact ⟨_, exec_blendv s rn rs1 rs2 bm⟩
  case blendvs rn rs1 rs2 bm => exact ⟨_, exec_blendvs s rn rs1 rs2 bm⟩
  case blendraw rd rs1 rs2 cm bm => exact ⟨_, exec_blendraw s rd rs1 rs2 cm bm⟩
  case blendrawm rs1 rs2 cm bm bo => exact ⟨_, exec_blendrawm s rs1 rs2 cm bm bo⟩
  case sbload rd rs1 rs2 cm po => exact ⟨_, exec_sbload s rd rs1 rs2 cm po⟩
  case sbstore rd rs1 rs2 cm po => exact ⟨_, exec_sbstore s rd rs1 rs2 cm po⟩
  case sbexpand rd rs1 cm => exact ⟨_, exec_sbexpand s rd rs1 cm⟩
  case sbbulk rs1 rs2 cm po => exact ⟨_, exec_sbbulk s rs1 rs2 cm po⟩
  case sbloadm rd rs1 rs2 cm po => exact ⟨_, exec_sbloadm s rd rs1 rs2 cm po⟩
  case sbstorem rn rs1 rs2 cm po => exact ⟨_, exec_sbstorem s rn rs1 rs2 cm po⟩
  case palro rs1 rs2 tm => exact ⟨_, exec_palro s rs1 rs2 tm⟩
  case palrw rs1 rs2 tm => exact ⟨_, exec_palrw s rs1 rs2 tm⟩
  case paldyn rs1 => exact ⟨_, exec_paldyn s rs1⟩
  case palidx rd rs1 => exact ⟨_, exec_palidx s rd rs1⟩

end Sys2Proof.Machine
end

