-- ==== Sys2Proof/Laws/PerInstr.lean ====
section
/-! SUPPORT. One statement about every instruction as syntax, and its lemma for each constructor: the encoded word
carries the opcode of the instruction's row in its low byte (R91, R94). -/

namespace Sys2Proof.Laws.EncodedOpcode

/-- Bits 7:0 of the encoded word are the opcode of R94. -/
def Statement (i : Instr) : Prop := slice (encode i).toNat 7 0 = i.opcode.code

theorem nop : Statement (.nop) :=
  (packRM_fields .nop (by decide) (by decide) (by decide) (by decide) (by decide) (by decide) (by decide)).1

theorem ldi (rd : Reg) (imm16 : BitVec 16) : Statement (.ldi rd imm16) :=
  (packI_fields .ldi rd.isLt imm16.isLt).1

theorem ldih (rd : Reg) (imm16 : BitVec 16) : Statement (.ldih rd imm16) :=
  (packI_fields .ldih rd.isLt imm16.isLt).1

theorem mov (rd rs1 : Reg) : Statement (.mov rd rs1) :=
  (packRM_fields .mov rd.isLt rs1.isLt (by decide) (by decide) (by decide) (by decide) (by decide)).1

theorem csrr (rd : Reg) (csr : Csr) : Statement (.csrr rd csr) :=
  (packSel_fields .csrr rd.isLt (by decide) (by decide) csr.code_lt).1

theorem csrw (rs1 : Reg) (csr : Csr) : Statement (.csrw rs1 csr) :=
  (packSel_fields .csrw (by decide) rs1.isLt (by decide) csr.code_lt).1

theorem ldc (rd rs1 : Reg) : Statement (.ldc rd rs1) :=
  (packRM_fields .ldc rd.isLt rs1.isLt (by decide) (by decide) (by decide) (by decide) (by decide)).1

theorem stc (rs1 rs2 : Reg) : Statement (.stc rs1 rs2) :=
  (packRM_fields .stc (by decide) rs1.isLt rs2.isLt (by decide) (by decide) (by decide) (by decide)).1

theorem ldraw (rd rs1 : Reg) (cm : ColorMode) (bo : ByteOrder) : Statement (.ldraw rd rs1 cm bo) :=
  (packRM_fields .ldraw rd.isLt rs1.isLt (by decide) (Nat.lt_trans cm.code_lt (by decide)) (by decide) (by decide) bo.code_lt).1

theorem straw (rs1 rs2 : Reg) (cm : ColorMode) (bo : ByteOrder) : Statement (.straw rs1 rs2 cm bo) :=
  (packRM_fields .straw (by decide) rs1.isLt rs2.isLt (Nat.lt_trans cm.code_lt (by decide)) (by decide) (by decide) bo.code_lt).1

theorem cget (rd rs1 : Reg) (ch : Channel) : Statement (.cget rd rs1 ch) :=
  (packSel_fields .cget rd.isLt rs1.isLt (by decide) (Nat.lt_trans ch.code_lt (by decide))).1

theorem cset (rd rs1 rs2 : Reg) (ch : Channel) : Statement (.cset rd rs1 rs2 ch) :=
  (packSel_fields .cset rd.isLt rs1.isLt rs2.isLt (Nat.lt_trans ch.code_lt (by decide))).1

theorem copq (rd rs1 : Reg) : Statement (.copq rd rs1) :=
  (packRM_fields .copq rd.isLt rs1.isLt (by decide) (by decide) (by decide) (by decide) (by decide)).1

theorem cisopq (rd rs1 : Reg) : Statement (.cisopq rd rs1) :=
  (packRM_fields .cisopq rd.isLt rs1.isLt (by decide) (by decide) (by decide) (by decide) (by decide)).1

theorem toargb (rd rs1 : Reg) (cm : ColorMode) : Statement (.toargb rd rs1 cm) :=
  (packRM_fields .toargb rd.isLt rs1.isLt (by decide) (Nat.lt_trans cm.code_lt (by decide)) (by decide) (by decide) (by decide)).1

theorem fromargb (rd rs1 : Reg) (cm : ColorMode) : Statement (.fromargb rd rs1 cm) :=
  (packRM_fields .fromargb rd.isLt rs1.isLt (by decide) (Nat.lt_trans cm.code_lt (by decide)) (by decide) (by decide) (by decide)).1

theorem transp (rd : Reg) (cm : ColorMode) : Statement (.transp rd cm) :=
  (packRM_fields .transp rd.isLt (by decide) (by decide) (Nat.lt_trans cm.code_lt (by decide)) (by decide) (by decide) (by decide)).1

theorem bpp (rd : Reg) (cm : ColorMode) : Statement (.bpp rd cm) :=
  (packRM_fields .bpp rd.isLt (by decide) (by decide) (Nat.lt_trans cm.code_lt (by decide)) (by decide) (by decide) (by decide)).1

theorem blend (rd rs1 rs2 : Reg) (bm : BlendMode) : Statement (.blend rd rs1 rs2 bm) :=
  (packRM_fields .blend rd.isLt rs1.isLt rs2.isLt (by decide) (Nat.lt_trans bm.code_lt (by decide)) (by decide) (by decide)).1

theorem blendv (rn rs1 rs2 : Reg) (bm : BlendMode) : Statement (.blendv rn rs1 rs2 bm) :=
  (packRM_fields .blendv rn.isLt rs1.isLt rs2.isLt (by decide) (Nat.lt_trans bm.code_lt (by decide)) (by decide) (by decide)).1

theorem blendvs (rn rs1 rs2 : Reg) (bm : BlendMode) : Statement (.blendvs rn rs1 rs2 bm) :=
  (packRM_fields .blendvs rn.isLt rs1.isLt rs2.isLt (by decide) (Nat.lt_trans bm.code_lt (by decide)) (by decide) (by decide)).1

theorem blendraw (rd rs1 rs2 : Reg) (cm : ColorMode) (bm : BlendMode) : Statement (.blendraw rd rs1 rs2 cm bm) :=
  (packRM_fields .blendraw rd.isLt rs1.isLt rs2.isLt (Nat.lt_trans cm.code_lt (by decide)) (Nat.lt_trans bm.code_lt (by decide)) (by decide) (by decide)).1

theorem blendrawm (rs1 rs2 : Reg) (cm : ColorMode) (bm : BlendMode) (bo : ByteOrder) : Statement (.blendrawm rs1 rs2 cm bm bo) :=
  (packRM_fields .blendrawm (by decide) rs1.isLt rs2.isLt (Nat.lt_trans cm.code_lt (by decide)) (Nat.lt_trans bm.code_lt (by decide)) (by decide) bo.code_lt).1

theorem sbload (rd rs1 rs2 : Reg) (cm : ColorMode) (po : PixelOrder) : Statement (.sbload rd rs1 rs2 cm po) :=
  (packRM_fields .sbload rd.isLt rs1.isLt rs2.isLt (Nat.lt_trans cm.code_lt (by decide)) (by decide) po.code_lt (by decide)).1

theorem sbstore (rd rs1 rs2 : Reg) (cm : ColorMode) (po : PixelOrder) : Statement (.sbstore rd rs1 rs2 cm po) :=
  (packRM_fields .sbstore rd.isLt rs1.isLt rs2.isLt (Nat.lt_trans cm.code_lt (by decide)) (by decide) po.code_lt (by decide)).1

theorem sbexpand (rd rs1 : Reg) (cm : ColorMode) : Statement (.sbexpand rd rs1 cm) :=
  (packRM_fields .sbexpand rd.isLt rs1.isLt (by decide) (Nat.lt_trans cm.code_lt (by decide)) (by decide) (by decide) (by decide)).1

theorem sbbulk (rs1 rs2 : Reg) (cm : ColorMode) (po : PixelOrder) : Statement (.sbbulk rs1 rs2 cm po) :=
  (packRM_fields .sbbulk (by decide) rs1.isLt rs2.isLt (Nat.lt_trans cm.code_lt (by decide)) (by decide) po.code_lt (by decide)).1

theorem sbloadm (rd rs1 rs2 : Reg) (cm : ColorMode) (po : PixelOrder) : Statement (.sbloadm rd rs1 rs2 cm po) :=
  (packRM_fields .sbloadm rd.isLt rs1.isLt rs2.isLt (Nat.lt_trans cm.code_lt (by decide)) (by decide) po.code_lt (by decide)).1

theorem sbstorem (rn rs1 rs2 : Reg) (cm : ColorMode) (po : PixelOrder) : Statement (.sbstorem rn rs1 rs2 cm po) :=
  (packRM_fields .sbstorem rn.isLt rs1.isLt rs2.isLt (Nat.lt_trans cm.code_lt (by decide)) (by decide) po.code_lt (by decide)).1

theorem palro (rs1 rs2 : Reg) (tm : TmArg) : Statement (.palro rs1 rs2 tm) :=
  (packSel_fields .palro (by decide) rs1.isLt rs2.isLt (Nat.lt_trans tm.code_lt (by decide))).1

theorem palrw (rs1 rs2 : Reg) (tm : TmArg) : Statement (.palrw rs1 rs2 tm) :=
  (packSel_fields .palrw (by decide) rs1.isLt rs2.isLt (Nat.lt_trans tm.code_lt (by decide))).1

theorem paldyn (rs1 : Reg) : Statement (.paldyn rs1) :=
  (packRM_fields .paldyn (by decide) rs1.isLt (by decide) (by decide) (by decide) (by decide) (by decide)).1

theorem palidx (rd rs1 : Reg) : Statement (.palidx rd rs1) :=
  (packRM_fields .palidx rd.isLt rs1.isLt (by decide) (by decide) (by decide) (by decide) (by decide)).1

end Sys2Proof.Laws.EncodedOpcode
end

