-- ==== Sys2Proof/Tests/Slice0.lean ====
section
/-! SUPPORT. Tests: terms that are no commands, the words of spec/ decoded, one step of each command against the
numbers of spec/95_test_vectors.md, and, for each statement with hypotheses, a state and operands that meet them. -/

namespace Sys2Proof.Tests

open Sys2Proof.Machine

/-! ## Terms that no command word stands for (R95(g), R95(h)) -/

theorem test_refuses_subByte_raw_access :
    (Instr.ldraw 3 1 .gray4 .le).wellFormed = false ∧ (Instr.straw 1 2 .mono .be).wellFormed = false ∧
      (Instr.blendrawm 1 2 .idx4 .src .le).wellFormed = false := by decide

theorem test_refuses_fullByte_slots :
    (Instr.sbload 1 2 3 .rgb565 .msb).wellFormed = false ∧ (Instr.sbstore 1 2 3 .gray8 .lsb).wellFormed = false ∧
      (Instr.sbexpand 1 2 .argb8888).wellFormed = false ∧ (Instr.sbbulk 1 2 .idx8 .msb).wellFormed = false ∧
      (Instr.sbloadm 1 2 3 .alpha8 .lsb).wellFormed = false ∧
      (Instr.sbstorem 1 2 3 .rgb888 .msb).wellFormed = false := by decide

theorem test_refuses_readOnly_csr_write :
    (Instr.csrw 1 .status).wellFormed = false ∧ (Instr.csrw 1 .palSize).wellFormed = false := by decide

/-! ## Words of spec/95_test_vectors.md part 2.10, one of each command -/

theorem test_decode_moves :
    decode 0x00000000 = .ok .nop ∧ decode 0x12340101 = .ok (.ldi 1 0x1234) ∧
      decode 0xFF100102 = .ok (.ldih 1 0xFF10) ∧ decode 0x00006503 = .ok (.mov 5 6) ∧
      decode 0x02200E04 = .ok (.csrr 14 .palSize) ∧ decode 0x01107005 = .ok (.csrw 7 .tint) ∧
      decode 0x00001406 = .ok (.ldc 4 1) ∧ decode 0x00021007 = .ok (.stc 1 2) ∧
      decode 0x40501308 = .ok (.ldraw 3 1 .rgb565 .le) ∧ decode 0x00221009 = .ok (.straw 1 2 .rgb888 .be) := by
  decide

theorem test_decode_colours :
    decode 0x00302110 = .ok (.cget 1 2 .a) ∧ decode 0x00232111 = .ok (.cset 1 2 3 .r) ∧
      decode 0x00002112 = .ok (.copq 1 2) ∧ decode 0x00002113 = .ok (.cisopq 1 2) ∧
      decode 0x00501220 = .ok (.toargb 2 1 .rgb565) ∧ decode 0x00502321 = .ok (.fromargb 3 2 .rgb565) ∧
      decode 0x00D00D22 = .ok (.transp 13 .idx1) ∧ decode 0x00300123 = .ok (.bpp 1 .argb6666) := by decide

theorem test_decode_blends :
    decode 0x02021330 = .ok (.blend 3 1 2 .srcover) ∧ decode 0x16021330 = .ok (.blend 3 1 2 .xor) ∧
      decode 0x0A065431 = .ok (.blendv 4 5 6 .dstover) ∧ decode 0x02031232 = .ok (.blendvs 2 1 3 .srcover) ∧
      decode 0x02921333 = .ok (.blendraw 3 1 2 .gray4 .srcover) ∧
      decode 0x42521034 = .ok (.blendrawm 1 2 .rgb565 .srcover .le) := by decide

theorem test_decode_slots_and_palette :
    decode 0x20DA9B40 = .ok (.sbload 11 9 10 .idx1 .lsb) ∧ decode 0x00DA6941 = .ok (.sbstore 9 6 10 .idx1 .msb) ∧
      decode 0x00E02142 = .ok (.sbexpand 1 2 .idx2) ∧ decode 0x00921043 = .ok (.sbbulk 1 2 .gray4 .msb) ∧
      decode 0x20B32144 = .ok (.sbloadm 1 2 3 .alpha4 .lsb) ∧ decode 0x00C32145 = .ok (.sbstorem 1 2 3 .mono .msb) ∧
      decode 0x00321050 = .ok (.palro 1 2 .auto) ∧ decode 0x00221051 = .ok (.palrw 1 2 .full) ∧
      decode 0x00001052 = .ok (.paldyn 1) ∧ decode 0x00002153 = .ok (.palidx 1 2) := by decide

/-- The illegal words of part 2.11. -/
theorem test_decode_refuses_fields :
    (decode 0x80000000).toOption = none ∧ (decode 0x000000FF).toOption = none ∧ (decode 0x0000000A).toOption = none ∧
      (decode 0x00000100).toOption = none ∧ (decode 0x00011003).toOption = none ∧
      (decode 0x02521330).toOption = none ∧ (decode 0x00051101).toOption = none ∧
      (decode 0x00702110).toOption = none := by decide

theorem test_decode_refuses_selectors :
    (decode 0x01102120).toOption = none ∧ (decode 0x01F02120).toOption = none ∧ (decode 0x1C021330).toOption = none ∧
      (decode 0x00901308).toOption = none ∧ (decode 0x02C21034).toOption = none ∧
      (decode 0x00532140).toOption = none ∧ (decode 0x01021043).toOption = none ∧
      (decode 0x00600104).toOption = none := by decide

theorem test_decode_refuses_csrs :
    (decode 0x00101005).toOption = none ∧ (decode 0x02201005).toOption = none := by decide

/-! ## One step -/

/-- The reset state with these values in `x1` to `x4`. -/
def start (a b c d : Word) : State := (((State.reset.setReg 1 a).setReg 2 b).setReg 3 c).setReg 4 d

/-- The reset state with these values in `x1` to `x3`, and bytes in memory from an address on. -/
def withBytes (a b c : Word) (at_ : Nat) (bs : List Byte) : State :=
  (start a b c 0).setMem (Memory.writeBytes [] at_ bs)

/-- The state after the host writes a word to `CMD`. -/
def after (w : Word) (s : State) : Option State :=
  match portWrite 0x400 w s with
  | .next t => some t
  | .fault _ => none
  | .refused _ => none

/-- A register after the host writes a word to `CMD`. -/
def regAfter (w : Word) (s : State) (r : Reg) : Option Word := (after w s).map fun t => t.reg r

/-- A CSR after the host writes a word to `CMD`. -/
def csrAfter (w : Word) (s : State) (n : Csr) : Option Word := (after w s).map fun t => t.csr n

/-- Bytes of memory after the host writes a word to `CMD`. -/
def bytesAfter (w : Word) (s : State) (a n : Nat) : Option (List Byte) :=
  (after w s).map fun t => Memory.readBytes t.mem a n

/-- FAULT_CAUSE and FAULT_INFO after the host writes a word to `CMD`. -/
def faultAfter (w : Word) (s : State) : Option (Word × Word) :=
  (after w s).map fun t => (t.csr .faultCause, t.csr .faultInfo)

/-- The state after one step. -/
def stepped (s : State) : Option State :=
  match step s with
  | .next t => some t
  | .fault _ => none
  | .refused _ => none

/-- A fetched word is run by the next step: `LDIH x1, 0xFF10` (part 2.7). -/
theorem test_withFetchWord :
    ((stepped (State.withFetchWord (start 0x1234 0 0 0) 32 0xFF100102)).map fun t => (t.reg 1, t.csr .cmdcnt)) =
      some (0xFF101234, 1) := by decide

/-- Part 2.7: LDIH, MOV. -/
theorem test_moves :
    regAfter 0xFF100102 (start 0x1234 0 0 0) 1 = some 0xFF101234 ∧
      regAfter 0x12340101 (start 0xAAAA5555 0 0 0) 1 = some 0x1234 ∧
      regAfter 0x00006503 (State.reset.setReg 6 0xDEADBEEF) 5 = some 0xDEADBEEF ∧
      csrAfter 0x00000000 State.reset .cmdcnt = some 1 := by decide

/-- Part 2.7: CSRR reads CMDCNT before its own count; CSRW ignores reserved bits. -/
theorem test_csrs :
    regAfter 0x00500204 (State.reset.count) 2 = some 1 ∧
      csrAfter 0x00007005 (State.reset.setReg 7 0xFFFFFFFF) .ctrl = some 3 ∧
      csrAfter 0x01007005 (State.reset.setReg 7 0xFFFFFFFF) .transp565 = some 0xFFFF := by decide

/-- Part 2.7: LDC, and LDRAW in both byte orders. -/
theorem test_loads :
    regAfter 0x00001406 (withBytes 0x100 0 0 0x100 [0x01, 0x7F, 0xFF, 0x80]) 4 = some 0x80FF7F01 ∧
      regAfter 0x00201308 (withBytes 0x100 0 0 0x100 [0x11, 0x22, 0x33, 0x44]) 3 = some 0x112233 ∧
      regAfter 0x40201308 (withBytes 0x100 0 0 0x100 [0x11, 0x22, 0x33, 0x44]) 3 = some 0x332211 := by decide

/-- Part 2.7: STC, and STRAW in both byte orders. -/
theorem test_stores :
    bytesAfter 0x00021007 (start 0x100 0x80FF7F01 0 0) 0x100 4 = some [0x01, 0x7F, 0xFF, 0x80] ∧
      bytesAfter 0x00221009 (withBytes 0x100 0xAB123456 0 0x100 [0xEE, 0xEE, 0xEE, 0xEE]) 0x100 4 =
        some [0x12, 0x34, 0x56, 0xEE] ∧
      bytesAfter 0x40221009 (withBytes 0x100 0xAB123456 0 0x100 [0xEE, 0xEE, 0xEE, 0xEE]) 0x100 4 =
        some [0x56, 0x34, 0x12, 0xEE] := by decide

/-- Part 2.8. -/
theorem test_colours :
    regAfter 0x00102110 (start 0 0x80FF7F01 0 0) 1 = some 0x7F ∧
      regAfter 0x00232111 (start 0 0x80FF7F01 0x1AB 0) 1 = some 0x80AB7F01 ∧
      regAfter 0x00032111 (start 0 0x80FF7F01 0xFFFFFF00 0) 1 = some 0x80FF7F00 ∧
      regAfter 0x00002112 (start 0 0x00123456 0 0) 1 = some 0xFF123456 ∧
      regAfter 0x00002113 (start 0 0xFE000000 0 0) 1 = some 0 := by decide

/-- The settings that parts 2.2 and 2.3 use. -/
def settings : State :=
  (((State.reset.setCsr .transp565 0xF81F).setCsr .tint 0x12ABCDEF).setCsr .monoFg 0xFF102030).setCsr .monoBg 0

/-- Part 2.2. -/
theorem test_toArgb :
    (toArgb settings .rgba8888 0x80FF7F01).toOption = some 0x0180FF7F ∧
      (toArgb settings .argb6666 0x00820C41).toOption = some 0x8282C704 ∧
      (toArgb settings .argb4444 0x00018F41).toOption = some 0x88FF4411 ∧
      (toArgb settings .rgb565t 0xF81F).toOption = some 0 ∧
      (toArgb settings .grayalpha8 0x8040).toOption = some 0x40808080 ∧
      (toArgb settings .alpha4 8).toOption = some 0x88ABCDEF ∧ (toArgb settings .mono 1).toOption = some 0xFF102030 := by
  decide

/-- Part 2.3. -/
theorem test_fromArgb :
    (fromArgb settings .argb6666 0x80FF7F01).toOption.map Prod.fst = some 0x7FF7C0 ∧
      (fromArgb settings .argb4444 0x80FF7F01).toOption.map Prod.fst = some 0x7F70 ∧
      (fromArgb settings .rgb565t 0xFFFF00FF).toOption.map Prod.fst = some 0xF83F ∧
      (fromArgb settings .rgb565t 0x7FFF00FF).toOption.map Prod.fst = some 0xF81F ∧
      (fromArgb settings .grayalpha8 0x40102030).toOption.map Prod.fst = some 0x1C40 ∧
      (fromArgb settings .mono 0x00FFFFFF).toOption.map Prod.fst = some 0 := by decide

/-- Part 2.4, rows 3 and 2. -/
theorem test_blend :
    blend .srcover 0x40204060 0xC0E0A080 = 0xD0D1997E ∧ blend .srcatop 0x40204060 0xC0E0A080 = 0x40B18878 ∧
      blend .dstover 0x40204060 0xC0E0A080 = 0xD0A58276 ∧ blend .dstatop 0x40204060 0xC0E0A080 = 0xC0B08878 ∧
      blend .srcout 0x40204060 0xC0E0A080 = 0x90E0A080 ∧ blend .xor 0x40204060 0xC0E0A080 = 0xA0CD967D ∧
      blend .dstoveropq 0x40204060 0xC0E0A080 = 0xFFB08878 ∧ blend .clear 0xFF102030 0xFF405060 = 0x00FFFFFF := by
  decide

/-- R245 and R247: the examples. -/
theorem test_blend_commands :
    regAfter 0x02021330 (start 0xFFFFFFFF 0x80000000 0 0) 3 = some 0xFF7F7F7F ∧
      bytesAfter 0x02031232 (withBytes 0x200 2 0x80000000 0x200 [0xFF, 0xFF, 0xFF, 0xFF]) 0x200 8 =
        some [0x7F, 0x7F, 0x7F, 0xFF, 0x00, 0x00, 0x00, 0x80] := by decide

/-- R67: an overlapping BLENDV.src copies the first word onwards, element by element; `dst = src + 4`. -/
theorem test_blendv_overlap :
    bytesAfter 0x00032131 (withBytes 2 0x204 0x200 0x200 [1, 2, 3, 4, 5, 6, 7, 8]) 0x200 12 =
      some [1, 2, 3, 4, 1, 2, 3, 4, 1, 2, 3, 4] := by decide

/-- Part 2.5, and P2. -/
theorem test_raw_blend :
    regAfter 0x02921333 (start 0xF 0x80000000 0 0) 3 = some 7 ∧
      bytesAfter 0x42521034 (withBytes 0x100 0x80000000 0 0x100 [0xFF, 0xFF]) 0x100 2 = some [0xEF, 0x7B] := by decide

/-- Part 2.6. -/
theorem test_slots :
    (List.range 4).map (loadRaw 2 .msb 0xB4) = [2, 3, 1, 0] ∧ (List.range 4).map (loadRaw 2 .lsb 0xB4) = [0, 1, 3, 2] ∧
      storeRaw 4 .msb 0xAB 0xF5 1 = 0xA5 ∧ storeRaw 2 .lsb 0xB4 2 2 = 0xA4 ∧ expandRaw 2 6 = 0xAA := by decide

/-- R274 to R279: the examples. -/
theorem test_slot_commands :
    regAfter 0x20DA9B40 ((State.reset.setReg 9 0x10).setReg 10 3) 11 = some 0 ∧
      regAfter 0x00DA6941 ((State.reset.setReg 6 1).setReg 10 3) 9 = some 0x10 ∧
      bytesAfter 0x00921043 (start 0xAB 0x300 0 0) 0x300 8 = some [0xAA, 0xAA, 0xAA, 0xFF, 0xBB, 0xBB, 0xBB, 0xFF] ∧
      regAfter 0x20B32144 (withBytes 0 0x40 1 0x40 [0xAB]) 1 = some 0xA ∧
      bytesAfter 0x00C32145 (start 1 0x40 0 0) 0x40 1 = some [0x80] := by decide

/-- The array of part 2.9. -/
def paletteArray : State :=
  withBytes 0x400 4 0xFFFFFFFF 0x400
    [0x00, 0x00, 0x00, 0xFF, 0xFF, 0xFF, 0xFF, 0xFF, 0x00, 0x00, 0x00, 0x00, 0xFF, 0xFF, 0xFF, 0xFF]

/-- Part 2.9: PALRO.auto, PALRW.full, and a lookup after PALRW. -/
theorem test_borrowed_palettes :
    csrAfter 0x00321050 paletteArray .palTm = some 1 ∧ csrAfter 0x00221051 paletteArray .palTm = some 2 ∧
      csrAfter 0x00321050 paletteArray .palSize = some 4 ∧
      ((after 0x00321051 paletteArray).bind fun t => regAfter 0x00003453 t 4) = some 1 ∧
      ((after 0x00321051 paletteArray).bind fun t => regAfter 0x01003420 (t.setReg 3 2) 4) = some 0 := by decide

/-- R299: after PALDYN with capacity 2 a lookup inserts. -/
theorem test_dynamic_palette :
    ((after 0x00001052 (start 2 0x80000000 0 0)).bind fun t => regAfter 0x00002153 t 1) = some 0 ∧
      ((after 0x00001052 (start 2 0x80000000 0 0)).bind fun t => csrAfter 0x00002153 t .palSize) = some 1 ∧
      ((after 0x00001052 (start 2 0x80000000 0 0)).bind fun t => csrAfter 0x00002153 t .palTm) = some 2 := by decide

/-- R202, R203: the examples. -/
theorem test_mode_queries :
    regAfter 0x00C00122 State.reset 1 = some 1 ∧ regAfter 0x00300123 State.reset 1 = some 24 := by decide

/-! ## Faults: spec/95_test_vectors.md part 2.11 -/

/-- Some addresses only: `0x100` to `0x102`, `0x200` to `0x207`, the words at `0x300`, and at the top of the space;
the last cannot be written. -/
def patches (s : State) : State :=
  { s with memMap := [{ base := 0x100, size := 3, writable := true }, { base := 0x200, size := 8, writable := true },
      { base := 0x300, size := 4, writable := true }, { base := 0xFFFFFFF8, size := 8, writable := false }] }

theorem test_faults_of_operands :
    faultAfter 0x80000000 State.reset = some (1, 0) ∧ faultAfter 0x00932140 (start 0 0 2 0) = some (2, 2) ∧
      faultAfter 0x00E32144 (patches (start 0 0 0xFFFFFFFF 0)) = some (2, 0xFFFFFFFF) ∧
      faultAfter 0x00001052 (start 257 0 0 0) = some (2, 257) ∧ faultAfter 0x00021050 (start 0 300 0 0) = some (2, 300) := by
  decide

theorem test_faults_of_addresses :
    faultAfter 0x00001406 (patches (start 0x100 0 0 0)) = some (3, 0x103) ∧
      faultAfter 0x00001406 (patches (start 0xFFFFFFFE 0 0 0)) = some (3, 0xFFFFFFFF) ∧
      faultAfter 0x02065431 (patches (((State.reset.setReg 4 2).setReg 5 0x200).setReg 6 0x300)) = some (3, 0x304) ∧
      faultAfter 0x00021007 (patches (start 0xFFFFFFF8 0 0 0)) = some (3, 0xFFFFFFF8) := by decide

theorem test_faults_of_lookups :
    faultAfter 0x01002121 (start 0 0xFF123456 0 0) = some (4, 0xFF123456) ∧
      faultAfter 0x00002153 (start 0 0x80ABCDEF 0 0) = some (4, 0x80ABCDEF) ∧
      faultAfter 0x02D21333 (withBytes 0 0x80FFFFFF 0 0 [0, 0, 0, 0xFF]) = some (4, 0xFF808080) ∧
      regAfter 0x00002153 ((start 5 0x80ABCDEF 0 0).setCsr .ctrl 0) 1 = some 0 := by decide

/-! ## Witnesses: states and operands that meet the hypotheses of the statements -/

theorem rangeOk_of {s : State} {k : Access} {a len : Nat} (h : firstBad s.memMap k a len = none) : RangeOk s k a len :=
  (firstBad_eq_none_iff s.memMap k a len).mp h

theorem lowestBad_of {s : State} {k : Access} {a len b : Nat} (h : firstBad s.memMap k a len = some b) :
    LowestBad s k a len b :=
  (firstBad_eq_some_iff s.memMap k a len b).mp h

/-- A Dynamic palette of capacity 2 with one entry. -/
def oneEntry (c : Color) : State := insertColor (State.reset.setDynamic 2) c 0

theorem oneEntry_zero (c : Color) : (oneEntry c).palRam[0] = c := by simp [oneEntry, insertColor]

theorem paletteOk_oneEntry : PaletteOk (oneEntry 0x80123456) where
  size_le_cap := by decide
  readOnly h := nomatch h
  readWrite h := nomatch h
  dynamic_distinct := by
    intro _ i j _ _ (h1 : i < 1) (h2 : j < 1) h
    omega
  dynamic_index := by
    intro _ c i
    show (if (0x80123456 : Color) = c then some (0 : Fin 256) else none) = some i ↔ i.val < 1 ∧ _
    constructor
    · intro h
      split at h
      · rename_i hc
        injection h with h
        subst h
        subst hc
        exact ⟨by decide, by simp [oneEntry, insertColor]⟩
      · contradiction
    · rintro ⟨h1, h2⟩
      have hi : i = 0 := Fin.ext (by omega)
      subst hi
      rw [if_pos]
      rw [← h2]
      simp [oneEntry, insertColor]
  dynamic_unused := by
    intro _ i hi (h : 1 ≤ i)
    simp only [oneEntry, insertColor, State.setDynamic]
    rw [Vector.getElem_set_ne _ _ (by simp; omega)]
    simp
  dynamic_class_bound := by
    intro _ i hi (h : i < 1)
    obtain rfl : i = 0 := by omega
    rw [oneEntry_zero]
    decide
  dynamic_class_met := by
    intro _
    refine Or.inr ⟨0, by decide, by decide, ?_⟩
    rw [oneEntry_zero]
    decide

theorem witness_decodeOfEncode : (Instr.sbstorem 15 15 15 .idx4 .lsb).wellFormed = true := by decide

theorem witness_encodeOfDecode : decode 0xFFFF0F02 = .ok (.ldih 15 0xFFFF) := by decide

theorem witness_stepRunsDecodedCommand :
    (State.reset.setMoves [.portWrite 0x400 0x00001052, .reset]).moves = .portWrite 0x400 0x00001052 :: [.reset] ∧
      (State.reset.setMoves [.portWrite 0x400 0x00001052, .reset]).statusFaulted = false ∧
      decode 0x00001052 = .ok (.paldyn 1) := by decide

theorem witness_illegalWordFaults :
    State.reset.statusFaulted = false ∧ LatchOk State.reset ∧ ¬ LegalWord 0x000000FF :=
  ⟨rfl, ⟨fun _ => ⟨rfl, rfl, rfl⟩, fun h => nomatch h⟩, fun ⟨row, hm, h⟩ =>
    (by decide : ∀ row ∈ commandRows, slice (0x000000FF : Word).toNat 7 0 ≠ row.opcode) row hm h.1⟩

/-- A state with a fault latched. -/
def faulted : State := State.reset.takeFault (.operandRange 257) 0x00001052

theorem witness_faultedEngineDropsCommands :
    faulted.statusFaulted = true ∧
      (faulted.setMoves [.portWrite 0x400 0]).moves = .portWrite 0x400 0 :: [] := ⟨rfl, rfl⟩

theorem witness_faultsArePrecise :
    State.reset.statusFaulted = false ∧ (∃ t, portWrite 0x400 0x00000000 State.reset = .next t) ∧
      ∃ t, portWrite 0x400 0x00002153 State.reset = .next t := ⟨rfl, ⟨_, rfl⟩, ⟨_, rfl⟩⟩

theorem witness_faultsByCommand :
    (Instr.palidx 1 2).wellFormed = true ∧ State.reset.faultCause = .none ∧
      ∃ t, exec (.palidx 1 2) State.reset = .next t := ⟨rfl, rfl, _, rfl⟩

theorem witness_registerAndMemoryWriters :
    ∃ t, exec (.stc 1 2) (start 0xFFFFFFFC 0x80123456 0 0) = .next t ∧ destination (.stc 1 2) ≠ some 1 :=
  ⟨_, rfl, by decide⟩

theorem witness_csrAndPaletteWriters :
    ∃ t, exec (.palidx 1 2) ((oneEntry 0x80123456).setReg 2 0xFF000000) = .next t ∧
      t.csr .palSize ≠ ((oneEntry 0x80123456).setReg 2 0xFF000000).csr .palSize ∧
      t.ridx ≠ ((oneEntry 0x80123456).setReg 2 0xFF000000).ridx := ⟨_, rfl, by decide, by decide⟩

theorem witness_modesAfterReset :
    (0x00010000 : Word).toNat % 65536 = 0 ∧ alphaOf 0xFF070307 = 255 ∧ rgb565Of 0xFF070307 = 0 ∧
      ColorMode.idx8.indexed = true ∧
      RangeOk (State.reset.resetEngine.setReg 1 0xFFFFFFFF) .read
        (4 * ((0xFFFFFFFF : Word).toNat % 2 ^ bitsPerPixel .idx8)) 4 ∧
      LowestBad ((patches State.reset).resetEngine.setReg 1 0xFFFFFF40) .read
        (4 * ((0xFFFFFF40 : Word).toNat % 2 ^ bitsPerPixel .idx8)) 4 0x103 :=
  ⟨by decide, by decide, by decide, rfl, rangeOk_of (by decide), lowestBad_of (by decide)⟩

theorem witness_invariantKept :
    Inv (oneEntry 0x80123456) ∧ ∃ t, step (oneEntry 0x80123456) = .next t :=
  ⟨⟨rfl, ⟨fun _ => ⟨rfl, rfl, rfl⟩, fun h => nomatch h⟩, paletteOk_oneEntry⟩, _, rfl⟩

theorem witness_paletteInvariants :
    PaletteOk (oneEntry 0x80123456) ∧ (∃ t, exec (.palidx 1 2) (oneEntry 0x80123456) = .next t) ∧
      (oneEntry 0x80123456).palKind = .dynamic ∧ isFactory (.palidx 1 2) = false ∧
      ridxLookup (oneEntry 0x80123456).ridx 0x80123456 = some 0 :=
  ⟨paletteOk_oneEntry, ⟨_, rfl⟩, rfl, rfl, by decide⟩

theorem witness_csrrCommand :
    LatchOk State.reset ∧ State.reset.statusFaulted = false ∧ Csr.faultInfo ∈ faultCsrs :=
  ⟨⟨fun _ => ⟨rfl, rfl, rfl⟩, fun h => nomatch h⟩, rfl, by decide⟩

theorem witness_csrwCommand : Csr.writable .monoBg = true ∧ Csr.writable .palTm = false := ⟨rfl, rfl⟩

theorem witness_loadCommands :
    RangeOk (patches (start 0xFFFFFFFC 0 0 0)) .read ((patches (start 0xFFFFFFFC 0 0 0)).reg 1).toNat 4 ∧
      ColorMode.rgb888.fullByte = true ∧
      RangeOk (patches (start 0x100 0 0 0)) .read ((patches (start 0x100 0 0 0)).reg 1).toNat
        (bitsPerPixel .rgb888 / 8) :=
  ⟨rangeOk_of (by decide), rfl, rangeOk_of (by decide)⟩

theorem witness_storeCommands :
    Memory.wf (patches (start 0x204 0 0 0)).mem = true ∧
      RangeOk (patches (start 0x204 0 0 0)) .write ((patches (start 0x204 0 0 0)).reg 1).toNat 4 ∧
      ColorMode.rgb888.fullByte = true ∧
      RangeOk (patches (start 0x100 0 0 0)) .write ((patches (start 0x100 0 0 0)).reg 1).toNat
        (bitsPerPixel .rgb888 / 8) :=
  ⟨rfl, rangeOk_of (by decide), rfl, rangeOk_of (by decide)⟩

theorem witness_channelReadBack :
    (∃ t, exec (.cset 1 1 2 .a) (start 0x01020304 0xFFF 0 0) = .next t) ∧ Channel.b ≠ .a := ⟨⟨_, rfl⟩, by decide⟩

/-- A ReadOnly palette whose entry 0 is the word at `0x204`, with ASSERT_EN as given. -/
def borrowing (assert : Bool) (a b c : Word) : State :=
  { (patches (start a b c 0)) with palBase := 0x204, ctrlAssertEn := assert }

theorem witness_toargbCommand : EntryReadable (borrowing true 0x100 0 0) .idx8 ((borrowing true 0x100 0 0).reg 1).toNat :=
  fun _ _ => rangeOk_of (by decide)

theorem witness_fromargbCommand : LookupAllowed (borrowing false 0 0 0) .idx8 := fun _ _ => rfl

theorem witness_palidxCommand :
    ¬ ((borrowing false 0 0 0).palKind = .readOnly ∧ (borrowing false 0 0 0).ctrlAssertEn = true) ∧
      ¬ ((oneEntry 0).palKind = .readOnly ∧ (oneEntry 0).ctrlAssertEn = true) := by decide

theorem witness_transparencyIsSafe :
    PaletteOk (oneEntry 0x80123456) ∧ ColorMode.idx8.indexed = true ∧ (oneEntry 0x80123456).palKind = .dynamic ∧
      256 % 2 ^ bitsPerPixel .idx8 < (oneEntry 0x80123456).palSize.val ∧
      (∃ t, exec (.transp 1 .idx8) (oneEntry 0x80123456) = .next t) ∧
      DecodesTo (oneEntry 0x80123456) .idx8 256 0x80123456 :=
  ⟨paletteOk_oneEntry, rfl, rfl, by decide, ⟨_, rfl⟩, Or.inl ⟨rfl, by decide, by simp [oneEntry, insertColor, bitsPerPixel]⟩⟩

theorem witness_truncationProperties : 0 ≤ 255 ∧ 255 < 256 := by decide

theorem witness_roundTrip :
    PaletteOk (oneEntry 0x80123456) ∧
      ((oneEntry 0x80123456).setCsr .monoFg 0x01000000).monoFg ≠
        ((oneEntry 0x80123456).setCsr .monoFg 0x01000000).monoBg ∧
      alphaOf ((oneEntry 0x80123456).setCsr .monoFg 0x01000000).monoFg ≠ 0 ∧
      (oneEntry 0x80123456).palKind = .dynamic ∧
      ((oneEntry 0x80123456).reg 1).toNat % 2 ^ bitsPerPixel .idx1 < (oneEntry 0x80123456).palSize.val :=
  ⟨paletteOk_oneEntry, by decide, by decide, rfl, by decide⟩

theorem witness_division : 65025 ≤ 65025 ∧ 255 ≤ 255 := by decide

/-- One pair of colours for each case of kSourceOver and of kXor. -/
theorem witness_blendOverXor :
    alphaOf 0xFF000000 = 255 ∧ alphaOf 0xFEFFFFFF ≠ 255 ∧ alphaOf 0x00FFFFFF = 0 ∧ 0 < alphaOf 0x01000000 ∧
      alphaOf 0xFEFFFFFF < 255 ∧
      alphaOf 0xFF000000 * (255 - alphaOf 0xFF000000) + alphaOf 0xFF000000 * (255 - alphaOf 0xFF000000) = 0 ∧
      alphaOf 0x01000000 * (255 - alphaOf 0xFE000000) + alphaOf 0xFE000000 * (255 - alphaOf 0x01000000) ≠ 0 := by
  decide

theorem witness_blendSubstitution : alphaOf 0xFF123456 = 255 := by decide

/-- One word at `0x204` and another at `0xFFFFFFFC`. -/
theorem witness_blendvCommand :
    1 = ((patches (start 1 0x204 0xFFFFFFFC 0)).reg 1).toNat ∧
      0x204 = ((patches (start 1 0x204 0xFFFFFFFC 0)).reg 2).toNat ∧
      0xFFFFFFFC = ((patches (start 1 0x204 0xFFFFFFFC 0)).reg 3).toNat ∧
      Memory.wf (patches (start 1 0x204 0xFFFFFFFC 0)).mem = true ∧
      RangeOk (patches (start 1 0x204 0xFFFFFFFC 0)) .write 0x204 (4 * 1) ∧
      RangeOk (patches (start 1 0x204 0xFFFFFFFC 0)) .read 0xFFFFFFFC (4 * 1) :=
  ⟨by decide, by decide, by decide, rfl, rangeOk_of (by decide), rangeOk_of (by decide)⟩

/-- Two words that touch: the destination at `0x200`, the source at `0x204`. -/
theorem witness_blendvDisjoint :
    1 = ((patches (start 1 0x200 0x204 0)).reg 1).toNat ∧ 0x200 = ((patches (start 1 0x200 0x204 0)).reg 2).toNat ∧
      0x204 = ((patches (start 1 0x200 0x204 0)).reg 3).toNat ∧
      Memory.wf (patches (start 1 0x200 0x204 0)).mem = true ∧
      RangeOk (patches (start 1 0x200 0x204 0)) .write 0x200 (4 * 1) ∧
      RangeOk (patches (start 1 0x200 0x204 0)) .read 0x204 (4 * 1) ∧ 0x200 + 4 * 1 ≤ 0x204 ∧
      (∃ t, exec (.blendv 1 2 3 .srcover) (patches (start 1 0x200 0x204 0)) = .next t) ∧ 0 < 1 ∧
      WordAt (patches (start 1 0x200 0x204 0)).mem (0x200 + 4 * 0) 0 ∧
      WordAt (patches (start 1 0x200 0x204 0)).mem (0x204 + 4 * 0) 0 :=
  ⟨by decide, by decide, by decide, rfl, rangeOk_of (by decide), rangeOk_of (by decide), by decide, ⟨_, rfl⟩,
    by decide, (wordAt_iff _ _ _).mpr rfl, (wordAt_iff _ _ _).mpr rfl⟩

theorem witness_blendvsCommand :
    2 = ((patches (start 2 0x200 0 0)).reg 1).toNat ∧ 0x200 = ((patches (start 2 0x200 0 0)).reg 2).toNat ∧
      Memory.wf (patches (start 2 0x200 0 0)).mem = true ∧
      RangeOk (patches (start 2 0x200 0 0)) .write 0x200 (4 * 2) ∧
      WordAt (patches (start 2 0x200 0 0)).mem (0x200 + 4 * 1) 0 :=
  ⟨by decide, by decide, rfl, rangeOk_of (by decide), (wordAt_iff _ _ _).mpr rfl⟩

theorem witness_blendrawCommand :
    EntryReadable (borrowing false 0 0 0) .idx8 ((borrowing false 0 0 0).reg 1).toNat ∧
      LookupAllowed (borrowing false 0 0 0) .idx8 := ⟨fun _ _ => rangeOk_of (by decide), fun _ _ => rfl⟩

theorem witness_blendrawmCommand :
    0x207 = ((borrowing false 0x207 0 0).reg 1).toNat ∧ 1 = bitsPerPixel .idx8 / 8 ∧ ColorMode.idx8.fullByte = true ∧
      Memory.wf (borrowing false 0x207 0 0).mem = true ∧ RangeOk (borrowing false 0x207 0 0) .write 0x207 1 ∧
      PixelAt (borrowing false 0x207 0 0).mem 0x207 1 .be 0 ∧ EntryReadable (borrowing false 0x207 0 0) .idx8 0 ∧
      LookupAllowed (borrowing false 0x207 0 0) .idx8 :=
  ⟨by decide, by decide, rfl, rfl, rangeOk_of (by decide), pixelAt_load _ _ _ _, fun _ _ => rangeOk_of (by decide),
    fun _ _ => rfl⟩

/-- The highest slot: 7 of a monochrome byte. -/
theorem witness_subByteRegisterCommands :
    ColorMode.mono.fullByte = false ∧ 1 = bitsPerPixel .mono ∧ ((start 0 0 7 0).reg 3).toNat < 8 / 1 := by decide

theorem witness_subByteMemoryCommands :
    ColorMode.idx4.fullByte = false ∧ 4 = bitsPerPixel .idx4 ∧ 0x102 = ((patches (start 0 0x102 1 0)).reg 2).toNat ∧
      ((patches (start 0 0x102 1 0)).reg 3).toNat < 8 / 4 ∧ RangeOk (patches (start 0 0x102 1 0)) .read 0x102 1 ∧
      RangeOk (patches (start 0 0x102 1 0)) .write 0x102 1 ∧ Memory.wf (patches (start 0 0x102 1 0)).mem = true :=
  ⟨rfl, by decide, by decide, by decide, rangeOk_of (by decide), rangeOk_of (by decide), rfl⟩

/-- Two pixels of a byte, their entries borrowed at `0x204` and, for entry 0 alone, readable. -/
theorem witness_sbbulkCommand :
    ColorMode.idx4.fullByte = false ∧ 4 = bitsPerPixel .idx4 ∧ 0x200 = ((borrowing true 0 0x200 0).reg 2).toNat ∧
      Memory.wf (borrowing true 0 0x200 0).mem = true ∧ RangeOk (borrowing true 0 0x200 0) .write 0x200 (4 * (8 / 4)) ∧
      ∀ i, i < 8 / 4 → EntryReadable (borrowing true 0 0x200 0) .idx4
        (pixelOf 4 .msb (((borrowing true 0 0x200 0).reg 1).toNat % 256) i) :=
  ⟨rfl, by decide, by decide, rfl, rangeOk_of (by decide), fun i hi _ _ => rangeOk_of (by
    rcases (by omega : i = 0 ∨ i = 1) with rfl | rfl <;> decide)⟩

theorem witness_subByteConsistency :
    ColorMode.mono.fullByte = false ∧ 1 = bitsPerPixel .mono ∧ 255 < 256 ∧ 1 < 2 ^ 1 ∧ 7 < 8 / 1 ∧ 0 < 8 / 1 ∧ 7 ≠ 0 ∧
      ∃ cs, loadBulk State.reset .mono .lsb 255 = .ok cs :=
  ⟨rfl, by decide, by decide, by decide, by decide, by decide, by decide, _, rfl⟩

theorem witness_palroPaldynCommands :
    ((start 0xFFFFFC00 256 0 0).reg 2).toNat ≤ 256 ∧
      (TmArg.auto = .auto → RangeOk (start 0xFFFFFC00 256 0 0) .read ((start 0xFFFFFC00 256 0 0).reg 1).toNat
        (4 * ((start 0xFFFFFC00 256 0 0).reg 2).toNat)) :=
  ⟨by decide, fun _ => rangeOk_of (by decide)⟩

theorem witness_palrwCommand :
    0xFFFFFC00 = ((start 0xFFFFFC00 256 0 0).reg 1).toNat ∧ 256 = ((start 0xFFFFFC00 256 0 0).reg 2).toNat ∧
      256 ≤ 256 ∧ RangeOk (start 0xFFFFFC00 256 0 0) .read 0xFFFFFC00 (4 * 256) :=
  ⟨by decide, by decide, by decide, rangeOk_of (by decide)⟩

theorem witness_paletteCapacity :
    256 = ((start 256 0 0 0).reg 1).toNat ∧ 256 ≤ 256 ∧ (∃ s, exec (.paldyn 1) (start 256 0 0 0) = .next s) ∧
      0 = (State.reset.reg 1).toNat ∧ ∃ s, exec (.paldyn 1) State.reset = .next s :=
  ⟨by decide, by decide, ⟨_, rfl⟩, by decide, ⟨_, rfl⟩⟩

theorem witness_operandRangeFaults :
    ColorMode.mono.fullByte = false ∧ 8 / bitsPerPixel .mono ≤ ((start 0 8 0 0).reg 2).toNat ∧
      256 < ((start 0 257 0 0).reg 2).toNat := by decide

theorem witness_accessFaultsOfRanges :
    LowestBad (patches (start 0x100 0 0 0)) .read ((patches (start 0x100 0 0 0)).reg 1).toNat 4 0x103 ∧
      LowestBad (patches (start 0xFFFFFFFE 0 0 0)) .read ((patches (start 0xFFFFFFFE 0 0 0)).reg 1).toNat 4 (2 ^ 32) ∧
      LowestBad (patches (start 0xFFFFFFFE 0 0 0)) .write ((patches (start 0xFFFFFFFE 0 0 0)).reg 1).toNat 4
        0xFFFFFFFE ∧
      ColorMode.argb8888.fullByte = true ∧
      LowestBad (patches (start 0x100 0 0 0)) .read ((patches (start 0x100 0 0 0)).reg 1).toNat
        (bitsPerPixel .argb8888 / 8) 0x103 ∧
      LowestBad (patches (start 0x100 0 0 0)) .write ((patches (start 0x100 0 0 0)).reg 1).toNat
        (bitsPerPixel .argb8888 / 8) 0x103 ∧
      LowestBad (patches (start 0x200 0 3 0)) .write ((patches (start 0x200 0 3 0)).reg 1).toNat
        (4 * ((patches (start 0x200 0 3 0)).reg 3).toNat) 0x208 ∧
      RangeOk (patches (start 0x200 0x300 2 0)) .write ((patches (start 0x200 0x300 2 0)).reg 1).toNat
        (4 * ((patches (start 0x200 0x300 2 0)).reg 3).toNat) ∧
      LowestBad (patches (start 0x200 0x300 2 0)) .read ((patches (start 0x200 0x300 2 0)).reg 2).toNat
        (4 * ((patches (start 0x200 0x300 2 0)).reg 3).toNat) 0x304 :=
  ⟨lowestBad_of (by decide), lowestBad_of (by decide), lowestBad_of (by decide), rfl, lowestBad_of (by decide),
    lowestBad_of (by decide), lowestBad_of (by decide), rangeOk_of (by decide), lowestBad_of (by decide)⟩

theorem witness_accessFaultsOfRanges_slots_and_palettes :
    ColorMode.idx2.fullByte = false ∧
      LowestBad (patches (start 0 0x200 0 0)) .write ((patches (start 0 0x200 0 0)).reg 2).toNat
        (4 * (8 / bitsPerPixel .idx2)) 0x208 ∧
      ((patches (start 0x103 3 0 0)).reg 2).toNat < 8 / bitsPerPixel .idx2 ∧
      LowestBad (patches (start 0x103 3 0 0)) .read ((patches (start 0x103 3 0 0)).reg 1).toNat 1 0x103 ∧
      LowestBad (patches (start 0x103 3 0 0)) .write ((patches (start 0x103 3 0 0)).reg 1).toNat 1 0x103 ∧
      ((patches (start 0x200 256 0 0)).reg 2).toNat ≤ 256 ∧
      LowestBad (patches (start 0x200 256 0 0)) .read ((patches (start 0x200 256 0 0)).reg 1).toNat
        (4 * ((patches (start 0x200 256 0 0)).reg 2).toNat) 0x208 :=
  ⟨rfl, lowestBad_of (by decide), by decide, lowestBad_of (by decide), lowestBad_of (by decide), by decide,
    lowestBad_of (by decide)⟩

theorem witness_accessFaultsOfEntries :
    ColorMode.idx8.indexed = true ∧ (borrowing true 1 0x200 0).palKind ≠ .dynamic ∧
      LowestBad (borrowing true 1 0x200 0) .read ((borrowing true 1 0x200 0).palBase.toNat
        + 4 * (((borrowing true 1 0x200 0).reg 1).toNat % 2 ^ bitsPerPixel .idx8)) 4 0x208 ∧
      ColorMode.idx4.indexed = true ∧ ColorMode.idx4 ≠ .idx8 ∧
      RangeOk (borrowing true 1 0x200 0) .write ((borrowing true 1 0x200 0).reg 2).toNat
        (4 * (8 / bitsPerPixel .idx4)) ∧
      1 < 8 / bitsPerPixel .idx4 ∧
      (∀ j, j < 1 → EntryReadable (borrowing true 1 0x200 0) .idx4
        (pixelOf (bitsPerPixel .idx4) .msb (((borrowing true 1 0x200 0).reg 1).toNat % 256) j)) ∧
      LowestBad (borrowing true 1 0x200 0) .read ((borrowing true 1 0x200 0).palBase.toNat
        + 4 * pixelOf (bitsPerPixel .idx4) .msb (((borrowing true 1 0x200 0).reg 1).toNat % 256) 1) 4 0x208 :=
  ⟨rfl, by decide, lowestBad_of (by decide), rfl, by decide, rangeOk_of (by decide), by decide,
    fun j hj _ _ => rangeOk_of (by
      obtain rfl : j = 0 := by omega
      decide), lowestBad_of (by decide)⟩

/-- The byte at `0x200` is 1, so that BLENDRAWM of Indexed8 needs entry 1, at `0x208`. -/
theorem witness_accessFaultsOfEntries_memory :
    RangeOk ((borrowing true 0x200 0 0).setMem [(0x200, 1)]) .write
        (((borrowing true 0x200 0 0).setMem [(0x200, 1)]).reg 1).toNat 1 ∧
      LowestBad ((borrowing true 0x200 0 0).setMem [(0x200, 1)]) .read
        (((borrowing true 0x200 0 0).setMem [(0x200, 1)]).palBase.toNat
          + 4 * (Memory.read [(0x200, 1)] (((borrowing true 0x200 0 0).setMem [(0x200, 1)]).reg 1).toNat).toNat)
        4 0x208 :=
  ⟨rangeOk_of (by decide), lowestBad_of (by decide)⟩

theorem witness_paletteAsserts :
    (borrowing true 0x100 0 0).palKind = .readOnly ∧ (borrowing true 0x100 0 0).ctrlAssertEn = true ∧
      ColorMode.idx8.indexed = true ∧
      DecodesTo (borrowing true 0x100 0 0) .idx8 ((borrowing true 0x100 0 0).reg 1).toNat 0 ∧
      RangeOk (borrowing true 0x100 0 0) .write ((borrowing true 0x100 0 0).reg 1).toNat 1 ∧
      DecodesTo (borrowing true 0x100 0 0) .idx8
        (Memory.read (borrowing true 0x100 0 0).mem ((borrowing true 0x100 0 0).reg 1).toNat).toNat 0 :=
  ⟨rfl, rfl, rfl, Or.inr ⟨by decide, rangeOk_of (by decide), by decide⟩, rangeOk_of (by decide),
    Or.inr ⟨by decide, rangeOk_of (by decide), by decide⟩⟩

theorem witness_hostPort :
    (6 < 256 ∧ anyCsr 6 = false) ∧ (0xC0 < 256 ∧ anyCsr 0xC0 = false) ∧ (0x3F % 4 ≠ 0 ∧ 0x40 ≤ 0x40 ∧ 0xFC < 0x100) ∧
      0x404 < 0x408 ∧ Csr.writable .ctrl = true ∧ Csr.writable .status = false := by decide

theorem witness_hostMemoryMoves : Memory.wf (withBytes 0 0 0 0xFFFFFFFF [1]).mem = true := by decide

end Sys2Proof.Tests
end

section
/-! SUPPORT. A colour and its channels (spec/00_scope.md R7). -/

namespace Sys2Proof.Machine

/-- A colour is rebuilt from its own four channels (R7). -/
theorem argb_channels (c : Color) : argb (alphaOf c) (redOf c) (greenOf c) (blueOf c) = c :=
  (argb_eq_iff c (alphaOf_lt c) (redOf_lt c) (greenOf_lt c) (blueOf_lt c)).2 (toNat_eq_channels c)

/-- Settles O24: the channels are the bytes of the word, and `toNat_argb` states the masking of `ARGB`. -/
theorem colorChannels : Obligations.ColorChannels :=
  ⟨fun c => ⟨alphaOf_eq c, redOf_eq c, greenOf_eq c, blueOf_eq c, argb_channels c⟩, toNat_argb⟩

end Sys2Proof.Machine
end

section
/-! SUPPORT. The array commands and the bytes they store: the canonical form, and the bytes outside the destination. -/

namespace Sys2Proof.Machine

theorem Memory.wf_blendArrays {m : List Host.Cell} {pd n : Nat} (bm : BlendMode) (ps : Nat) (h : Memory.wf m = true)
    (ha : pd + 4 * n ≤ Config.addressSpace) : Memory.wf (blendArrays bm m pd ps n) = true := by
  induction n generalizing m pd ps with
  | zero => exact h
  | succ n ih => exact ih (ps + 4) (Memory.wf_storeColor _ h (by omega)) (by omega)

theorem Memory.read_blendArrays_outside (bm : BlendMode) (m : List Host.Cell) (pd ps n x : Nat)
    (hx : x < pd ∨ pd + 4 * n ≤ x) : Memory.read (blendArrays bm m pd ps n) x = Memory.read m x := by
  induction n generalizing m pd ps with
  | zero => rfl
  | succ n ih =>
    rw [blendArrays, ih _ _ _ (by omega)]
    exact Memory.read_storeColor_outside m pd x _ (by omega)

theorem Memory.wf_blendArraySingle {m : List Host.Cell} {pd n : Nat} (bm : BlendMode) (src : Color)
    (h : Memory.wf m = true) (ha : pd + 4 * n ≤ Config.addressSpace) :
    Memory.wf (blendArraySingle bm src m pd n) = true := by
  induction n generalizing m pd with
  | zero => exact h
  | succ n ih => exact ih (Memory.wf_storeColor _ h (by omega)) (by omega)

theorem Memory.read_blendArraySingle_outside (bm : BlendMode) (src : Color) (m : List Host.Cell) (pd n x : Nat)
    (hx : x < pd ∨ pd + 4 * n ≤ x) : Memory.read (blendArraySingle bm src m pd n) x = Memory.read m x := by
  induction n generalizing m pd with
  | zero => rfl
  | succ n ih =>
    rw [blendArraySingle, ih _ _ (by omega)]
    exact Memory.read_storeColor_outside m pd x _ (by omega)

theorem length_of_loadSlots {s : State} {cm : ColorMode} {po : PixelOrder} {byte i n : Nat} {cs : List Color}
    (h : loadSlots s cm po byte i n = .ok cs) : cs.length = n := by
  induction n generalizing i cs with
  | zero =>
    injection h with h
    simp [← h]
  | succ n ih =>
    obtain ⟨c, -, h⟩ := Exec.bind_eq_ok.mp h
    obtain ⟨ds, hds, h⟩ := Exec.bind_eq_ok.mp h
    injection h with h
    simp [← h, ih hds]

/-- A checked range at the address in a register lies inside the address space, an empty one too. -/
theorem num_add_le_of_check {s : State} {k : Access} {r : Reg} {len : Nat}
    (h : checkAccess s k (s.num r) len = .ok ()) : s.num r + len ≤ Config.addressSpace := by
  have hr : s.num r < Config.addressSpace := (s.reg r).isLt
  rcases Nat.eq_zero_or_pos len with h0 | hpos
  · omega
  · exact range_le_of_check h hpos

end Sys2Proof.Machine
end

section
/-! SUPPORT. What a command that completes can do to the state, said once for all 33 commands. A command may look a
colour up, and then makes one write: to a register, to memory, to a CSR, or to the palette. -/

namespace Sys2Proof.Machine

/-- A lookup of `c` inserts it at index `k` (R293). -/
structure InsertsAt (s : State) (c : Color) (k : Fin 256) : Prop where
  dynamic : s.palKind = .dynamic
  next : k.val = s.palSize.val
  room : s.palSize.val < s.palCap.val
  unknown : ridxLookup s.ridx c = none

/-- The state that the lookups of the command `i` leave. -/
def LookedUp (i : Instr) (s u : State) : Prop :=
  u = s ∨ (looksUp i = true ∧ ∃ c k, InsertsAt s c k ∧ u = insertColor s c k)

/-- The memory `m'` is `m` with at most the bytes of the range stored, in canonical form if `m` is. -/
structure StoresOnly (range : Nat × Nat) (m m' : List Host.Cell) : Prop where
  wf : Memory.wf m = true → Memory.wf m' = true
  outside : ∀ x, x < range.1 ∨ range.1 + range.2 ≤ x → Memory.read m' x = Memory.read m x

/-- The reverse index of a borrowed palette names entries of the palette only, and none of a ReadOnly one. -/
def BorrowedIndex (kind : PalKind) (size : Fin 257) (x : List (Color × Fin 256)) : Prop :=
  (kind = .readOnly ∧ x = []) ∨ (kind = .readWrite ∧ ∀ c k, ridxLookup x c = some k → k.val < size.val)

/-- The effects of the body of a command (R64), before it is counted. -/
inductive Effect (i : Instr) (s : State) : State → Prop where
  | nothing : Effect i s s
  | register {u : State} {d : Reg} {v : Word} (hu : LookedUp i s u) (hd : destination i = some d) :
      Effect i s (u.setReg d v)
  | memory {u : State} {m : List Host.Cell} (hu : LookedUp i s u) (hm : StoresOnly (storedRange s i) s.mem m) :
      Effect i s (u.setMem m)
  | csr {r : Reg} {n : Csr} {v : Word} (hi : i = .csrw r n) (hn : n.writable = true) : Effect i s (s.setCsr n v)
  | borrowed {kind : PalKind} {base : Word} {size : Fin 257} {tm : TransparencyClass} {x : List (Color × Fin 256)}
      (hi : isFactory i = true) (hx : BorrowedIndex kind size x) : Effect i s (s.setBorrowed kind base size tm x)
  | dynamic {r : Reg} {cap : Fin 257} (hi : i = .paldyn r) : Effect i s (s.setDynamic cap)

/-! ## The pieces of a body -/

theorem LookedUp.refl (i : Instr) (s : State) : LookedUp i s s := .inl rfl

theorem lookedUp_of_indexOfColor {i : Instr} {s : State} {c : Color} {r : Nat × State} (hi : looksUp i = true)
    (h : indexOfColor s c = .ok r) : LookedUp i s r.2 := by
  rcases indexOfColor_state h with hs | ⟨k, hu, hk, hn, hr, hx⟩
  · exact .inl hs
  · exact .inr ⟨hi, c, k, ⟨hk, hn, hr, hx⟩, hu⟩

/-- Encoding a colour looks it up in the Indexed modes, and otherwise leaves the state alone (R198). -/
theorem lookedUp_of_fromArgb {i : Instr} {s : State} {cm : ColorMode} {c : Color} {r : Nat × State}
    (hi : cm.indexed = true → looksUp i = true) (h : fromArgb s cm c = .ok r) : LookedUp i s r.2 := by
  cases hc : cm.indexed with
  | true => cases cm <;> first | exact lookedUp_of_indexOfColor (hi rfl) h | contradiction
  | false =>
    cases cm
    case idx1 | idx2 | idx4 | idx8 => contradiction
    all_goals
      injection h with h
      exact .inl (h ▸ rfl)

theorem lookedUp_of_rawBlend {i : Instr} {s : State} {bm : BlendMode} {cm : ColorMode} {raw : Nat} {c : Color}
    {r : Nat × State} (hi : cm.indexed = true → looksUp i = true) (h : rawBlend s bm cm raw c = .ok r) :
    LookedUp i s r.2 := by
  obtain ⟨d, -, h⟩ := Exec.bind_eq_ok.mp h
  exact lookedUp_of_fromArgb hi h

theorem effect_register {i : Instr} {s u w : State} {d : Reg} {v : Word} (hd : destination i = some d)
    (hu : LookedUp i s u) (h : (.ok (u.setReg d v) : Exec State) = .ok w) : Effect i s w := by
  injection h with h
  exact h ▸ .register hu hd

theorem effect_memory {i : Instr} {s u w : State} {m : List Host.Cell} (hu : LookedUp i s u)
    (hm : StoresOnly (storedRange s i) s.mem m) (h : (.ok (u.setMem m) : Exec State) = .ok w) : Effect i s w := by
  injection h with h
  exact h ▸ .memory hu hm

theorem effect_borrowed {i : Instr} {s w : State} {kind : PalKind} {base : Word} {size : Fin 257}
    {tm : TransparencyClass} {x : List (Color × Fin 256)} (hi : isFactory i = true) (hx : BorrowedIndex kind size x)
    (h : (.ok (s.setBorrowed kind base size tm x) : Exec State) = .ok w) : Effect i s w := by
  injection h with h
  exact h ▸ .borrowed hi hx

theorem storesOnly_store {m : List Host.Cell} {a n : Nat} (v : Nat) (bo : ByteOrder)
    (ha : a + n ≤ Config.addressSpace) : StoresOnly (a, n) m (Memory.store m a n v bo) :=
  ⟨fun h => Memory.wf_store v bo h ha, fun x hx => Memory.read_store_outside m a n v x bo hx⟩

/-- The index that PALRW builds names entries of the array only (R297). -/
theorem borrowedIndex_buildIndex {cs : List Color} {size : Fin 257} (h : cs.length = size.val) :
    BorrowedIndex .readWrite size (buildIndex [] 0 cs) := by
  refine .inr ⟨rfl, fun c k hk => ?_⟩
  have hsize := size.isLt
  rcases (ridxLookup_buildIndex cs [] 0 c (by omega) k).mp hk with h0 | ⟨-, j, hj, hkj, -⟩
  · simp [ridxLookup] at h0
  · omega

/-! ## Every command -/

/-- What the frame makes of a body whose effects are known: it counts them, or takes a fault instead. -/
theorem outcome_of_body {i : Instr} {s t : State} {b : Exec State} (he : exec i s = runCommand i s b)
    (hb : ∀ u, i.wellFormed = true → b = .ok u → Effect i s u) (h : exec i s = .next t) :
    (∃ u, Effect i s u ∧ t = u.count) ∨ ∃ f, t = s.takeFault f (encode i) := by
  rcases runCommand_cases (he ▸ h) with ⟨hw, u, hu, rfl⟩ | ⟨-, f, -, rfl⟩ | ⟨-, rfl⟩
  · exact .inl ⟨u, hb u hw hu, rfl⟩
  · exact .inr ⟨f, rfl⟩
  · exact .inr ⟨_, rfl⟩

/-- All that a command can do: one of the effects, counted, or a fault. -/
theorem exec_cases {i : Instr} {s t : State} (h : exec i s = .next t) :
    (∃ u, Effect i s u ∧ t = u.count) ∨ ∃ f, t = s.takeFault f (encode i) := by
  have same : LookedUp i s s := .refl i s
  cases i
  case nop =>
    refine outcome_of_body (exec_nop s) (fun u _ hb => ?_) h
    injection hb with hb
    exact hb ▸ .nothing
  case ldi rd imm => exact outcome_of_body (exec_ldi s rd imm) (fun u _ hb => effect_register rfl same hb) h
  case ldih rd imm => exact outcome_of_body (exec_ldih s rd imm) (fun u _ hb => effect_register rfl same hb) h
  case mov rd rs1 => exact outcome_of_body (exec_mov s rd rs1) (fun u _ hb => effect_register rfl same hb) h
  case csrr rd n => exact outcome_of_body (exec_csrr s rd n) (fun u _ hb => effect_register rfl same hb) h
  case csrw rs1 n =>
    refine outcome_of_body (exec_csrw s rs1 n) (fun u hw hb => ?_) h
    injection hb with hb
    exact hb ▸ .csr rfl hw
  case ldc rd rs1 =>
    refine outcome_of_body (exec_ldc s rd rs1) (fun u _ hb => ?_) h
    obtain ⟨c, -, hb⟩ := Exec.bind_eq_ok.mp hb
    exact effect_register rfl same hb
  case stc rs1 rs2 =>
    refine outcome_of_body (exec_stc s rs1 rs2) (fun u _ hb => ?_) h
    obtain ⟨_, hc, hb⟩ := Exec.bind_eq_ok.mp hb
    exact effect_memory same (storesOnly_store _ .le (num_add_le_of_check hc)) hb
  case ldraw rd rs1 cm bo =>
    refine outcome_of_body (exec_ldraw s rd rs1 cm bo) (fun u _ hb => ?_) h
    obtain ⟨_, -, hb⟩ := Exec.bind_eq_ok.mp hb
    exact effect_register rfl same hb
  case straw rs1 rs2 cm bo =>
    refine outcome_of_body (exec_straw s rs1 rs2 cm bo) (fun u _ hb => ?_) h
    obtain ⟨_, hc, hb⟩ := Exec.bind_eq_ok.mp hb
    exact effect_memory same (storesOnly_store _ bo (num_add_le_of_check hc)) hb
  case cget rd rs1 ch => exact outcome_of_body (exec_cget s rd rs1 ch) (fun u _ hb => effect_register rfl same hb) h
  case cset rd rs1 rs2 ch =>
    exact outcome_of_body (exec_cset s rd rs1 rs2 ch) (fun u _ hb => effect_register rfl same hb) h
  case copq rd rs1 => exact outcome_of_body (exec_copq s rd rs1) (fun u _ hb => effect_register rfl same hb) h
  case cisopq rd rs1 => exact outcome_of_body (exec_cisopq s rd rs1) (fun u _ hb => effect_register rfl same hb) h
  case toargb rd rs1 cm =>
    refine outcome_of_body (exec_toargb s rd rs1 cm) (fun u _ hb => ?_) h
    obtain ⟨c, -, hb⟩ := Exec.bind_eq_ok.mp hb
    exact effect_register rfl same hb
  case fromargb rd rs1 cm =>
    refine outcome_of_body (exec_fromargb s rd rs1 cm) (fun u _ hb => ?_) h
    obtain ⟨r, hr, hb⟩ := Exec.bind_eq_ok.mp hb
    exact effect_register rfl (lookedUp_of_fromArgb id hr) hb
  case transp rd cm => exact outcome_of_body (exec_transp s rd cm) (fun u _ hb => effect_register rfl same hb) h
  case bpp rd cm => exact outcome_of_body (exec_bpp s rd cm) (fun u _ hb => effect_register rfl same hb) h
  case blend rd rs1 rs2 bm =>
    exact outcome_of_body (exec_blend s rd rs1 rs2 bm) (fun u _ hb => effect_register rfl same hb) h
  case blendv rn rs1 rs2 bm =>
    refine outcome_of_body (exec_blendv s rn rs1 rs2 bm) (fun u _ hb => ?_) h
    obtain ⟨_, hc, hb⟩ := Exec.bind_eq_ok.mp hb
    obtain ⟨_, -, hb⟩ := Exec.bind_eq_ok.mp hb
    exact effect_memory same ⟨fun hw => Memory.wf_blendArrays bm _ hw (num_add_le_of_check hc),
      fun x hx => Memory.read_blendArrays_outside bm _ _ _ _ x hx⟩ hb
  case blendvs rn rs1 rs2 bm =>
    refine outcome_of_body (exec_blendvs s rn rs1 rs2 bm) (fun u _ hb => ?_) h
    obtain ⟨_, hc, hb⟩ := Exec.bind_eq_ok.mp hb
    exact effect_memory same ⟨fun hw => Memory.wf_blendArraySingle bm _ hw (num_add_le_of_check hc),
      fun x hx => Memory.read_blendArraySingle_outside bm _ _ _ _ x hx⟩ hb
  case blendraw rd rs1 rs2 cm bm =>
    refine outcome_of_body (exec_blendraw s rd rs1 rs2 cm bm) (fun u _ hb => ?_) h
    obtain ⟨r, hr, hb⟩ := Exec.bind_eq_ok.mp hb
    exact effect_register rfl (lookedUp_of_rawBlend id hr) hb
  case blendrawm rs1 rs2 cm bm bo =>
    refine outcome_of_body (exec_blendrawm s rs1 rs2 cm bm bo) (fun u _ hb => ?_) h
    obtain ⟨_, hc, hb⟩ := Exec.bind_eq_ok.mp hb
    obtain ⟨r, hr, hb⟩ := Exec.bind_eq_ok.mp hb
    exact effect_memory (lookedUp_of_rawBlend id hr) (storesOnly_store _ bo (num_add_le_of_check hc)) hb
  case sbload rd rs1 rs2 cm po =>
    refine outcome_of_body (exec_sbload s rd rs1 rs2 cm po) (fun u _ hb => ?_) h
    obtain ⟨_, -, hb⟩ := Exec.bind_eq_ok.mp hb
    exact effect_register rfl same hb
  case sbstore rd rs1 rs2 cm po =>
    refine outcome_of_body (exec_sbstore s rd rs1 rs2 cm po) (fun u _ hb => ?_) h
    obtain ⟨_, -, hb⟩ := Exec.bind_eq_ok.mp hb
    exact effect_register rfl same hb
  case sbexpand rd rs1 cm =>
    exact outcome_of_body (exec_sbexpand s rd rs1 cm) (fun u _ hb => effect_register rfl same hb) h
  case sbbulk rs1 rs2 cm po =>
    refine outcome_of_body (exec_sbbulk s rs1 rs2 cm po) (fun u _ hb => ?_) h
    obtain ⟨_, hc, hb⟩ := Exec.bind_eq_ok.mp hb
    obtain ⟨cs, hcs, hb⟩ := Exec.bind_eq_ok.mp hb
    have hlen : cs.length = pixelsPerByte (bitsPerPixel cm) := length_of_loadSlots hcs
    exact effect_memory same ⟨fun hw => Memory.wf_storeColors cs hw (hlen ▸ num_add_le_of_check hc),
      fun x hx => Memory.read_storeColors_outside _ _ x cs (by rw [hlen]; exact hx)⟩ hb
  case sbloadm rd rs1 rs2 cm po =>
    refine outcome_of_body (exec_sbloadm s rd rs1 rs2 cm po) (fun u _ hb => ?_) h
    obtain ⟨_, -, hb⟩ := Exec.bind_eq_ok.mp hb
    obtain ⟨_, -, hb⟩ := Exec.bind_eq_ok.mp hb
    exact effect_register rfl same hb
  case sbstorem rn rs1 rs2 cm po =>
    refine outcome_of_body (exec_sbstorem s rn rs1 rs2 cm po) (fun u _ hb => ?_) h
    obtain ⟨_, -, hb⟩ := Exec.bind_eq_ok.mp hb
    obtain ⟨_, -, hb⟩ := Exec.bind_eq_ok.mp hb
    refine effect_memory same ⟨fun hw => Memory.wf_write _ hw (s.reg rs1).isLt, fun x hx => ?_⟩ hb
    have hx : x < s.num rs1 ∨ s.num rs1 + 1 ≤ x := hx
    exact Memory.read_write_ne _ (s.num rs1) x _ (by omega)
  case palro rs1 rs2 tm =>
    refine outcome_of_body (exec_palro s rs1 rs2 tm) (fun u _ hb => ?_) h
    obtain ⟨size, -, hb⟩ := Exec.bind_eq_ok.mp hb
    dsimp only at hb
    split at hb
    all_goals
      obtain ⟨cs, -, hb⟩ := Exec.bind_eq_ok.mp hb
      exact effect_borrowed rfl (.inl ⟨rfl, rfl⟩) hb
  case palrw rs1 rs2 tm =>
    refine outcome_of_body (exec_palrw s rs1 rs2 tm) (fun u _ hb => ?_) h
    obtain ⟨size, -, hb⟩ := Exec.bind_eq_ok.mp hb
    obtain ⟨cs, hcs, hb⟩ := Exec.bind_eq_ok.mp hb
    obtain ⟨-, rfl⟩ := (readArray_eq_ok_iff s (s.reg rs1) size cs).mp hcs
    exact effect_borrowed rfl (borrowedIndex_buildIndex (Memory.length_loadColors _ _ _)) hb
  case paldyn rs1 =>
    refine outcome_of_body (exec_paldyn s rs1) (fun u _ hb => ?_) h
    obtain ⟨cap, -, hb⟩ := Exec.bind_eq_ok.mp hb
    injection hb with hb
    exact hb ▸ .dynamic rfl
  case palidx rd rs1 =>
    refine outcome_of_body (exec_palidx s rd rs1) (fun u _ hb => ?_) h
    obtain ⟨r, hr, hb⟩ := Exec.bind_eq_ok.mp hb
    exact effect_register rfl (lookedUp_of_indexOfColor rfl hr) hb

end Sys2Proof.Machine
end

section
/-! SUPPORT. The palette invariants R43(a) to (d) under each update of the palette. -/

namespace Sys2Proof.Machine

/-- All of the state that the palette invariants speak of. -/
def State.palette (s : State) :
    PalKind × Fin 257 × Fin 257 × TransparencyClass × Vector Color 256 × List (Color × Fin 256) :=
  (s.palKind, s.palSize, s.palCap, s.palTm, s.palRam, s.ridx)

theorem paletteOk_congr {s t : State} (hs : PaletteOk s) (h : t.palette = s.palette) : PaletteOk t := by
  cases s
  cases t
  simp only [State.palette, Prod.mk.injEq] at h
  obtain ⟨rfl, rfl, rfl, rfl, rfl, rfl⟩ := h
  exact ⟨hs.size_le_cap, hs.readOnly, hs.readWrite, hs.dynamic_distinct, hs.dynamic_index, hs.dynamic_unused,
    hs.dynamic_class_bound, hs.dynamic_class_met⟩

theorem paletteOk_setBorrowed (s : State) {kind : PalKind} (base : Word) {size : Fin 257} (tm : TransparencyClass)
    {x : List (Color × Fin 256)} (h : BorrowedIndex kind size x) : PaletteOk (s.setBorrowed kind base size tm x) := by
  rcases h with ⟨rfl, rfl⟩ | ⟨rfl, hx⟩
  · exact ⟨le_refl _, fun _ => ⟨rfl, rfl⟩, nofun, nofun, nofun, nofun, nofun, nofun⟩
  · exact ⟨le_refl _, nofun, fun _ => ⟨rfl, hx⟩, nofun, nofun, nofun, nofun, nofun⟩

theorem paletteOk_setDynamic (s : State) (cap : Fin 257) : PaletteOk (s.setDynamic cap) where
  size_le_cap := Fin.zero_le _
  readOnly := nofun
  readWrite := nofun
  dynamic_distinct := fun _ _ _ _ _ h => absurd h (Nat.not_lt_zero _)
  dynamic_index := fun _ _ _ => ⟨nofun, fun h => absurd h.1 (Nat.not_lt_zero _)⟩
  dynamic_unused := fun _ _ _ _ => Vector.getElem_replicate _
  dynamic_class_bound := fun _ _ _ h => absurd h (Nat.not_lt_zero _)
  dynamic_class_met := fun _ => .inl rfl

/-- The palette of the reset state is a borrowed one of size 0 (R50). -/
theorem paletteOk_reset : PaletteOk State.reset :=
  paletteOk_congr (paletteOk_setBorrowed State.reset 0 (size := 0) .kNone (.inl ⟨rfl, rfl⟩)) rfl

/-! ## Insertions -/

theorem ridxLookup_insertColor {s : State} {c : Color} {k : Fin 256} (h : InsertsAt s c k) (d : Color) :
    ridxLookup (insertColor s c k).ridx d = if d = c then some k else ridxLookup s.ridx d := by
  rw [insertColor_ridx, ridxLookup_append]
  by_cases hd : d = c
  · simp [hd, h.unknown]
  · have hc : ¬ c = d := fun e => hd e.symm
    cases ridxLookup s.ridx d <;> simp [hd, hc]

theorem palRam_insertColor {s : State} {c : Color} {k : Fin 256} (j : Nat) (hj : j < 256) :
    (insertColor s c k).palRam[j] = if j = k.val then c else s.palRam[j] := by
  simp only [insertColor_palRam, Vector.getElem_set, eq_comm]

/-- A colour that the reverse index does not know is no entry of a Dynamic palette. -/
theorem PaletteOk.entry_ne_of_unknown {s : State} (hs : PaletteOk s) (hk : s.palKind = .dynamic) {c : Color}
    (hc : ridxLookup s.ridx c = none) {j : Nat} (hj : j < 256) (hjs : j < s.palSize.val) : s.palRam[j] ≠ c := by
  intro he
  have := (hs.dynamic_index hk c ⟨j, hj⟩).mpr ⟨hjs, he⟩
  rw [hc] at this
  contradiction

/-- An insertion keeps the palette invariants: the new entry is a new colour at the next index (R293, R294). -/
theorem paletteOk_insertColor {s : State} {c : Color} {k : Fin 256} (hs : PaletteOk s) (h : InsertsAt s c k) :
    PaletteOk (insertColor s c k) := by
  have hdyn := h.dynamic
  have hnext := h.next
  have hroom := h.room
  have hne {j : Nat} (hj : j < 256) (hjk : j < k.val) : s.palRam[j] ≠ c :=
    hs.entry_ne_of_unknown hdyn h.unknown hj (by omega)
  have hsize : (insertColor s c k).palSize.val = k.val + 1 := rfl
  constructor
  case size_le_cap =>
    show k.val + 1 ≤ s.palCap.val
    omega
  case readOnly => exact fun hk => absurd (hdyn.symm.trans hk) (by decide)
  case readWrite => exact fun hk => absurd (hdyn.symm.trans hk) (by decide)
  case dynamic_distinct =>
    intro _ i j hi hj his hjs hij
    rw [palRam_insertColor i hi, palRam_insertColor j hj]
    split_ifs with h1 h2 h2
    · omega
    · exact (hne hj (by omega)).symm
    · exact hne hi (by omega)
    · exact hs.dynamic_distinct hdyn i j hi hj (by omega) (by omega) hij
  case dynamic_index =>
    intro _ d j
    rw [ridxLookup_insertColor h, palRam_insertColor j.val j.isLt, hsize]
    by_cases hjk : j = k
    · subst hjk
      have hout : ridxLookup s.ridx d ≠ some j := fun e => by
        have := (hs.dynamic_index hdyn d j).mp e
        omega
      rw [if_pos rfl]
      split_ifs with hd
      · simp [hd]
      · simp [hout, Ne.symm hd]
    · have hjk' : j.val ≠ k.val := fun e => hjk (Fin.ext e)
      have hlt : j.val < k.val + 1 ↔ j.val < s.palSize.val := by omega
      rw [if_neg hjk', hlt]
      split_ifs with hd
      · have hout : ¬ (j.val < s.palSize.val ∧ s.palRam[j.val] = d) := fun ⟨h1, h2⟩ =>
          hne j.isLt (by omega) (h2.trans hd)
        simp [hout, Ne.symm hjk]
      · exact hs.dynamic_index hdyn d j
  case dynamic_unused =>
    intro _ i hi his
    rw [palRam_insertColor i hi, if_neg (by omega)]
    exact hs.dynamic_unused hdyn i hi (by omega)
  case dynamic_class_bound =>
    intro _ i hi his
    rw [palRam_insertColor i hi, insertColor_palTm, TransparencyClass.code_join, code_classOf]
    split_ifs with h1
    · omega
    · have := hs.dynamic_class_bound hdyn i hi (by omega)
      omega
  case dynamic_class_met =>
    intro _
    rw [insertColor_palTm]
    rcases TransparencyClass.join_eq s.palTm (classOf c) with e | e
    · rw [e]
      rcases hs.dynamic_class_met hdyn with h0 | ⟨i, hi, his, hcl⟩
      · exact .inl h0
      · exact .inr ⟨i, hi, by omega, by rw [palRam_insertColor i hi, if_neg (by omega), hcl]⟩
    · rw [e, code_classOf]
      exact .inr ⟨k.val, k.isLt, by omega, by rw [palRam_insertColor k.val k.isLt, if_pos rfl]⟩

/-- An insertion keeps every index that was assigned, and the entry it names (R43(e)). -/
theorem entries_kept_insertColor {s : State} {c d : Color} {j k : Fin 256} (hs : PaletteOk s) (h : InsertsAt s c k)
    (hd : ridxLookup s.ridx d = some j) :
    ridxLookup (insertColor s c k).ridx d = some j ∧ (insertColor s c k).palRam[j.val] = s.palRam[j.val] := by
  have hj := ((hs.dynamic_index h.dynamic d j).mp hd).1
  have hnext := h.next
  have hdc : d ≠ c := by
    rintro rfl
    rw [h.unknown] at hd
    contradiction
  rw [ridxLookup_insertColor h, if_neg hdc, palRam_insertColor j.val j.isLt, if_neg (by omega)]
  exact ⟨hd, rfl⟩

/-! ## Commands -/

theorem LookedUp.paletteOk {i : Instr} {s u : State} (h : LookedUp i s u) (hs : PaletteOk s) : PaletteOk u := by
  rcases h with rfl | ⟨-, c, k, hk, rfl⟩
  · exact hs
  · exact paletteOk_insertColor hs hk

theorem Effect.paletteOk {i : Instr} {s u : State} (h : Effect i s u) (hs : PaletteOk s) : PaletteOk u := by
  cases h with
  | nothing => exact hs
  | register hu _ => exact paletteOk_congr (hu.paletteOk hs) rfl
  | memory hu _ => exact paletteOk_congr (hu.paletteOk hs) rfl
  | csr _ _ => exact paletteOk_congr hs (by simp [State.palette])
  | borrowed _ hx => exact paletteOk_setBorrowed s _ _ hx
  | dynamic _ => exact paletteOk_setDynamic s _

theorem exec_keeps_paletteOk {i : Instr} {s t : State} (hs : PaletteOk s) (h : exec i s = .next t) : PaletteOk t := by
  rcases exec_cases h with ⟨u, hu, rfl⟩ | ⟨f, rfl⟩
  · exact paletteOk_congr (hu.paletteOk hs) rfl
  · exact paletteOk_congr hs rfl

/-- While no factory command runs, an assigned index and its entry stay (R43(e)). -/
theorem LookedUp.entries_kept {i : Instr} {s u : State} (h : LookedUp i s u) (hs : PaletteOk s) {c : Color}
    {k : Fin 256} (hc : ridxLookup s.ridx c = some k) :
    ridxLookup u.ridx c = some k ∧ u.palRam[k.val] = s.palRam[k.val] := by
  rcases h with rfl | ⟨-, d, j, hj, rfl⟩
  · exact ⟨hc, rfl⟩
  · exact entries_kept_insertColor hs hj hc

theorem Effect.entries_kept {i : Instr} {s u : State} (h : Effect i s u) (hs : PaletteOk s)
    (hi : isFactory i = false) {c : Color} {k : Fin 256} (hc : ridxLookup s.ridx c = some k) :
    ridxLookup u.ridx c = some k ∧ u.palRam[k.val] = s.palRam[k.val] := by
  cases h with
  | nothing => exact ⟨hc, rfl⟩
  | register hu _ => exact hu.entries_kept hs hc
  | memory hu _ => exact hu.entries_kept hs hc
  | csr _ _ =>
    simp only [setCsr_ridx, setCsr_palRam]
    exact ⟨hc, trivial⟩
  | borrowed hf _ => rw [hi] at hf; contradiction
  | dynamic he => subst he; contradiction

/-- Settles O18: an insertion is the one change that keeps a Dynamic palette and is not the identity. -/
theorem paletteInvariants : Obligations.PaletteInvariants := by
  refine ⟨paletteOk_reset, fun i s t hs h => ⟨exec_keeps_paletteOk hs h, fun _ hi c k hc => ?_⟩⟩
  rcases exec_cases h with ⟨u, hu, rfl⟩ | ⟨f, rfl⟩
  · exact hu.entries_kept hs hi hc
  · exact ⟨hc, rfl⟩

end Sys2Proof.Machine
end

section
/-! SUPPORT. What a command leaves unchanged, and the invariant of the machine under every move of the host. -/

namespace Sys2Proof.Machine

/-- The four registers of the fault latch, all that `LatchOk` speaks of. -/
def State.latch (s : State) : Bool × FaultCause × Word × Word :=
  (s.statusFaulted, s.faultCause, s.faultCmd, s.faultInfo)

theorem latchOk_congr {s t : State} (hs : LatchOk s) (h : t.latch = s.latch) : LatchOk t := by
  simp only [State.latch, Prod.mk.injEq] at h
  obtain ⟨h1, h2, h3, h4⟩ := h
  unfold LatchOk
  rw [h1, h2, h3, h4]
  exact hs

theorem latchOk_of_clear {s : State} (h : s.latch = (false, .none, 0, 0)) : LatchOk s := by
  simp only [State.latch, Prod.mk.injEq] at h
  obtain ⟨h1, h2, h3, h4⟩ := h
  exact ⟨fun _ => ⟨h2, h3, h4⟩, fun h => by rw [h1] at h; contradiction⟩

theorem latchOk_takeFault (s : State) (f : Raise) (w : Word) : LatchOk (s.takeFault f w) :=
  ⟨nofun, fun _ => by cases f <;> simp [Raise.cause]⟩

/-! ## What the effects of a command keep -/

theorem StoresOnly.refl (range : Nat × Nat) (m : List Host.Cell) : StoresOnly range m m := ⟨id, fun _ _ => rfl⟩

theorem LookedUp.reg_eq {i : Instr} {s u : State} (h : LookedUp i s u) (r : Reg) : u.reg r = s.reg r := by
  rcases h with rfl | ⟨-, c, k, -, rfl⟩ <;> rfl

theorem LookedUp.latch_eq {i : Instr} {s u : State} (h : LookedUp i s u) : u.latch = s.latch := by
  rcases h with rfl | ⟨-, c, k, -, rfl⟩ <;> rfl

theorem LookedUp.mem_eq {i : Instr} {s u : State} (h : LookedUp i s u) : u.mem = s.mem := by
  rcases h with rfl | ⟨-, c, k, -, rfl⟩ <;> rfl

theorem LookedUp.platformKept {i : Instr} {s u : State} (h : LookedUp i s u) : PlatformKept s u := by
  rcases h with rfl | ⟨-, c, k, -, rfl⟩ <;> exact ⟨rfl, rfl⟩

theorem Effect.reg_eq {i : Instr} {s u : State} (h : Effect i s u) {r : Reg} (hr : destination i ≠ some r) :
    u.reg r = s.reg r := by
  cases h with
  | @register u d v hu hd =>
    have hrd : r ≠ d := fun e => hr (e ▸ hd)
    exact (reg_setReg_ne u d r v hrd).trans (hu.reg_eq r)
  | memory hu _ => exact hu.reg_eq r
  | csr _ _ => exact reg_setCsr s _ _ r
  | nothing | borrowed _ _ | dynamic _ => rfl

theorem Effect.storesOnly {i : Instr} {s u : State} (h : Effect i s u) : StoresOnly (storedRange s i) s.mem u.mem := by
  cases h with
  | register hu _ =>
    rw [setReg_mem, hu.mem_eq]
    exact .refl _ _
  | memory _ hm => exact hm
  | csr _ _ =>
    rw [setCsr_mem]
    exact .refl _ _
  | nothing | borrowed _ _ | dynamic _ => exact .refl _ _

theorem Effect.platformKept {i : Instr} {s u : State} (h : Effect i s u) : PlatformKept s u := by
  cases h with
  | register hu _ => exact hu.platformKept
  | memory hu _ => exact hu.platformKept
  | csr _ _ => exact ⟨setCsr_memMap s _ _, setCsr_moves s _ _⟩
  | nothing | borrowed _ _ | dynamic _ => exact ⟨rfl, rfl⟩

theorem Effect.latch_eq {i : Instr} {s u : State} (h : Effect i s u) : u.latch = s.latch := by
  cases h with
  | register hu _ => exact hu.latch_eq
  | memory hu _ => exact hu.latch_eq
  | csr _ _ => simp [State.latch]
  | nothing | borrowed _ _ | dynamic _ => rfl

/-- Settles O12: each effect of a command writes its destination register or its stored range, or neither. -/
theorem registerAndMemoryWriters : Obligations.RegisterAndMemoryWriters := by
  intro i s t h
  rcases exec_cases h with ⟨u, hu, rfl⟩ | ⟨f, rfl⟩
  · exact ⟨fun r hr => hu.reg_eq hr, hu.storesOnly.outside, hu.platformKept⟩
  · exact ⟨fun _ _ => rfl, fun _ _ => rfl, rfl, rfl⟩

/-! ## Every move of the host -/

theorem exec_keeps_inv {i : Instr} {s t : State} (hs : Inv s) (h : exec i s = .next t) : Inv t := by
  obtain ⟨hmem, hlatch, hpal⟩ := hs
  refine ⟨?_, ?_, exec_keeps_paletteOk hpal h⟩
  all_goals rcases exec_cases h with ⟨u, hu, rfl⟩ | ⟨f, rfl⟩
  · exact hu.storesOnly.wf hmem
  · exact hmem
  · exact latchOk_congr hlatch hu.latch_eq
  · exact latchOk_takeFault s f _

theorem inv_takeFault {s : State} (hs : Inv s) (f : Raise) (w : Word) : Inv (s.takeFault f w) := by
  obtain ⟨hmem, -, hpal⟩ := hs
  exact ⟨hmem, latchOk_takeFault s f w, paletteOk_congr hpal rfl⟩

theorem inv_setCsr {s : State} (hs : Inv s) (n : Csr) (v : Word) : Inv (s.setCsr n v) := by
  obtain ⟨hmem, hlatch, hpal⟩ := hs
  exact ⟨(setCsr_mem s n v).symm ▸ hmem, latchOk_congr hlatch (by simp [State.latch]),
    paletteOk_congr hpal (by simp [State.palette])⟩

theorem writeCommand_keeps_inv {w : Word} {s t : State} (hs : Inv s) (h : writeCommand w s = .next t) : Inv t := by
  unfold writeCommand at h
  split at h
  · split at h
    · exact exec_keeps_inv hs h
    · injection h with h
      exact h ▸ inv_takeFault hs _ _
  · injection h with h
    exact h ▸ hs

theorem portWrite_keeps_inv {offset : Nat} {v : Word} {s t : State} (hs : Inv s)
    (h : portWrite offset v s = .next t) : Inv t := by
  have ⟨hmem, hlatch, hpal⟩ := hs
  unfold portWrite at h
  cases hl : portLocation offset with rw [hl] at h
  | command => exact writeCommand_keeps_inv hs h
  | register r =>
    injection h with h
    exact h ▸ ⟨hmem, latchOk_congr hlatch rfl, paletteOk_congr hpal rfl⟩
  | csr n =>
    injection h with h
    exact h ▸ inv_setCsr hs n v
  | faultClear =>
    injection h with h
    exact h ▸ ⟨hmem, latchOk_of_clear rfl, paletteOk_congr hpal rfl⟩
  | reserved =>
    injection h with h
    exact h ▸ hs

theorem hostMove_keeps_inv {m : HostMove} {s t : State} (hs : Inv s) (h : hostMove m s = .next t) : Inv t := by
  have ⟨hmem, hlatch, hpal⟩ := hs
  cases m with
  | portWrite offset v => exact portWrite_keeps_inv hs h
  | memWrite addr b =>
    injection h with h
    exact h ▸ ⟨Memory.wf_write b hmem addr.isLt, latchOk_congr hlatch rfl, paletteOk_congr hpal rfl⟩
  | portRead _ | memRead _ =>
    injection h with h
    exact h ▸ hs
  | reset =>
    injection h with h
    exact h ▸ ⟨hmem, latchOk_of_clear rfl, paletteOk_congr paletteOk_reset rfl⟩

/-- Settles O17: a step is one move of the host, and every move keeps the invariant. -/
theorem invariantKept : Obligations.InvariantKept := by
  intro s t hs h
  have ⟨hmem, hlatch, hpal⟩ := hs
  unfold step takeMove at h
  split at h
  next =>
    injection h with h
    exact h ▸ hs
  next m rest _ =>
    have hs' : Inv (s.setMoves rest) := ⟨hmem, latchOk_congr hlatch rfl, paletteOk_congr hpal rfl⟩
    exact hostMove_keeps_inv hs' h

/-- Settles O16. -/
theorem invariantAtReset : Obligations.InvariantAtReset := ⟨rfl, latchOk_of_clear rfl, paletteOk_reset⟩

end Sys2Proof.Machine
end

section
/-! SUPPORT. Which control and status registers and which palette storage a command can change. -/

namespace Sys2Proof.Machine

/-- A lookup that changed a CSR, PALRAM or RIDX inserted into a Dynamic palette, and of the CSRs it changed PAL_SIZE or
PAL_TM. -/
theorem LookedUp.writers {i : Instr} {s u : State} (h : LookedUp i s u) :
    u = s ∨ (looksUp i = true ∧ s.palKind = .dynamic ∧ ∀ n, n ≠ .palSize → n ≠ .palTm → u.csr n = s.csr n) := by
  rcases h with rfl | ⟨hi, c, k, hk, rfl⟩
  · exact .inl rfl
  · exact .inr ⟨hi, hk.dynamic, csr_insertColor s c k⟩

theorem LookedUp.csr_writers {i : Instr} {s u : State} (h : LookedUp i s u) {n : Csr} (hn : u.csr n ≠ s.csr n) :
    (n = .palSize ∨ n = .palTm) ∧ looksUp i = true ∧ s.palKind = .dynamic := by
  rcases h.writers with rfl | ⟨hi, hk, hcsr⟩
  · exact absurd rfl hn
  · refine ⟨?_, hi, hk⟩
    by_contra hne
    obtain ⟨h1, h2⟩ := not_or.mp hne
    exact hn (hcsr n h1 h2)

theorem Effect.csr_writers {i : Instr} {s u : State} (h : Effect i s u) {n : Csr} (hn : u.csr n ≠ s.csr n) :
    (n.writable = true ∧ ∃ r, i = .csrw r n) ∨ (n ∈ paletteCsrs ∧ isFactory i = true) ∨
      ((n = .palSize ∨ n = .palTm) ∧ looksUp i = true ∧ s.palKind = .dynamic) := by
  cases h with
  | nothing => exact absurd rfl hn
  | register hu _ => exact .inr (.inr (hu.csr_writers (by rwa [csr_setReg] at hn)))
  | memory hu _ => exact .inr (.inr (hu.csr_writers (by rwa [csr_setMem] at hn)))
  | @csr r m v hi hm =>
    have hnm : n = m := by
      by_contra hne
      exact hn (csr_setCsr_ne s m n v hne)
    exact .inl (hnm ▸ ⟨hm, r, hi⟩)
  | borrowed hi _ =>
    refine .inr (.inl ⟨?_, hi⟩)
    by_contra hne
    exact hn (csr_setBorrowed s _ _ _ _ _ n hne)
  | dynamic hi =>
    refine .inr (.inl ⟨?_, hi ▸ rfl⟩)
    by_contra hne
    exact hn (csr_setDynamic s _ n hne)

theorem Effect.palRam_writers {i : Instr} {s u : State} (h : Effect i s u) (hne : u.palRam ≠ s.palRam) :
    (∃ r, i = .paldyn r) ∨ (looksUp i = true ∧ s.palKind = .dynamic) := by
  cases h with
  | nothing | borrowed _ _ => exact absurd rfl hne
  | csr _ _ => exact absurd (setCsr_palRam s _ _) hne
  | dynamic hi => exact .inl ⟨_, hi⟩
  | register hu _ | memory hu _ =>
    rcases hu.writers with rfl | ⟨hi, hk, -⟩
    · exact absurd rfl hne
    · exact .inr ⟨hi, hk⟩

theorem Effect.ridx_writers {i : Instr} {s u : State} (h : Effect i s u) (hne : u.ridx ≠ s.ridx) :
    isFactory i = true ∨ (looksUp i = true ∧ s.palKind = .dynamic) := by
  cases h with
  | nothing => exact absurd rfl hne
  | csr _ _ => exact absurd (setCsr_ridx s _ _) hne
  | borrowed hi _ => exact .inl hi
  | dynamic hi => exact .inl (hi ▸ rfl)
  | register hu _ | memory hu _ =>
    rcases hu.writers with rfl | ⟨hi, hk, -⟩
    · exact absurd rfl hne
    · exact .inr ⟨hi, hk⟩

theorem mem_faultCsrs_of_takeFault {s : State} {f : Raise} {w : Word} {n : Csr}
    (hn : (s.takeFault f w).csr n ≠ s.csr n) : n ∈ faultCsrs := by
  obtain ⟨-, -, -, -, -, hkept, -⟩ := takesFault_takeFault s f w
  by_contra hout
  exact hn (hkept n hout)

/-- Settles O13: counting changes CMDCNT, a fault the fault registers, and the rest is the command's one effect. -/
theorem csrAndPaletteWriters : Obligations.CsrAndPaletteWriters := by
  intro i s t h
  rcases exec_cases h with ⟨u, hu, rfl⟩ | ⟨f, rfl⟩
  · refine ⟨fun n hn => ?_, fun hne => hu.palRam_writers hne, fun hne => hu.ridx_writers hne⟩
    by_cases hc : n = .cmdcnt
    · exact .inl hc
    · rw [csr_count u n hc] at hn
      exact .inr (.inr (hu.csr_writers hn))
  · exact ⟨fun n hn => .inr (.inl (mem_faultCsrs_of_takeFault hn)), fun hne => absurd rfl hne,
      fun hne => absurd rfl hne⟩

end Sys2Proof.Machine
end

section
/-! SUPPORT. The control and status registers: the values they can show, and what a write to one leaves (R24 to R39). -/

namespace Sys2Proof.Machine

/-- The bits of a CSR of class RW that are not reserved (R25, R31 to R34). -/
def namedBits : Csr → Nat
  | .ctrl => 2
  | .transp565 => 16
  | .status | .faultCause | .faultCmd | .faultInfo | .cmdcnt | .tint | .monoFg | .monoBg => 32
  | .palKind | .palBase | .palSize | .palCap | .palTm => 32

theorem toNat_csr_ctrl (s : State) : (s.csr .ctrl).toNat = s.ctrlAssertEn.toNat + 2 * s.ctrlIrqEn.toNat := by
  have h1 := s.ctrlAssertEn.toNat_le
  have h2 := s.ctrlIrqEn.toNat_le
  simp only [State.csr, BitVec.toNat_ofNat]
  omega

theorem toNat_csr_status (s : State) : (s.csr .status).toNat = s.statusFaulted.toNat := by
  have h1 := s.statusFaulted.toNat_le
  simp only [State.csr, BitVec.toNat_ofNat]
  omega

/-- A CSR of class RW holds the named bits of what was written to it (R24, R125). -/
theorem toNat_csr_setCsr_same (s : State) {n : Csr} (v : Word) (h : n.writable = true) :
    ((s.setCsr n v).csr n).toNat = v.toNat % 2 ^ namedBits n := by
  have hv := v.isLt
  cases n
  case ctrl =>
    rw [toNat_csr_ctrl, setCsr_ctrl]
    simp only [BitVec.getLsbD, namedBits, Nat.toNat_testBit]
    omega
  case transp565 =>
    simp only [setCsr_transp565, State.csr, namedBits, BitVec.truncate_eq_setWidth, BitVec.toNat_setWidth]
    omega
  case tint | monoFg | monoBg => exact (Nat.mod_eq_of_lt hv).symm
  all_goals contradiction

/-- While no fault is latched the fault registers are 0 (R26 to R29). -/
theorem csr_eq_zero_of_latchOk {s : State} (h : LatchOk s) (hs : s.statusFaulted = false) {n : Csr}
    (hn : n ∈ faultCsrs) : s.csr n = 0 := by
  obtain ⟨hcause, hcmd, hinfo⟩ := h.1 hs
  simp only [faultCsrs, List.mem_cons, List.not_mem_nil, or_false] at hn
  rcases hn with rfl | rfl | rfl | rfl
  · simp [State.csr, hs]
  · simp [State.csr, hcause, FaultCause.code]
  · exact hcmd
  · exact hinfo

/-- Settles O20: each coded CSR shows the code of a value of its type, which bounds it. -/
theorem csrrCommand : Obligations.CsrrCommand := by
  intro s rd n
  have hread : (s.setReg rd (s.csr n)).count.reg rd = s.csr n := by simp
  refine ⟨_, next_of_ok (exec_csrr s rd n) rfl rfl, hread, changesOnlyReg_setReg s rd _, fun hl hs hn => ?_, ?_⟩
  · rw [hread, csr_eq_zero_of_latchOk hl hs hn]
  rw [hread]
  have h32 := (s.csr n).isLt
  cases n
  case ctrl =>
    have h1 := s.ctrlAssertEn.toNat_le
    have h2 := s.ctrlIrqEn.toNat_le
    rw [toNat_csr_ctrl]
    show _ < 4
    omega
  case status =>
    have h1 := s.statusFaulted.toNat_le
    rw [toNat_csr_status]
    show _ < 2
    omega
  case faultCause =>
    show (BitVec.ofNat 32 s.faultCause.code).toNat < 5
    cases s.faultCause <;> decide
  case transp565 =>
    show (s.transp565.setWidth 32).toNat < 65536
    have := s.transp565.isLt
    rw [BitVec.toNat_setWidth]
    omega
  case palKind =>
    show (BitVec.ofNat 32 s.palKind.code).toNat < 3
    cases s.palKind <;> decide
  case palSize =>
    show (BitVec.ofNat 32 s.palSize.val).toNat < 257
    have := s.palSize.isLt
    rw [BitVec.toNat_ofNat]
    omega
  case palCap =>
    show (BitVec.ofNat 32 s.palCap.val).toNat < 257
    have := s.palCap.isLt
    rw [BitVec.toNat_ofNat]
    omega
  case palTm =>
    show (BitVec.ofNat 32 s.palTm.code).toNat < 3
    cases s.palTm <;> decide
  all_goals exact h32

/-- Settles O21: a CSR of class RO makes the term ill-formed, whatever its body would do. -/
theorem csrwCommand : Obligations.CsrwCommand := by
  intro s rs1 n
  refine ⟨fun hw => ⟨_, next_of_ok (exec_csrw s rs1 n) hw rfl, changesOnlyCsr_setCsr s n _, ?_⟩, fun hw => ?_⟩
  · have hne : n ≠ .cmdcnt := by
      rintro rfl
      contradiction
    rw [csr_count _ n hne]
    have hset := toNat_csr_setCsr_same s (s.reg rs1) hw
    cases n <;> exact hset
  · rw [Raises, exec_csrw, runCommand_illFormed (.csrw rs1 n) s _ hw]
    exact ⟨_, rfl, takesFault_takeFault s .illegalCommand _⟩

end Sys2Proof.Machine
end

section
/-! SUPPORT. The host's side: the map of the port, FAULT_CLR, the reset input and the interrupt level. -/

namespace Sys2Proof.Machine

/-! ## The map of the port (R45) -/

theorem portLocation_register (r : Reg) : portLocation (4 * r.val) = .register r := by
  have hr := r.isLt
  have hreg : Fin.ofNat 16 (4 * r.val / 4) = r := Fin.ext (by simp only [Fin.ofNat]; omega)
  unfold portLocation
  rw [if_neg (by omega), if_neg (by omega), if_neg (by omega), if_pos (by omega), hreg]

theorem portLocation_csr (n : Csr) : portLocation (0x100 + 4 * n.code) = .csr n := by cases n <;> rfl

/-- A number that no CSR has is reserved in R24's table. -/
theorem csr_ofCode?_eq_none {n : Nat} (h : anyCsr n = false) : Csr.ofCode? n = none := by
  cases hn : Csr.ofCode? n with
  | none => rfl
  | some m =>
    have hcode : n = m.code := by
      unfold Csr.ofCode? at hn
      split at hn
      all_goals cases hn <;> rfl
    subst hcode
    cases m <;> contradiction

theorem anyCsr_eq_false_of_lt {n : Nat} (h : 0x24 < n) : anyCsr n = false := by
  simp only [anyCsr, List.contains_eq_mem, List.mem_cons, List.not_mem_nil, or_false, decide_eq_false_iff_not]
  omega

/-- Offsets that hold no register, no CSR and no command port are reserved (R332). -/
theorem portLocation_reserved {a : Nat} (h1 : a ≠ 0x400) (h2 : a ≠ 0x404)
    (h : a % 4 ≠ 0 ∨ (0x40 ≤ a ∧ a < 0x100) ∨ 0x404 < a ∨ ∃ n, n < 256 ∧ a = 0x100 + 4 * n ∧ anyCsr n = false) :
    portLocation a = .reserved := by
  unfold portLocation
  rw [if_neg h1, if_neg h2]
  by_cases h4 : a % 4 = 0
  · have h40 : ¬ a < 0x40 := by omega
    rw [if_neg (not_not.mpr h4), if_neg h40]
    by_cases hr : 0x100 ≤ a ∧ a ≤ 0x100 + 4 * 255
    · have hany : anyCsr ((a - 0x100) / 4) = false := by
        rcases h with h | h | h | ⟨n, -, rfl, hn⟩
        · omega
        · omega
        · exact anyCsr_eq_false_of_lt (by omega)
        · rwa [show (0x100 + 4 * n - 0x100) / 4 = n by omega]
      rw [if_pos hr, csr_ofCode?_eq_none hany]
    · rw [if_neg hr]
  · rw [if_pos h4]

theorem portWrite_register (r : Reg) (v : Word) (s : State) : portWrite (4 * r.val) v s = .next (s.setReg r v) := by
  rw [portWrite, portLocation_register]

theorem portWrite_csr (n : Csr) (v : Word) (s : State) :
    portWrite (0x100 + 4 * n.code) v s = .next (s.setCsr n v) := by rw [portWrite, portLocation_csr]

theorem portWrite_reserved {a : Nat} (v : Word) (s : State) (h : portLocation a = .reserved) :
    portWrite a v s = .next s := by rw [portWrite, h]

theorem portRead_reserved {a : Nat} (s : State) (h : portLocation a = .reserved) : s.portRead a = 0 := by
  rw [State.portRead, h]

/-- A host read of an offset where neither a register nor a CSR lies answers 0 (R332). -/
theorem portRead_eq_zero (s : State) {a : Nat}
    (h : a % 4 ≠ 0 ∨ (0x40 ≤ a ∧ a < 0x100) ∨ 0x404 < a ∨ ∃ n, n < 256 ∧ a = 0x100 + 4 * n ∧ anyCsr n = false) :
    s.portRead a = 0 := by
  by_cases h1 : a = 0x400
  · subst h1
    rfl
  · by_cases h2 : a = 0x404
    · subst h2
      rfl
    · exact portRead_reserved s (portLocation_reserved h1 h2 h)

/-- Settles O57: the port's map decides which register or CSR an access reaches. -/
theorem hostPort : Obligations.HostPort := by
  intro s v
  refine ⟨⟨fun r => ?_, fun n => ?_, fun n hn hany => ?_, rfl, rfl, fun a ha => ?_⟩, fun r => ?_, fun n hn => ?_,
    fun n hn => ?_, fun a h1 h2 ha => portWrite_reserved v s (portLocation_reserved h1 h2 ha)⟩
  · rw [State.portRead, portLocation_register]
  · rw [State.portRead, portLocation_csr]
  · exact portRead_eq_zero s (.inr (.inr (.inr ⟨n, hn, rfl, hany⟩)))
  · rcases ha with ha | ha | ha
    · exact portRead_eq_zero s (.inl ha)
    · exact portRead_eq_zero s (.inr (.inl ha))
    · exact portRead_eq_zero s (.inr (.inr (.inl ha)))
  · exact ⟨_, portWrite_register r v s, reg_setReg_same s r v, fun q hq => reg_setReg_ne s r q v hq,
      fun n _ => csr_setReg s r v n, ⟨rfl, rfl⟩, fun _ => rfl, rfl, rfl⟩
  · refine ⟨_, portWrite_csr n v s, ?_, reg_setCsr s n v, fun m hm => ?_, ⟨setCsr_palRam s n v, setCsr_ridx s n v⟩,
      fun a => by rw [setCsr_mem], setCsr_memMap s n v, setCsr_moves s n v⟩
    · have hset := toNat_csr_setCsr_same s v hn
      cases n <;> exact hset
    · exact csr_setCsr_ne s n m v (by simpa using hm)
  · rw [portWrite_csr, setCsr_of_not_writable s n v hn]

/-! ## FAULT_CLR, reset and IRQ -/

theorem portWrite_faultClear (v : Word) (s : State) : portWrite 0x404 v s = .next s.clearFault := rfl

/-- Settles O8. -/
theorem faultClear : Obligations.FaultClear := by
  intro s v
  refine ⟨rfl, _, portWrite_faultClear v s, fun n hn => ?_, fun n hn => ?_, fun _ => rfl, ⟨rfl, rfl⟩, fun _ => rfl,
    rfl, rfl⟩
  · exact csr_eq_zero_of_latchOk (latchOk_of_clear rfl) rfl hn
  · simp only [faultCsrs, List.mem_cons, List.not_mem_nil, or_false, not_or] at hn
    obtain ⟨h1, h2, h3, h4⟩ := hn
    exact csr_clearFault s n h1 h2 h3 h4

/-- The reset input leaves every register at its reset value, in any state (R50, R350). -/
theorem atReset_resetEngine (s : State) : AtReset s.resetEngine := by
  refine ⟨reg_resetEngine s, rfl, fun n hn => ?_, fun i hi => ?_, fun _ => rfl, rfl⟩
  · cases n <;> first | rfl | contradiction
  · rw [resetEngine_palRam]
    exact Vector.getElem_replicate hi

/-- Settles O14: State.reset is what the reset input makes of itself. -/
theorem resetValues : Obligations.ResetValues :=
  ⟨atReset_resetEngine State.reset, fun s => ⟨s.resetEngine, rfl, atReset_resetEngine s, fun _ => rfl⟩⟩

theorem csr_status_eq_one_iff (s : State) : s.csr .status = 1 ↔ s.statusFaulted = true := by
  cases h : s.statusFaulted <;> simp [State.csr, h]

theorem ctrl_div_two (s : State) : (s.csr .ctrl).toNat / 2 = s.ctrlIrqEn.toNat := by
  have h1 := s.ctrlAssertEn.toNat_le
  rw [toNat_csr_ctrl]
  omega

/-- IRQ is high exactly while a fault is latched and IRQ_EN is set (R49). -/
theorem irq_iff (s : State) : s.irq = true ↔ s.csr .status = 1 ∧ (s.csr .ctrl).toNat / 2 = 1 := by
  rw [csr_status_eq_one_iff, ctrl_div_two, State.irq, Bool.and_eq_true, Bool.toNat_eq_one]

/-- Settles O59: the level is computed from the two bits, so a write that changes one of them changes it at once. -/
theorem interruptLevel : Obligations.InterruptLevel := by
  intro s
  refine ⟨irq_iff s, ⟨_, portWrite_faultClear 0 s, rfl⟩, ⟨_, portWrite_csr .ctrl 0 s, ?_, rfl⟩,
    ⟨_, portWrite_csr .ctrl 3 s, ?_⟩⟩
  · simp [State.irq]
  · rw [csr_status_eq_one_iff]
    simp [State.irq]

end Sys2Proof.Machine
end

section
/-! SUPPORT. The checks of a command's ranges and operands, in the words of Sys2Proof/Safety.lean. -/

namespace Sys2Proof.Machine

theorem checkAccess_of_rangeOk {s : State} {k : Access} {a len : Nat} (h : RangeOk s k a len) :
    checkAccess s k a len = .ok () := (checkAccess_eq_ok_iff s k a len).mpr h

theorem checkAccess_of_lowestBad {s : State} {k : Access} {a len b : Nat} (h : LowestBad s k a len b) :
    checkAccess s k a len = .error (.accessFault b) := (checkAccess_eq_error_iff s k a len _).mpr ⟨b, rfl, h⟩

/-- A good range at the address in a register lies inside the address space, an empty one too. -/
theorem reg_add_le_of_rangeOk {s : State} {k : Access} {r : Reg} {len : Nat} (h : RangeOk s k (s.reg r).toNat len) :
    (s.reg r).toNat + len ≤ Config.addressSpace := num_add_le_of_check (checkAccess_of_rangeOk h)

/-- A body that goes on after a check of a good range. -/
theorem bind_of_rangeOk {s : State} {k : Access} {a len : Nat} (h : RangeOk s k a len) (f : Unit → Exec State) :
    (checkAccess s k a len >>= f) = f () := by rw [checkAccess_of_rangeOk h, Exec.ok_bind]

/-- A body that stops at a check of a bad range (R64, R323). -/
theorem bind_of_lowestBad {s : State} {k : Access} {a len b : Nat} (h : LowestBad s k a len b)
    (f : Unit → Exec State) : (checkAccess s k a len >>= f) = .error (.accessFault b) := by
  rw [checkAccess_of_lowestBad h, Exec.error_bind]

/-- A body that goes on after a check of a pixel index (R322(a)). -/
theorem bind_of_below {v : Word} {bound : Nat} (h : v.toNat < bound) (f : Unit → Exec State) :
    (checkBelow v bound >>= f) = f () := by rw [(checkBelow_eq_ok_iff v bound).mpr h, Exec.ok_bind]

theorem sizeOperand_of_le {v : Word} (h : v.toNat ≤ 256) :
    ∃ n : Fin 257, n.val = v.toNat ∧ sizeOperand v = .ok n :=
  ⟨⟨v.toNat, by omega⟩, rfl, (sizeOperand_eq_ok_iff v _).mpr rfl⟩

theorem readArray_of_lowestBad {s : State} {base : Word} {n : Fin 257} {b : Nat}
    (h : LowestBad s .read base.toNat (4 * n.val) b) : readArray s base n = .error (.accessFault b) :=
  (readArray_eq_error_iff s base n _).mpr ⟨b, rfl, h⟩

/-- A well-formed command whose body raises AccessFault records the address (R29, R323). -/
theorem raises_accessFault {i : Instr} {s : State} {body : Exec State} {b : Nat} (he : exec i s = runCommand i s body)
    (hw : i.wellFormed = true) (hb : body = .error (.accessFault b)) : Raises 3 (addressInfo b) i s :=
  addressInfo_eq b ▸ raises_of_error he hw hb

end Sys2Proof.Machine
end

section
/-! SUPPORT. Loads and stores of a colour and of a raw pixel (spec/40_register_ops.md R126 to R129). -/

namespace Sys2Proof.Machine

/-- The bytes of a full-byte pixel hold all its bits (R61(b), R162). -/
theorem pow_bytes_of_fullByte {cm : ColorMode} (h : cm.fullByte = true) :
    256 ^ (bitsPerPixel cm / 8) = 2 ^ bitsPerPixel cm := by
  revert h
  cases cm <;> decide

/-- A raw pixel that is loaded is below its width (R128). -/
theorem load_lt_of_fullByte {cm : ColorMode} (h : cm.fullByte = true) (m : List Host.Cell) (a : Nat) (bo : ByteOrder) :
    Memory.load m a (bitsPerPixel cm / 8) bo < 2 ^ bitsPerPixel cm :=
  pow_bytes_of_fullByte h ▸ Memory.load_lt m a _ bo

/-- Settles O22: the colour, and the raw pixel, that is loaded is the one that stands at the address. -/
theorem loadCommands : Obligations.LoadCommands := by
  intro s rd rs1
  refine ⟨fun hr => ?_, fun cm bo hcm hr => ?_⟩
  · have hread : readColor s (s.num rs1) = .ok (Memory.loadColor s.mem (s.num rs1)) :=
      (readColor_eq_ok_iff s _ _).mpr ⟨hr, rfl⟩
    refine ⟨_, next_of_ok (exec_ldc s rd rs1) rfl (Exec.bind_eq_ok.mpr ⟨_, hread, rfl⟩), ?_,
      changesOnlyReg_setReg s rd _⟩
    rw [reg_count, reg_setReg_same]
    exact (wordAt_iff _ _ _).mpr rfl
  · have hlt := load_lt_of_fullByte hcm s.mem (s.reg rs1).toNat bo
    have h32 := Nat.pow_le_pow_right (show 0 < 2 by decide) (bitsPerPixel_le cm)
    refine ⟨_, next_of_ok (exec_ldraw s rd rs1 cm bo) hcm (bind_of_rangeOk hr _), ?_⟩
    have hreg : ((s.setRegNat rd (Memory.load s.mem (s.num rs1) (bytesPerPixel cm) bo)).count.reg rd).toNat =
        Memory.load s.mem (s.reg rs1).toNat (bitsPerPixel cm / 8) bo := by
      rw [reg_count, setRegNat_eq, reg_setReg_same, BitVec.toNat_ofNat]
      exact Nat.mod_eq_of_lt (Nat.lt_of_lt_of_le hlt h32)
    rw [hreg]
    exact ⟨pixelAt_load _ _ _ bo, hlt, changesOnlyReg_setReg s rd _⟩

/-- Settles O23. -/
theorem storeCommands : Obligations.StoreCommands := by
  intro s rs1 rs2 hwf
  refine ⟨fun hr => ?_, fun cm bo hcm hr => ?_⟩
  · exact ⟨_, next_of_ok (exec_stc s rs1 rs2) rfl (bind_of_rangeOk hr _),
      (wordAt_iff _ _ _).mpr (Memory.loadColor_storeColor_same _ hwf (reg_add_le_of_rangeOk hr)),
      changesOnlyMemory_setMem fun x hx => Memory.read_storeColor_outside _ _ x _ hx⟩
  · exact ⟨_, next_of_ok (exec_straw s rs1 rs2 cm bo) hcm (bind_of_rangeOk hr _),
      pixelAt_store _ bo hwf (reg_add_le_of_rangeOk hr),
      changesOnlyMemory_setMem fun x hx => Memory.read_store_outside _ _ _ _ x bo hx⟩

end Sys2Proof.Machine
end

section
/-! SUPPORT. The array commands element by element (spec/43_blending.md R246, R247). -/

namespace Sys2Proof.Machine

/-! ## BLENDV -/

/-- The elements from number `i` on are blended after, and over the result of, the first `i`. -/
theorem blendArrays_add (bm : BlendMode) (m : List Host.Cell) (pd ps i k : Nat) :
    blendArrays bm m pd ps (i + k) = blendArrays bm (blendArrays bm m pd ps i) (pd + 4 * i) (ps + 4 * i) k := by
  induction i generalizing m pd ps with
  | zero => simp [blendArrays]
  | succ i ih =>
    rw [show i + 1 + k = i + k + 1 by omega, blendArrays, blendArrays, ih, Nat.add_assoc pd, Nat.add_assoc ps,
      show 4 + 4 * i = 4 * (i + 1) by omega]

/-- The change that element `i` makes to the memory the elements before it leave. -/
theorem blendArrays_succ (bm : BlendMode) (m : List Host.Cell) (pd ps i : Nat) :
    blendArrays bm m pd ps (i + 1) =
      Memory.storeColor (blendArrays bm m pd ps i) (pd + 4 * i)
        (blend bm (Memory.loadColor (blendArrays bm m pd ps i) (pd + 4 * i))
          (Memory.loadColor (blendArrays bm m pd ps i) (ps + 4 * i))) :=
  blendArrays_add bm m pd ps i 1

theorem loadColor_blendArrays_outside (bm : BlendMode) (m : List Host.Cell) (pd ps n a : Nat)
    (ha : a + 4 ≤ pd ∨ pd + 4 * n ≤ a) : Memory.loadColor (blendArrays bm m pd ps n) a = Memory.loadColor m a :=
  Memory.loadColor_congr fun x h1 h2 => Memory.read_blendArrays_outside bm m pd ps n x (by omega)

/-- The word of element `i` at the end is the blend of the words that stood there when its turn came: no later element
stores to it. -/
theorem loadColor_blendArrays {m : List Host.Cell} {pd n i : Nat} (bm : BlendMode) (ps : Nat)
    (hwf : Memory.wf m = true) (hpd : pd + 4 * n ≤ Config.addressSpace) (hi : i < n) :
    Memory.loadColor (blendArrays bm m pd ps n) (pd + 4 * i) =
      blend bm (Memory.loadColor (blendArrays bm m pd ps i) (pd + 4 * i))
        (Memory.loadColor (blendArrays bm m pd ps i) (ps + 4 * i)) := by
  have hlater : n = i + 1 + (n - (i + 1)) := by omega
  rw [hlater, blendArrays_add, loadColor_blendArrays_outside _ _ _ _ _ _ (by omega), blendArrays_succ]
  exact Memory.loadColor_storeColor_same _ (Memory.wf_blendArrays bm ps hwf (by omega)) (by omega)

theorem exec_blendv_of_rangeOk {s : State} {rn rs1 rs2 : Reg} (bm : BlendMode)
    (hd : RangeOk s .write (s.reg rs1).toNat (4 * (s.reg rn).toNat))
    (hs : RangeOk s .read (s.reg rs2).toNat (4 * (s.reg rn).toNat)) :
    exec (.blendv rn rs1 rs2 bm) s = .next
      (s.setMem (blendArrays bm s.mem (s.reg rs1).toNat (s.reg rs2).toNat (s.reg rn).toNat)).count :=
  next_of_ok (exec_blendv s rn rs1 rs2 bm) rfl ((bind_of_rangeOk hd _).trans (bind_of_rangeOk hs _))

/-- Settles O41: the chain of memories is what the first `i` elements leave. -/
theorem blendvCommand : Obligations.BlendvCommand := by
  rintro s rn rs1 rs2 bm n pd ps rfl rfl rfl hwf hd hs
  have hend := reg_add_le_of_rangeOk hd
  refine ⟨_, blendArrays bm s.mem (s.reg rs1).toNat (s.reg rs2).toNat, exec_blendv_of_rangeOk bm hd hs, rfl, rfl,
    changesOnlyMemory_setMem fun x hx => Memory.read_blendArrays_outside bm _ _ _ _ x hx, fun i hi => ?_⟩
  refine ⟨_, _, (wordAt_iff _ _ _).mpr rfl, (wordAt_iff _ _ _).mpr rfl, ?_, fun x hx => ?_⟩
  · rw [wordAt_iff, blendArrays_succ]
    exact Memory.loadColor_storeColor_same _ (Memory.wf_blendArrays bm _ hwf (by omega)) (by omega)
  · rw [blendArrays_succ]
    exact Memory.read_storeColor_outside _ _ x _ hx

/-- Settles O42: when the turn of element `i` comes, the elements before it have stored to neither of its words. -/
theorem blendvDisjoint : Obligations.BlendvDisjoint := by
  rintro s t rn rs1 rs2 bm n pd ps i d c rfl rfl rfl hwf hd hs harr hexec hi hdw hcw
  rw [exec_blendv_of_rangeOk bm hd hs] at hexec
  injection hexec with ht
  subst ht
  rw [wordAt_iff] at hdw hcw ⊢
  show Memory.loadColor (blendArrays bm s.mem _ _ _) _ = _
  rw [loadColor_blendArrays bm _ hwf (reg_add_le_of_rangeOk hd) hi,
    loadColor_blendArrays_outside _ _ _ _ _ _ (by omega), loadColor_blendArrays_outside _ _ _ _ _ _ (by omega),
    hdw, hcw]

/-! ## BLENDVS -/

/-- Each word becomes the blend of its old value with the source colour. -/
theorem loadColor_blendArraySingle {m : List Host.Cell} {pd n i : Nat} (bm : BlendMode) (src : Color)
    (hwf : Memory.wf m = true) (hpd : pd + 4 * n ≤ Config.addressSpace) (hi : i < n) :
    Memory.loadColor (blendArraySingle bm src m pd n) (pd + 4 * i) =
      blend bm (Memory.loadColor m (pd + 4 * i)) src := by
  induction n generalizing m pd i with
  | zero => omega
  | succ n ih =>
    rw [blendArraySingle]
    cases i with
    | zero =>
      rw [Memory.loadColor_congr fun x _ _ => Memory.read_blendArraySingle_outside bm src _ _ n x (by omega)]
      exact Memory.loadColor_storeColor_same _ hwf (by omega)
    | succ i =>
      rw [show pd + 4 * (i + 1) = pd + 4 + 4 * i by omega,
        ih (Memory.wf_storeColor _ hwf (by omega)) (by omega) (by omega),
        Memory.loadColor_storeColor_outside _ _ _ _ (by omega)]

/-- Settles O43. -/
theorem blendvsCommand : Obligations.BlendvsCommand := by
  rintro s rn rs1 rs2 bm n pd rfl rfl hwf hd
  refine ⟨_, next_of_ok (exec_blendvs s rn rs1 rs2 bm) rfl (bind_of_rangeOk hd _),
    changesOnlyMemory_setMem fun x hx => Memory.read_blendArraySingle_outside bm _ _ _ _ x hx, fun i hi d hdw => ?_⟩
  rw [wordAt_iff] at hdw ⊢
  rw [← hdw]
  exact loadColor_blendArraySingle bm _ hwf (reg_add_le_of_rangeOk hd) hi

end Sys2Proof.Machine
end

section
/-! SUPPORT. The slots of a byte and SBBULK (spec/44_subbyte.md R271, R272, R277, R281). -/

namespace Sys2Proof.Machine

/-- The pixels of a sub-byte mode fill a byte (R162, R270). -/
theorem bitsPerPixel_dvd_eight {cm : ColorMode} (h : cm.fullByte = false) : bitsPerPixel cm ∣ 8 := by
  revert h
  cases cm <;> decide

/-- The machine's shift is the first bit of the slot (R271). -/
theorem slotShift_eq_slotBit {k : Nat} (hk : k ∣ 8) (po : PixelOrder) (i : Nat) :
    slotShift k po i = slotBit k po i := by
  cases po with
  | msb =>
    calc (8 / k - 1 - i) * k = (8 / k - (i + 1)) * k := by rw [Nat.sub_sub, Nat.add_comm 1]
      _ = 8 / k * k - (i + 1) * k := Nat.sub_mul _ _ _
      _ = 8 - k * (i + 1) := by rw [Nat.div_mul_cancel hk, Nat.mul_comm (i + 1)]
  | lsb => exact Nat.mul_comm i k

/-- The machine's extraction is the pixel of the slot (R272). -/
theorem loadRaw_eq_pixelOf {k : Nat} (hk : k ∣ 8) (po : PixelOrder) (byte i : Nat) :
    loadRaw k po byte i = pixelOf k po byte i := by
  rw [loadRaw, pixelOf, slotShift_eq_slotBit hk, pixelMask, Nat.and_two_pow_sub_one_eq_mod]

/-- A register as a byte is its low byte (R20). -/
theorem byte_eq_mod (s : State) (r : Reg) : s.byte r = (s.reg r).toNat % 256 := by simp [State.byte, slice]

theorem loadSlots_completes {s : State} {cm : ColorMode} {po : PixelOrder} {byte i n : Nat}
    (h : ∀ j, j < n → ∃ c, toArgb s cm (loadRaw (bitsPerPixel cm) po byte (i + j)) = .ok c) :
    ∃ cs, loadSlots s cm po byte i n = .ok cs := by
  induction n generalizing i with
  | zero => exact ⟨[], rfl⟩
  | succ n ih =>
    obtain ⟨c, hc⟩ := h 0 (by omega)
    obtain ⟨cs, hcs⟩ := ih (i := i + 1) fun j hj => by
      rw [Nat.add_right_comm]
      exact h (j + 1) (by omega)
    exact ⟨c :: cs, Exec.bind_eq_ok.mpr ⟨c, hc, Exec.bind_eq_ok.mpr ⟨cs, hcs, rfl⟩⟩⟩

/-- The colours of a run of slots stand in index order (R281). -/
theorem toArgb_of_loadSlots {s : State} {cm : ColorMode} {po : PixelOrder} {byte i n : Nat} {cs : List Color}
    (h : loadSlots s cm po byte i n = .ok cs) (j : Nat) (hj : j < cs.length) :
    toArgb s cm (loadRaw (bitsPerPixel cm) po byte (i + j)) = .ok cs[j] := by
  induction n generalizing i j cs with
  | zero =>
    injection h with h
    subst h
    contradiction
  | succ n ih =>
    obtain ⟨c, hc, h⟩ := Exec.bind_eq_ok.mp h
    obtain ⟨ds, hds, h⟩ := Exec.bind_eq_ok.mp h
    injection h with h
    subst h
    cases j with
    | zero => exact hc
    | succ j =>
      rw [show i + (j + 1) = i + 1 + j by omega]
      exact ih hds j (by simpa using hj)

/-- All slots of a byte decode when the entry that each needs is readable, each to the colour of its pixel (R281). -/
theorem loadBulk_completes {s : State} {cm : ColorMode} {po : PixelOrder} {byte : Nat} (hcm : cm.fullByte = false)
    (h : ∀ i, i < 8 / bitsPerPixel cm → EntryReadable s cm (pixelOf (bitsPerPixel cm) po byte i)) :
    ∃ cs, loadBulk s cm po byte = .ok cs ∧ cs.length = 8 / bitsPerPixel cm ∧
      ∀ i (hi : i < cs.length), DecodesTo s cm (pixelOf (bitsPerPixel cm) po byte i) cs[i] := by
  have hraw := loadRaw_eq_pixelOf (bitsPerPixel_dvd_eight hcm) po byte
  obtain ⟨cs, hcs⟩ : ∃ cs, loadBulk s cm po byte = .ok cs := loadSlots_completes fun j hj => by
    rw [Nat.zero_add, hraw]
    exact toArgb_completes (h j hj)
  have hlen : cs.length = 8 / bitsPerPixel cm := length_of_loadSlots hcs
  refine ⟨cs, hcs, hlen, fun i hi => (toArgb_eq_ok_iff s cm _ _).mp ?_⟩
  have hslot := toArgb_of_loadSlots hcs i hi
  rwa [Nat.zero_add, hraw] at hslot

/-- Settles O48: the colours are a list of the state before the command, stored afterwards. -/
theorem sbbulkCommand : Obligations.SbbulkCommand := by
  rintro s rs1 rs2 cm po k out hcm rfl rfl hwf hout hentries
  rw [← byte_eq_mod] at hentries ⊢
  obtain ⟨cs, hcs, hlen, hdec⟩ := loadBulk_completes hcm hentries
  have hend := reg_add_le_of_rangeOk hout
  rw [← hlen] at hend
  refine ⟨_, next_of_ok (exec_sbbulk s rs1 rs2 cm po) (by simp [Instr.wellFormed, hcm])
    ((bind_of_rangeOk hout _).trans (Exec.bind_eq_ok.mpr ⟨cs, hcs, rfl⟩)),
    changesOnlyMemory_setMem fun x hx => Memory.read_storeColors_outside _ _ x cs (by rw [hlen]; exact hx),
    fun i hi => ?_⟩
  rw [← hlen] at hi
  exact ⟨cs[i], hdec i hi, (wordAt_iff _ _ _).mpr (Memory.loadColor_storeColors cs hwf hend i hi)⟩

end Sys2Proof.Machine
end

section
/-! SUPPORT. The address ranges that commands check (spec/60_exceptions.md R323, R327). -/

namespace Sys2Proof.Machine

/-- The palette commands check the array after the size (R327). -/
theorem raises_palro_auto {s : State} {rs1 rs2 : Reg} {b : Nat} (hsize : (s.reg rs2).toNat ≤ 256)
    (hb : LowestBad s .read (s.reg rs1).toNat (4 * (s.reg rs2).toNat) b) :
    Raises 3 (addressInfo b) (.palro rs1 rs2 .auto) s := by
  obtain ⟨n, hn, hop⟩ := sizeOperand_of_le hsize
  rw [← hn] at hb
  refine raises_accessFault (exec_palro s rs1 rs2 .auto) rfl ?_
  rw [hop, Exec.ok_bind, if_pos rfl, readArray_of_lowestBad hb, Exec.error_bind]

theorem raises_palrw {s : State} {rs1 rs2 : Reg} (tm : TmArg) {b : Nat} (hsize : (s.reg rs2).toNat ≤ 256)
    (hb : LowestBad s .read (s.reg rs1).toNat (4 * (s.reg rs2).toNat) b) :
    Raises 3 (addressInfo b) (.palrw rs1 rs2 tm) s := by
  obtain ⟨n, hn, hop⟩ := sizeOperand_of_le hsize
  rw [← hn] at hb
  refine raises_accessFault (exec_palrw s rs1 rs2 tm) rfl ?_
  rw [hop, Exec.ok_bind, readArray_of_lowestBad hb, Exec.error_bind]

/-- Settles O54: each clause names the check of the command's body that fails, after those that pass. -/
theorem accessFaultsOfRanges : Obligations.AccessFaultsOfRanges := by
  rintro s rd rs1 rs2 cm bm bo po tm b a rfl
  refine ⟨fun h => ?ldc, fun h => ?stc, fun hcm h => ?ldraw, fun hcm h => ⟨?straw, ?blendrawm⟩,
    fun h => ⟨?destination, ?blendvs⟩, fun hd h => ?source, fun hcm h => ?sbbulk,
    fun hcm hi => ⟨fun h => ?sbloadm, fun h => ?sbstorem⟩, fun hsize h => ⟨?palro, ?palrw⟩⟩
  case ldc =>
    have hread : readColor s (s.num rs1) = .error (.accessFault b) := (readColor_eq_error_iff s _ _).mpr ⟨b, rfl, h⟩
    exact raises_accessFault (exec_ldc s rd rs1) rfl (Exec.bind_eq_error.mpr (.inl hread))
  case stc => exact raises_accessFault (exec_stc s rs1 rs2) rfl (bind_of_lowestBad h _)
  case ldraw => exact raises_accessFault (exec_ldraw s rd rs1 cm bo) hcm (bind_of_lowestBad h _)
  case straw => exact raises_accessFault (exec_straw s rs1 rs2 cm bo) hcm (bind_of_lowestBad h _)
  case blendrawm => exact raises_accessFault (exec_blendrawm s rs1 rs2 cm bm bo) hcm (bind_of_lowestBad h _)
  case destination => exact raises_accessFault (exec_blendv s rd rs1 rs2 bm) rfl (bind_of_lowestBad h _)
  case blendvs => exact raises_accessFault (exec_blendvs s rd rs1 rs2 bm) rfl (bind_of_lowestBad h _)
  case source =>
    exact raises_accessFault (exec_blendv s rd rs1 rs2 bm) rfl
      ((bind_of_rangeOk hd _).trans (bind_of_lowestBad h _))
  case sbbulk =>
    exact raises_accessFault (exec_sbbulk s rs1 rs2 cm po) (by simp [Instr.wellFormed, hcm]) (bind_of_lowestBad h _)
  case sbloadm =>
    exact raises_accessFault (exec_sbloadm s rd rs1 rs2 cm po) (by simp [Instr.wellFormed, hcm])
      ((bind_of_below hi _).trans (bind_of_lowestBad h _))
  case sbstorem =>
    exact raises_accessFault (exec_sbstorem s rd rs1 rs2 cm po) (by simp [Instr.wellFormed, hcm])
      ((bind_of_below hi _).trans (bind_of_lowestBad h _))
  case palro => exact raises_palro_auto hsize h
  case palrw => exact raises_palrw tm hsize h

end Sys2Proof.Machine
end

section
/-! SUPPORT. Command words and their commands (spec/30_encoding.md R91 to R96): the fields a word is packed from, the
bits that must be 0, the selectors, and with them encoder, decoder and opcode table against each other. -/

namespace Sys2Proof

/-! ## Codes and field values -/

theorem ColorMode.code_lt_32 (x : ColorMode) : x.code < 32 := Nat.lt_trans x.code_lt (by decide)

theorem BlendMode.code_lt_16 (x : BlendMode) : x.code < 16 := Nat.lt_trans x.code_lt (by decide)

theorem immediate_lt (x : BitVec 16) : x.toNat < 65536 := x.isLt

theorem ColorMode.ofCode?_eq_some_iff {n : Nat} {x : ColorMode} : ColorMode.ofCode? n = some x ↔ n = x.code := by
  refine ⟨fun h => ?_, fun h => h ▸ x.ofCode?_code⟩
  unfold ColorMode.ofCode? at h
  split at h <;> cases h <;> rfl

theorem BlendMode.ofCode?_eq_some_iff {n : Nat} {x : BlendMode} : BlendMode.ofCode? n = some x ↔ n = x.code := by
  refine ⟨fun h => ?_, fun h => h ▸ x.ofCode?_code⟩
  unfold BlendMode.ofCode? at h
  split at h <;> cases h <;> rfl

theorem Csr.ofCode?_eq_some_iff {n : Nat} {x : Csr} : Csr.ofCode? n = some x ↔ n = x.code := by
  refine ⟨fun h => ?_, fun h => h ▸ x.ofCode?_code⟩
  unfold Csr.ofCode? at h
  split at h <;> cases h <;> rfl

theorem Opcode.ofCode?_eq_some_iff {n : Nat} {x : Opcode} : Opcode.ofCode? n = some x ↔ n = x.code := by
  refine ⟨fun h => ?_, fun h => h ▸ x.ofCode?_code⟩
  unfold Opcode.ofCode? at h
  split at h <;> cases h <;> rfl

theorem cmField_eq_some_iff {v : Nat} {x : ColorMode} : cmField v = some x ↔ slice v 24 20 = x.code :=
  ColorMode.ofCode?_eq_some_iff

theorem bmField_eq_some_iff {v : Nat} {x : BlendMode} : bmField v = some x ↔ slice v 28 25 = x.code :=
  BlendMode.ofCode?_eq_some_iff

theorem csrField_eq_some_iff {v : Nat} {x : Csr} : csrField v = some x ↔ slice v 27 20 = x.code :=
  Csr.ofCode?_eq_some_iff

theorem slice_lt (v hi lo : Nat) : slice v hi lo < 2 ^ (hi + 1 - lo) := Nat.mod_lt _ (Nat.two_pow_pos _)

@[simp] theorem regField_val (v lo : Nat) : (regField v lo).val = slice v (lo + 3) lo := by
  have h := slice_lt v (lo + 3) lo
  rw [show lo + 3 + 1 - lo = 4 by omega] at h
  exact Nat.mod_eq_of_lt h

@[simp] theorem poField_code (v : Nat) : (poField v).code = slice v 29 29 := by
  have h := slice_lt v 29 29
  unfold poField
  interval_cases slice v 29 29 <;> rfl

@[simp] theorem boField_code (v : Nat) : (boField v).code = slice v 30 30 := by
  have h := slice_lt v 30 30
  unfold boField
  interval_cases slice v 30 30 <;> rfl

@[simp] theorem chField_code (v : Nat) : (chField v).code = slice v 21 20 := by
  have h := slice_lt v 21 20
  unfold chField
  interval_cases slice v 21 20 <;> rfl

@[simp] theorem tmField_code (v : Nat) : (tmField v).code = slice v 21 20 := by
  have h := slice_lt v 21 20
  unfold tmField
  interval_cases slice v 21 20 <;> rfl

@[simp] theorem cmBmField_eq_some_iff {v : Nat} {m : ColorMode × BlendMode} :
    cmBmField v = some m ↔ cmField v = some m.1 ∧ bmField v = some m.2 := by
  unfold cmBmField
  cases cmField v <;> cases bmField v <;> simp [Prod.ext_iff]

theorem withCode_eq_ok_iff {α : Type} {e : DecodeError} {c : Option α} {k : α → Instr} {i : Instr} :
    withCode e c k = .ok i ↔ ∃ a, c = some a ∧ k a = i := by
  cases c <;> simp [withCode]

/-! ## A word and the fields it is packed from (R91)

Packing fields gives a word exactly if the word's slices are those fields: the slices of each form cover all 32 bits. -/

section Fields

variable (op : Opcode) {rd rs1 rs2 cm bm po bo sel : Nat} {w : Word}

theorem packRM_eq_iff (h1 : rd < 16) (h2 : rs1 < 16) (h3 : rs2 < 16) (h4 : cm < 32) (h5 : bm < 16) (h6 : po < 2)
    (h7 : bo < 2) :
    packRM op rd rs1 rs2 cm bm po bo = w ↔
      slice w.toNat 7 0 = op.code ∧ slice w.toNat 31 31 = 0 ∧ slice w.toNat 11 8 = rd ∧ slice w.toNat 15 12 = rs1 ∧
        slice w.toNat 19 16 = rs2 ∧ slice w.toNat 24 20 = cm ∧ slice w.toNat 28 25 = bm ∧ slice w.toNat 29 29 = po ∧
        slice w.toNat 30 30 = bo := by
  constructor
  · rintro rfl
    obtain ⟨hop, hrd, hrs1, hrs2, hcm, hbm, hpo, hbo, hz⟩ := packRM_fields op h1 h2 h3 h4 h5 h6 h7
    exact ⟨hop, hz, hrd, hrs1, hrs2, hcm, hbm, hpo, hbo⟩
  · intro h
    have hw := w.isLt
    apply BitVec.eq_of_toNat_eq
    simp only [slice, packRM, BitVec.toNat_ofNat] at h ⊢
    omega

theorem packSel_eq_iff_two (h1 : rd < 16) (h2 : rs1 < 16) (h3 : rs2 < 16) (h4 : sel < 4) :
    packSel op rd rs1 rs2 sel = w ↔
      slice w.toNat 7 0 = op.code ∧ slice w.toNat 31 31 = 0 ∧ slice w.toNat 30 22 = 0 ∧ slice w.toNat 11 8 = rd ∧
        slice w.toNat 15 12 = rs1 ∧ slice w.toNat 19 16 = rs2 ∧ slice w.toNat 21 20 = sel := by
  constructor
  · rintro rfl
    obtain ⟨hop, hrd, hrs1, hrs2, hsel, -, hs, -, hz⟩ := packSel_fields op h1 h2 h3 (sel := sel) (by omega)
    exact ⟨hop, hz, by omega, hrd, hrs1, hrs2, by omega⟩
  · intro h
    have hw := w.isLt
    apply BitVec.eq_of_toNat_eq
    simp only [slice, packSel, BitVec.toNat_ofNat] at h ⊢
    omega

theorem packSel_eq_iff_eight (h1 : rd < 16) (h2 : rs1 < 16) (h3 : rs2 < 16) (h4 : sel < 256) :
    packSel op rd rs1 rs2 sel = w ↔
      slice w.toNat 7 0 = op.code ∧ slice w.toNat 31 31 = 0 ∧ slice w.toNat 30 28 = 0 ∧ slice w.toNat 11 8 = rd ∧
        slice w.toNat 15 12 = rs1 ∧ slice w.toNat 19 16 = rs2 ∧ slice w.toNat 27 20 = sel := by
  constructor
  · rintro rfl
    obtain ⟨hop, hrd, hrs1, hrs2, -, hsel, -, hs, hz⟩ := packSel_fields op h1 h2 h3 h4
    exact ⟨hop, hz, hs, hrd, hrs1, hrs2, hsel⟩
  · intro h
    have hw := w.isLt
    apply BitVec.eq_of_toNat_eq
    simp only [slice, packSel, BitVec.toNat_ofNat] at h ⊢
    omega

theorem packI_eq_iff {imm16 : Nat} (h1 : rd < 16) (h2 : imm16 < 65536) :
    packI op rd imm16 = w ↔
      slice w.toNat 7 0 = op.code ∧ slice w.toNat 15 12 = 0 ∧ slice w.toNat 11 8 = rd ∧
        slice w.toNat 31 16 = imm16 := by
  constructor
  · rintro rfl
    obtain ⟨hop, hrd, hz, himm⟩ := packI_fields op h1 h2
    exact ⟨hop, hz, hrd, himm⟩
  · intro h
    have hw := w.isLt
    apply BitVec.eq_of_toNat_eq
    simp only [slice, packI, BitVec.toNat_ofNat] at h ⊢
    omega

end Fields

/-! ## The bits that must be 0 (R95(b) to (e)) -/

/-- The bit range of a field, if the command does not use it. -/
def unusedRange (used : Bool) (hi lo : Nat) : List (Nat × Nat) := if used then [] else [(hi, lo)]

/-- The bit ranges that a row's form and its unused fields leave at 0. -/
def OpRow.zeroRanges (row : OpRow) : List (Nat × Nat) :=
  let registers := unusedRange row.rd 11 8 ++ unusedRange row.rs1 15 12 ++ unusedRange row.rs2 19 16
  match row.form with
  | .I => [(15, 12)]
  | .RM => [(31, 31)] ++ registers ++ unusedRange row.cm 24 20 ++ unusedRange row.bm 28 25 ++
      unusedRange row.po 29 29 ++ unusedRange row.bo 30 30
  | .RC | .RT => [(31, 31), (30, 22)] ++ registers
  | .RS => [(31, 31), (30, 28)] ++ registers

/-- Every bit of the ranges is 0. -/
def ZeroAt (v : Nat) (ranges : List (Nat × Nat)) : Prop := ∀ f ∈ ranges, slice v f.1 f.2 = 0

@[simp] theorem zeroAt_nil (v : Nat) : ZeroAt v [] := by simp [ZeroAt]

@[simp] theorem zeroAt_cons (v : Nat) (f : Nat × Nat) (l : List (Nat × Nat)) :
    ZeroAt v (f :: l) ↔ slice v f.1 f.2 = 0 ∧ ZeroAt v l := List.forall_mem_cons

@[simp] theorem zeroAt_append (v : Nat) (l m : List (Nat × Nat)) : ZeroAt v (l ++ m) ↔ ZeroAt v l ∧ ZeroAt v m :=
  List.forall_mem_append

theorem fieldClear_iff (used : Bool) (v hi lo : Nat) :
    fieldClear used v hi lo = true ↔ ZeroAt v (unusedRange used hi lo) := by
  cases used <;> simp [fieldClear, unusedRange]

theorem reservedBits_eq_none_iff (row : OpRow) (v : Nat) :
    reservedBits row v = none ↔ ZeroAt v row.zeroRanges := by
  cases h : row.form <;> simp [reservedBits, OpRow.zeroRanges, h, fieldClear_iff, and_assoc, ite_eq_iff]

/-! ## A word packed again from its own fields -/

/-- The value of a field that the command uses, and 0 for one that it does not use. -/
def usedField (used : Bool) (v hi lo : Nat) : Nat := if used then slice v hi lo else 0

theorem usedField_lt (used : Bool) (v hi lo : Nat) : usedField used v hi lo < 2 ^ (hi + 1 - lo) := by
  cases used
  · exact Nat.two_pow_pos _
  · exact slice_lt v hi lo

theorem eq_usedField_iff (used : Bool) (v hi lo : Nat) :
    slice v hi lo = usedField used v hi lo ↔ ZeroAt v (unusedRange used hi lo) := by
  cases used <;> simp [usedField, unusedRange]

/-- The word with the opcode and the fields that the opcode's row uses, each at its value in `v`. -/
def packUsedFields (op : Opcode) (v : Nat) : Word :=
  let rd := usedField op.row.rd v 11 8
  let rs1 := usedField op.row.rs1 v 15 12
  let rs2 := usedField op.row.rs2 v 19 16
  match op.row.form with
  | .I => packI op (slice v 11 8) (slice v 31 16)
  | .RM => packRM op rd rs1 rs2 (usedField op.row.cm v 24 20) (usedField op.row.bm v 28 25)
      (usedField op.row.po v 29 29) (usedField op.row.bo v 30 30)
  | .RC | .RT => packSel op rd rs1 rs2 (slice v 21 20)
  | .RS => packSel op rd rs1 rs2 (slice v 27 20)

/-- No bit is ignored: a word is made up of its opcode and its used fields exactly if its other bits are 0. -/
theorem packUsedFields_eq_iff (op : Opcode) (w : Word) :
    packUsedFields op w.toNat = w ↔ slice w.toNat 7 0 = op.code ∧ reservedBits op.row w.toNat = none := by
  have hreg := fun used hi lo => usedField_lt used w.toNat hi lo
  have hsel := slice_lt w.toNat
  rw [reservedBits_eq_none_iff]
  unfold packUsedFields OpRow.zeroRanges
  cases op.row.form with
  | I =>
    rw [packI_eq_iff op (hsel 11 8) (hsel 31 16)]
    simp
  | RM =>
    rw [packRM_eq_iff op (hreg _ 11 8) (hreg _ 15 12) (hreg _ 19 16) (hreg _ 24 20) (hreg _ 28 25) (hreg _ 29 29)
      (hreg _ 30 30)]
    simp [eq_usedField_iff]
  | RC | RT =>
    rw [packSel_eq_iff_two op (hreg _ 11 8) (hreg _ 15 12) (hreg _ 19 16) (hsel 21 20)]
    simp [eq_usedField_iff]
  | RS =>
    rw [packSel_eq_iff_eight op (hreg _ 11 8) (hreg _ 15 12) (hreg _ 19 16) (hsel 27 20)]
    simp [eq_usedField_iff]

/-! ## Encoder against decoder -/

/-- The instruction built from a word encodes to the word's opcode and used fields. -/
theorem encode_of_buildInstr {op : Opcode} {v : Nat} {i : Instr} (h : buildInstr op v = .ok i) :
    encode i = packUsedFields op v := by
  have himm : slice v 31 16 < 65536 := slice_lt v 31 16
  cases op with
  | csrr | csrw | ldraw | straw | toargb | fromargb | transp | bpp | blend | blendv | blendvs | blendraw | blendrawm
  | sbload | sbstore | sbexpand | sbbulk | sbloadm | sbstorem =>
    obtain ⟨a, ha, rfl⟩ := withCode_eq_ok_iff.mp h
    simp only [cmBmField_eq_some_iff, cmField_eq_some_iff, bmField_eq_some_iff, csrField_eq_some_iff] at ha
    simp [encode, packUsedFields, Opcode.row, usedField, ha]
  | _ =>
    obtain rfl := Except.ok.inj h
    simp [encode, packUsedFields, Opcode.row, usedField, Nat.mod_eq_of_lt himm]

/-- The fields of an encoded instruction give its operands back. -/
theorem buildInstr_of_encode_eq {i : Instr} {w : Word} (h : encode i = w) : buildInstr i.opcode w.toNat = .ok i := by
  cases i with
  | ldi | ldih =>
    simp only [encode, packI_eq_iff, Fin.is_lt, immediate_lt] at h
    simp [Instr.opcode, buildInstr, regField, h]
  | csrr | csrw =>
    simp only [encode, packSel_eq_iff_eight, Fin.is_lt, Nat.reduceLT, Csr.code_lt] at h
    simp [Instr.opcode, buildInstr, withCode, regField, csrField, h]
  | cget | cset | palro | palrw =>
    simp only [encode, packSel_eq_iff_two, Fin.is_lt, Nat.reduceLT, Channel.code_lt, TmArg.code_lt] at h
    simp [Instr.opcode, buildInstr, regField, chField, tmField, h]
  | _ =>
    simp only [encode, packRM_eq_iff, Fin.is_lt, Nat.reduceLT, ColorMode.code_lt_32, BlendMode.code_lt_16,
      PixelOrder.code_lt, ByteOrder.code_lt] at h
    simp [Instr.opcode, buildInstr, withCode, regField, cmField, bmField, cmBmField, poField, boField, h]

/-- Decoder and encoder are inverse to each other between legal words and well-formed instructions. -/
theorem decode_eq_ok_iff_encode {w : Word} {i : Instr} :
    decode w = .ok i ↔ i.wellFormed = true ∧ encode i = w := by
  rw [decode_eq_ok_iff]
  constructor
  · rintro ⟨op, hop, hzero, hbuild, hwf⟩
    have hcode := Opcode.ofCode?_eq_some_iff.mp hop
    have henc := encode_of_buildInstr hbuild
    exact ⟨hwf, henc.trans ((packUsedFields_eq_iff op w).mpr ⟨hcode, hzero⟩)⟩
  · rintro ⟨hwf, rfl⟩
    have hbuild := buildInstr_of_encode_eq (i := i) rfl
    have henc := encode_of_buildInstr hbuild
    obtain ⟨hcode, hzero⟩ := (packUsedFields_eq_iff i.opcode (encode i)).mp henc.symm
    exact ⟨i.opcode, Opcode.ofCode?_eq_some_iff.mpr hcode, hzero, hbuild, hwf⟩

/-- Settles O1: the direction from the encoding to the command. -/
theorem decodeOfEncode : Obligations.DecodeOfEncode := fun _ hwf => decode_eq_ok_iff_encode.mpr ⟨hwf, rfl⟩

/-- Settles O2: the direction from the word to the encoding. -/
theorem encodeOfDecode : Obligations.EncodeOfDecode := fun _ _ h => decode_eq_ok_iff_encode.mp h

/-! ## The opcode table (R94, R95) -/

/-- The opcodes in the order of R94's table. -/
def Opcode.table : List Opcode :=
  [.nop, .ldi, .ldih, .mov, .csrr, .csrw, .ldc, .stc, .ldraw, .straw, .cget, .cset, .copq, .cisopq, .toargb, .fromargb,
    .transp, .bpp, .blend, .blendv, .blendvs, .blendraw, .blendrawm, .sbload, .sbstore, .sbexpand, .sbbulk, .sbloadm,
    .sbstorem, .palro, .palrw, .paldyn, .palidx]

theorem Opcode.mem_table (op : Opcode) : op ∈ Opcode.table := by cases op <;> decide

/-- The row of the opcode table at an opcode's place. -/
def Opcode.commandRow (op : Opcode) : CommandRow := commandRows[op.ctorIdx]'(by cases op <;> decide)

theorem commandRows_eq_map : commandRows = Opcode.table.map Opcode.commandRow := rfl

theorem mem_commandRows_iff {row : CommandRow} : row ∈ commandRows ↔ ∃ op : Opcode, op.commandRow = row := by
  simp [commandRows_eq_map, Opcode.mem_table]

theorem commandRow_opcode (op : Opcode) : op.commandRow.opcode = op.code := by cases op <;> rfl

/-! ## Both tables clear the same bits -/

/-- The bits that some range covers. -/
def coveredBits (ranges : List (Nat × Nat)) : List Nat :=
  (List.range 32).filter fun k => ranges.any fun f => f.2 ≤ k && k ≤ f.1

theorem slice_eq_zero_iff {v hi lo : Nat} :
    slice v hi lo = 0 ↔ ∀ k, lo ≤ k → k ≤ hi → v.testBit k = false := by
  have hbit : ∀ j, (slice v hi lo).testBit j = (decide (j < hi + 1 - lo) && v.testBit (j + lo)) := fun j => by
    rw [slice, Nat.testBit_mod_two_pow, Nat.testBit_div_two_pow]
  constructor
  · intro h k hlo hhi
    have hk := hbit (k - lo)
    rw [h, Nat.zero_testBit, Nat.sub_add_cancel hlo, decide_eq_true (by omega), Bool.true_and] at hk
    exact hk.symm
  · intro h
    refine Nat.eq_of_testBit_eq fun j => ?_
    rw [hbit, Nat.zero_testBit]
    by_cases hj : j < hi + 1 - lo
    · rw [h (j + lo) (by omega) (by omega), Bool.and_false]
    · rw [decide_eq_false hj, Bool.false_and]

theorem zeroAt_iff_coveredBits (w : Word) (ranges : List (Nat × Nat)) :
    ZeroAt w.toNat ranges ↔ ∀ k ∈ coveredBits ranges, w.toNat.testBit k = false := by
  simp only [ZeroAt, slice_eq_zero_iff, coveredBits, List.mem_filter, List.mem_range, List.any_eq_true,
    Bool.and_eq_true, decide_eq_true_eq]
  constructor
  · rintro h k ⟨-, f, hf, hlo, hhi⟩
    exact h f hf k hlo hhi
  · intro h f hf k hlo hhi
    by_cases hk : k < 32
    · exact h k ⟨hk, f, hf, hlo, hhi⟩
    · exact Nat.testBit_lt_two_pow (Nat.lt_of_lt_of_le w.isLt (Nat.pow_le_pow_right (by decide) (by omega)))

theorem coveredBits_commandRow (op : Opcode) : coveredBits op.commandRow.zero = coveredBits op.row.zeroRanges := by
  cases op <;> decide

theorem reservedBits_eq_none_iff_commandRow (op : Opcode) (w : Word) :
    reservedBits op.row w.toNat = none ↔ ZeroAt w.toNat op.commandRow.zero := by
  rw [reservedBits_eq_none_iff, zeroAt_iff_coveredBits, zeroAt_iff_coveredBits, coveredBits_commandRow]

/-! ## Both tables take the same selectors -/

/-- A table of codes and a class `p` of the values against the codes `q` that a row takes. -/
theorem exists_code_iff {α : Type} {ofCode? : Nat → Option α} {code : α → Nat}
    (hcode : ∀ {n x}, ofCode? n = some x ↔ n = code x) {p : α → Bool} {q : Nat → Bool} (hpq : ∀ x, q (code x) = p x)
    (hsome : ∀ n, q n = true → (ofCode? n).isSome = true) {n : Nat} :
    (∃ x, ofCode? n = some x ∧ p x = true) ↔ q n = true := by
  constructor
  · rintro ⟨x, hx, hp⟩
    rw [hcode.mp hx, hpq, hp]
  · intro hq
    obtain ⟨x, hx⟩ := Option.isSome_iff_exists.mp (hsome n hq)
    exact ⟨x, hx, by rw [← hpq, ← hcode.mp hx, hq]⟩

theorem forall_of_contains {l : List Nat} {p : Nat → Bool} (h : ∀ m ∈ l, p m = true) (n : Nat)
    (hn : l.contains n = true) : p n = true := h n (List.contains_iff_mem.mp hn)

theorem exists_cmField_iff {v : Nat} : (∃ cm, cmField v = some cm) ↔ anyMode (slice v 24 20) = true := by
  have hsome : ∀ n, anyMode n = true → (ColorMode.ofCode? n).isSome = true := fun n hn =>
    (by decide : ∀ n < 17, (ColorMode.ofCode? n).isSome = true) n (Nat.lt_succ_of_le (of_decide_eq_true hn))
  simpa [cmField] using exists_code_iff ColorMode.ofCode?_eq_some_iff (p := fun _ => true) (q := anyMode)
    (fun x => by cases x <;> rfl) hsome (n := slice v 24 20)

theorem exists_cmField_fullByte_iff {v : Nat} :
    (∃ cm, cmField v = some cm ∧ cm.fullByte = true) ↔ fullByteMode (slice v 24 20) = true :=
  exists_code_iff ColorMode.ofCode?_eq_some_iff (fun x => by cases x <;> rfl) (forall_of_contains (by decide))

theorem exists_cmField_subByte_iff {v : Nat} :
    (∃ cm, cmField v = some cm ∧ (!cm.fullByte) = true) ↔ subByteMode (slice v 24 20) = true :=
  exists_code_iff ColorMode.ofCode?_eq_some_iff (fun x => by cases x <;> rfl) (forall_of_contains (by decide))

theorem exists_bmField_iff {v : Nat} : (∃ bm, bmField v = some bm) ↔ anyBlend (slice v 28 25) = true := by
  have hsome : ∀ n, anyBlend n = true → (BlendMode.ofCode? n).isSome = true := fun n hn =>
    (by decide : ∀ n < 14, (BlendMode.ofCode? n).isSome = true) n (Nat.lt_succ_of_le (of_decide_eq_true hn))
  simpa [bmField] using exists_code_iff BlendMode.ofCode?_eq_some_iff (p := fun _ => true) (q := anyBlend)
    (fun x => by cases x <;> rfl) hsome (n := slice v 28 25)

theorem exists_csrField_iff {v : Nat} : (∃ csr, csrField v = some csr) ↔ anyCsr (slice v 27 20) = true := by
  simpa [csrField] using exists_code_iff Csr.ofCode?_eq_some_iff (p := fun _ => true) (q := anyCsr)
    (fun x => by cases x <;> rfl) (forall_of_contains (by decide)) (n := slice v 27 20)

theorem exists_csrField_writable_iff {v : Nat} :
    (∃ csr, csrField v = some csr ∧ csr.writable = true) ↔ writableCsr (slice v 27 20) = true :=
  exists_code_iff Csr.ofCode?_eq_some_iff (fun x => by cases x <;> rfl) (forall_of_contains (by decide))

theorem exists_cmBmField_iff {v : Nat} {p : ColorMode → Bool} :
    (∃ m, cmBmField v = some m ∧ p m.1 = true) ↔
      (∃ cm, cmField v = some cm ∧ p cm = true) ∧ ∃ bm, bmField v = some bm := by
  simp only [cmBmField_eq_some_iff, Prod.exists]
  constructor
  · rintro ⟨cm, bm, ⟨hcm, hbm⟩, hp⟩
    exact ⟨⟨cm, hcm, hp⟩, bm, hbm⟩
  · rintro ⟨⟨cm, hcm, hp⟩, bm, hbm⟩
    exact ⟨cm, bm, ⟨hcm, hbm⟩, hp⟩

/-- The fields of a word make a well-formed instruction: conditions (f) to (h) of R95 do not hold. -/
def Builds (op : Opcode) (v : Nat) : Prop := ∃ i, buildInstr op v = .ok i ∧ i.wellFormed = true

theorem builds_of_ok {op : Opcode} {v : Nat} {i : Instr} (h : buildInstr op v = .ok i) :
    Builds op v ↔ i.wellFormed = true := by
  simp [Builds, h]

theorem builds_of_withCode {α : Type} {op : Opcode} {v : Nat} {e : DecodeError} {c : Option α} {k : α → Instr}
    (h : buildInstr op v = withCode e c k) : Builds op v ↔ ∃ a, c = some a ∧ (k a).wellFormed = true := by
  cases c <;> simp [Builds, h, withCode]

/-- A word's fields make an instruction exactly if each selector holds a code that the opcode's row takes (R95(f) to
(h)); each `change` is the selectors of the rows it stands under. -/
theorem builds_iff_selectors (op : Opcode) (v : Nat) :
    Builds op v ↔ op.commandRow.cm (slice v 24 20) = true ∧ op.commandRow.bm (slice v 28 25) = true ∧
      op.commandRow.csr (slice v 27 20) = true := by
  cases op with
  | csrr =>
    change Builds _ v ↔ true = true ∧ true = true ∧ anyCsr (slice v 27 20) = true
    rw [builds_of_withCode rfl]
    simp [Instr.wellFormed, exists_csrField_iff]
  | csrw =>
    change Builds _ v ↔ true = true ∧ true = true ∧ writableCsr (slice v 27 20) = true
    rw [builds_of_withCode rfl]
    simp [Instr.wellFormed, exists_csrField_writable_iff]
  | ldraw | straw =>
    change Builds _ v ↔ fullByteMode (slice v 24 20) = true ∧ true = true ∧ true = true
    rw [builds_of_withCode rfl]
    simp [Instr.wellFormed, exists_cmField_fullByte_iff]
  | toargb | fromargb | transp | bpp =>
    change Builds _ v ↔ anyMode (slice v 24 20) = true ∧ true = true ∧ true = true
    rw [builds_of_withCode rfl]
    simp [Instr.wellFormed, exists_cmField_iff]
  | blend | blendv | blendvs =>
    change Builds _ v ↔ true = true ∧ anyBlend (slice v 28 25) = true ∧ true = true
    rw [builds_of_withCode rfl]
    simp [Instr.wellFormed, exists_bmField_iff]
  | blendraw =>
    change Builds _ v ↔ anyMode (slice v 24 20) = true ∧ anyBlend (slice v 28 25) = true ∧ true = true
    refine ((builds_of_withCode rfl).trans (exists_cmBmField_iff (p := fun _ => true))).trans ?_
    simp [exists_cmField_iff, exists_bmField_iff]
  | blendrawm =>
    change Builds _ v ↔ fullByteMode (slice v 24 20) = true ∧ anyBlend (slice v 28 25) = true ∧ true = true
    refine ((builds_of_withCode rfl).trans (exists_cmBmField_iff (p := ColorMode.fullByte))).trans ?_
    simp [exists_cmField_fullByte_iff, exists_bmField_iff]
  | sbload | sbstore | sbexpand | sbbulk | sbloadm | sbstorem =>
    change Builds _ v ↔ subByteMode (slice v 24 20) = true ∧ true = true ∧ true = true
    refine ((builds_of_withCode rfl).trans exists_cmField_subByte_iff).trans ?_
    simp
  | _ =>
    change Builds _ v ↔ true = true ∧ true = true ∧ true = true
    rw [builds_of_ok rfl]
    simp [Instr.wellFormed]

theorem meets_commandRow_iff (op : Opcode) (w : Word) :
    op.commandRow.meets w ↔
      slice w.toNat 7 0 = op.code ∧ reservedBits op.row w.toNat = none ∧ Builds op w.toNat := by
  rw [CommandRow.meets, commandRow_opcode, reservedBits_eq_none_iff_commandRow, builds_iff_selectors, ZeroAt]

theorem exists_decode_iff (w : Word) :
    (∃ i, decode w = .ok i) ↔ ∃ op : Opcode,
      slice w.toNat 7 0 = op.code ∧ reservedBits op.row w.toNat = none ∧ Builds op w.toNat := by
  constructor
  · rintro ⟨i, h⟩
    obtain ⟨op, hop, hzero, hbuilds⟩ := (decode_eq_ok_iff w i).mp h
    exact ⟨op, Opcode.ofCode?_eq_some_iff.mp hop, hzero, i, hbuilds⟩
  · rintro ⟨op, hop, hzero, i, hbuilds⟩
    exact ⟨i, (decode_eq_ok_iff w i).mpr ⟨op, Opcode.ofCode?_eq_some_iff.mpr hop, hzero, hbuilds⟩⟩

/-- Settles O3: row by row, the opcode table and the decoder ask the same of a word. -/
theorem legalWordsAreCommands : Obligations.LegalWordsAreCommands := fun w =>
  calc (∃ i, decode w = .ok i)
    _ ↔ ∃ op : Opcode, op.commandRow.meets w := by simp only [exists_decode_iff, meets_commandRow_iff]
    _ ↔ LegalWord w := by simp [LegalWord, mem_commandRows_iff]

/-! ## Words of spec/ and the step -/

/-- Settles O4: each word is the encoding of its command. -/
theorem specWordsDecode : Obligations.SpecWordsDecode := by
  unfold Obligations.SpecWordsDecode
  simp only [decode_eq_ok_iff_encode]
  decide

end Sys2Proof

namespace Sys2Proof.Machine

theorem step_of_moves {s : State} {m : HostMove} {rest : List HostMove} (h : s.moves = m :: rest) :
    step s = hostMove m (s.setMoves rest) := by
  unfold step takeMove
  rw [h]

/-- A command word is executed unless a fault is latched (R90, R326). -/
theorem writeCommand_of_decode {s : State} {w : Word} {i : Instr} (hs : s.statusFaulted = false)
    (h : decode w = .ok i) : writeCommand w s = exec i s := by
  have hready : s.ready = true := by rw [State.ready, hs, Bool.not_false]
  rw [writeCommand, if_pos hready, h]

theorem portWrite_command (w : Word) (s : State) : portWrite 0x400 w s = writeCommand w s := rfl

/-- Settles O5: the write to `CMD` is taken from the moves, reaches the command port, and is decoded. -/
theorem stepRunsDecodedCommand : Obligations.StepRunsDecodedCommand := fun s w i rest hmoves hs hdec =>
  calc step s = portWrite 0x400 w (s.setMoves rest) := step_of_moves hmoves
    _ = writeCommand w (s.setMoves rest) := portWrite_command w _
    _ = exec i (s.setMoves rest) := writeCommand_of_decode hs hdec

end Sys2Proof.Machine
end

section
/-! SUPPORT. The register moves (spec/40_register_ops.md R120 to R123). -/

namespace Sys2Proof.Machine

/-- A command whose body is one register write completes, leaves that value in the register, and changes nothing
else. -/
theorem exec_completes_of_setReg {i : Instr} {s : State} {rd : Reg} {v : Word}
    (he : exec i s = runCommand i s (.ok (s.setReg rd v))) (hw : i.wellFormed = true) :
    ∃ t, exec i s = .next t ∧ t.reg rd = v ∧ ChangesOnlyReg rd s t :=
  ⟨_, next_of_ok he hw rfl, reg_setReg_same s rd v, changesOnlyReg_setReg s rd v⟩

/-- An upper half-word and the lower half of a word make a 32-bit number: nothing is cut off (R122). -/
theorem toNat_upperHalf_add_lowerHalf (imm : BitVec 16) (v : Nat) :
    (BitVec.ofNat 32 (imm.toNat * 2 ^ 16 + slice v 15 0)).toNat = imm.toNat * 65536 + v % 65536 := by
  have hupper := imm.isLt
  have hlower : slice v 15 0 = v % 65536 := by simp [slice]
  rw [BitVec.toNat_ofNat, hlower]
  omega

/-- Settles O19: three of the commands are one register write, and NOP has an empty body. -/
theorem moveCommands : Obligations.MoveCommands := by
  intro s rd rs1 imm
  refine ⟨⟨_, next_of_ok (exec_nop s) rfl rfl, changesNothing_count s⟩, ?ldi, ?ldih,
    exec_completes_of_setReg (exec_mov s rd rs1) rfl⟩
  case ldi =>
    obtain ⟨t, hnext, hreg, hframe⟩ := exec_completes_of_setReg (exec_ldi s rd imm) rfl
    exact ⟨t, hnext, hreg ▸ BitVec.toNat_setWidth_of_le (by decide), hframe⟩
  case ldih =>
    obtain ⟨t, hnext, hreg, hframe⟩ := exec_completes_of_setReg (exec_ldih s rd imm) rfl
    exact ⟨t, hnext, hreg ▸ toNat_upperHalf_add_lowerHalf imm (s.num rd), hframe⟩

end Sys2Proof.Machine
end

section
/-! SUPPORT. The colour commands and the bytes of a colour (spec/41_color.md R141 to R145). -/

namespace Sys2Proof.Machine

/-! ## Bytes of a word and their bits -/

theorem testBit_lowByte (v j : Nat) : (v % 256).testBit j = (decide (j < 8) && v.testBit j) :=
  Nat.testBit_mod_two_pow v 8 j

/-- The bits of byte `k` of a number are eight bits of the number, from bit `8k` on. -/
theorem testBit_byteOf (v k j : Nat) :
    (v / 256 ^ k % 256).testBit j = (decide (j < 8) && v.testBit (j + 8 * k)) := by
  rw [testBit_lowByte, show (256 : Nat) = 2 ^ 8 from rfl, ← Nat.pow_mul, Nat.testBit_div_two_pow]

/-- A byte put at byte `k` of a word has its bits there, and zeros elsewhere. -/
theorem testBit_byteAt (v k i : Nat) :
    (v % 256 * 2 ^ (8 * k)).testBit i = (decide (i / 8 = k) && v.testBit (i % 8)) := by
  rw [Nat.testBit_mul_two_pow, testBit_lowByte]
  by_cases hk : i / 8 = k
  · have hlow : i - 8 * k = i % 8 := by omega
    have hin : 8 * k ≤ i ∧ i % 8 < 8 := by omega
    simp [hk, hlow, hin]
  · simp only [hk, decide_false, Bool.false_and, Bool.and_eq_false_iff, decide_eq_false_iff_not]
    omega

/-! ## Channels are bytes -/

theorem channelOf_eq (ch : Channel) (c : Color) : channelOf ch c = c.toNat / 256 ^ ch.code % 256 := by
  have hwidth : 8 * ch.code + 7 + 1 - 8 * ch.code = 8 := by omega
  rw [channelOf, slice, hwidth, Nat.pow_mul]
  rfl

/-- Two channels with one code are the same: the field's decoding inverts the code. -/
theorem Channel.code_inj {x y : Channel} (h : x.code = y.code) : x = y := by
  have hinv (ch : Channel) : Channel.ofField ch.code = ch := by cases ch <;> rfl
  rw [← hinv x, h, hinv y]

/-- The bits of a colour whose channel was replaced: those of the new byte in the channel, the old ones elsewhere
(R142). -/
theorem testBit_withChannel (ch : Channel) (c : Color) (v : Nat) {i : Nat} (hi : i < 32) :
    (withChannel ch c v).toNat.testBit i = if i / 8 = ch.code then v.testBit (i % 8) else c.toNat.testBit i := by
  have hmask : (0xFF * 2 ^ (8 * ch.code)).testBit i = decide (i / 8 = ch.code) := by
    rw [testBit_byteAt 0xFF, show (0xFF : Nat) = 2 ^ 8 - 1 from rfl, Nat.testBit_two_pow_sub_one,
      decide_eq_true (Nat.mod_lt i (by decide)), Bool.and_true]
  simp only [withChannel, BitVec.testBit_toNat, BitVec.getLsbD_or, BitVec.getLsbD_and, BitVec.getLsbD_not,
    BitVec.getLsbD_ofNat, hi, hmask, testBit_byteAt]
  split_ifs with h <;> simp [h]

/-- The bytes of a colour whose channel was replaced (R142). -/
theorem byteOf_withChannel (ch : Channel) (c : Color) (v : Nat) {k : Nat} (hk : k < 4) :
    (withChannel ch c v).toNat / 256 ^ k % 256 = if k = ch.code then v % 256 else c.toNat / 256 ^ k % 256 := by
  refine Nat.eq_of_testBit_eq fun j => ?_
  rw [apply_ite (Nat.testBit · j), testBit_byteOf, testBit_byteOf, testBit_lowByte]
  by_cases hj : j < 8
  · have hbyte : (j + 8 * k) / 8 = k := by omega
    have hbit : (j + 8 * k) % 8 = j := by omega
    rw [testBit_withChannel ch c v (by omega), hbyte, hbit, apply_ite (decide (j < 8) && ·)]
  · simp only [hj, decide_false, Bool.false_and, ite_self]

theorem toNat_toOpaque (c : Color) : (toOpaque c).toNat = 255 * 2 ^ 24 + c.toNat % 2 ^ 24 := by
  rw [toOpaque, BitVec.toNat_ofNat, rgbOf_eq]
  omega

/-! ## The commands -/

/-- CGET is one write of a byte of the colour (R141). -/
theorem exec_cget_completes (s : State) (rd rs1 : Reg) (ch : Channel) :
    ∃ t, exec (.cget rd rs1 ch) s = .next t ∧
      (t.reg rd).toNat = (s.reg rs1).toNat / 256 ^ ch.code % 256 ∧ ChangesOnlyReg rd s t := by
  obtain ⟨t, hnext, hreg, hframe⟩ := exec_completes_of_setReg (exec_cget s rd rs1 ch) rfl
  refine ⟨t, hnext, ?_, hframe⟩
  rw [hreg, BitVec.toNat_ofNat, channelOf_eq]
  omega

/-- CSET is one write of the colour with one byte replaced (R142). -/
theorem exec_cset_completes (s : State) (rd rs1 rs2 : Reg) (ch : Channel) :
    ∃ t, exec (.cset rd rs1 rs2 ch) s = .next t ∧ ChangesOnlyReg rd s t ∧
      ∀ k, k < 4 → (t.reg rd).toNat / 256 ^ k % 256 =
        if k = ch.code then (s.reg rs2).toNat % 256 else (s.reg rs1).toNat / 256 ^ k % 256 := by
  obtain ⟨t, hnext, hreg, hframe⟩ := exec_completes_of_setReg (exec_cset s rd rs1 rs2 ch) rfl
  refine ⟨t, hnext, hframe, fun k hk => ?_⟩
  rw [hreg, byteOf_withChannel ch _ _ hk, byte_eq_mod, Nat.mod_mod]

/-- Settles O25: each command is one register write, of a channel, of a colour with one byte replaced, of the opaque
colour, of a truth value. -/
theorem colourCommands : Obligations.ColourCommands := by
  intro s rd rs1 rs2 ch
  refine ⟨exec_cget_completes s rd rs1 ch, exec_cset_completes s rd rs1 rs2 ch, ?copq, ?cisopq⟩
  case copq =>
    obtain ⟨t, hnext, hreg, hframe⟩ := exec_completes_of_setReg (exec_copq s rd rs1) rfl
    exact ⟨t, hnext, hreg ▸ toNat_toOpaque (s.reg rs1), hframe⟩
  case cisopq =>
    obtain ⟨t, hnext, hreg, hframe⟩ := exec_completes_of_setReg (exec_cisopq s rd rs1) rfl
    refine ⟨t, hnext, ?_, hframe⟩
    rw [hreg, alphaOf_eq]
    split_ifs <;> rfl

/-- Settles O26: both commands speak of the same bytes of a colour, and two channels are two bytes. -/
theorem channelReadBack : Obligations.ChannelReadBack := by
  intro s t x rs1 rs2 ch hset
  obtain ⟨t', hnext, -, hbytes⟩ := exec_cset_completes s x rs1 rs2 ch
  obtain rfl : t' = t := Host.Outcome.next.inj (hnext.symm.trans hset)
  constructor
  · obtain ⟨u, hget, hu, -⟩ := exec_cget_completes t' x x ch
    exact ⟨u, hget, by rw [hu, hbytes _ ch.code_lt, if_pos rfl]⟩
  · intro ch' hne
    obtain ⟨u, hget, hu, -⟩ := exec_cget_completes t' x x ch'
    obtain ⟨v, hget', hv, -⟩ := exec_cget_completes s x rs1 ch'
    refine ⟨u, v, hget, hget', BitVec.eq_of_toNat_eq ?_⟩
    rw [hu, hv, hbytes _ ch'.code_lt, if_neg fun h => hne (Channel.code_inj h)]

end Sys2Proof.Machine
end

section
/-! SUPPORT. The truncations and the expansions of a channel (spec/42_colormode.md R167, R168, R204). -/

namespace Sys2Proof.Machine

/-! ## Every width -/

/-- The subtracted part of R167 takes at most one off the plain shift. -/
theorem truncTo_eq_shift_or_succ {n c : Nat} (hn : n ≤ 8) (hc : c < 256) :
    truncTo n c = c / 2 ^ (8 - n) ∨ truncTo n c + 1 = c / 2 ^ (8 - n) := by
  have hsplit : 2 ^ n * 2 ^ (8 - n) = 256 := by
    rw [← Nat.pow_add, Nat.add_sub_cancel' hn]
  have hpart : c / 2 ^ n < 2 ^ (8 - n) := Nat.div_lt_of_lt_mul (by omega)
  have hupper : truncTo n c ≤ c / 2 ^ (8 - n) := Nat.div_le_div_right (Nat.sub_le _ _)
  have hlower : c / 2 ^ (8 - n) ≤ truncTo n c + 1 :=
    calc c / 2 ^ (8 - n) ≤ (c - c / 2 ^ n + 2 ^ (8 - n)) / 2 ^ (8 - n) :=
          Nat.div_le_div_right (Nat.sub_le_iff_le_add.mp (Nat.sub_le_sub_left hpart.le c))
      _ = truncTo n c + 1 := Nat.add_div_right _ (Nat.two_pow_pos _)
  omega

/-- A truncated channel has N bits. -/
theorem truncTo_lt {n c : Nat} (hn : n ≤ 8) (hc : c < 256) : truncTo n c < 2 ^ n := by
  have hsplit : 2 ^ (8 - n) * 2 ^ n = 256 := by
    rw [← Nat.pow_add, Nat.sub_add_cancel hn]
  have hshift : c / 2 ^ (8 - n) < 2 ^ n := Nat.div_lt_of_lt_mul (by omega)
  have := truncTo_eq_shift_or_succ hn hc
  omega

/-- A step of `e` in the channel raises the subtracted part by at most `e`. -/
theorem truncTo_mono (n : Nat) {c d : Nat} (h : c ≤ d) : truncTo n c ≤ truncTo n d := by
  obtain ⟨e, rfl⟩ := Nat.exists_eq_add_of_le h
  have hstep : (c + e) / 2 ^ n ≤ c / 2 ^ n + e :=
    calc (c + e) / 2 ^ n ≤ (c + 2 ^ n * e) / 2 ^ n :=
          Nat.div_le_div_right (Nat.add_le_add_left (Nat.le_mul_of_pos_left e (Nat.two_pow_pos n)) c)
      _ = c / 2 ^ n + e := Nat.add_mul_div_left c e (Nat.two_pow_pos n)
  exact Nat.div_le_div_right (by omega)

/-! ## Truncation undoes expansion -/

theorem truncTo_expand4 {v : Nat} (h : v < 16) : truncTo 4 (expand4 v) = v := by
  simp only [truncTo, expand4]
  omega

theorem truncTo_expand5 {v : Nat} (h : v < 32) : truncTo 5 (expand5 v) = v := by
  simp only [truncTo, expand5]
  omega

theorem truncTo_expand6 {v : Nat} (h : v < 64) : truncTo 6 (expand6 v) = v := by
  simp only [truncTo, expand6]
  omega

/-! ## Expansion after truncation: one unit of the truncated value at most -/

theorem expand4_truncTo_near {c : Nat} (h : c < 256) :
    expand4 (truncTo 4 c) ≤ c + 16 ∧ c ≤ expand4 (truncTo 4 c) + 16 := by
  simp only [truncTo, expand4]
  omega

theorem expand5_truncTo_near {c : Nat} (h : c < 256) :
    expand5 (truncTo 5 c) ≤ c + 8 ∧ c ≤ expand5 (truncTo 5 c) + 8 := by
  simp only [truncTo, expand5]
  omega

theorem expand6_truncTo_near {c : Nat} (h : c < 256) :
    expand6 (truncTo 6 c) ≤ c + 4 ∧ c ≤ expand6 (truncTo 6 c) + 4 := by
  simp only [truncTo, expand6]
  omega

/-- Settles O32: stability is that truncation undoes the expansion of any value of the width. -/
theorem truncationProperties : Obligations.TruncationProperties := by
  intro c d hcd hd
  have hc : c < 256 := by omega
  exact ⟨⟨truncTo_expand4 (truncTo_lt (by decide) hc), truncTo_expand5 (truncTo_lt (by decide) hc),
      truncTo_expand6 (truncTo_lt (by decide) hc)⟩,
    ⟨truncTo_mono 4 hcd, truncTo_mono 5 hcd, truncTo_mono 6 hcd⟩,
    ⟨truncTo_eq_shift_or_succ (by decide) hc, truncTo_eq_shift_or_succ (by decide) hc,
      truncTo_eq_shift_or_succ (by decide) hc⟩,
    expand4_truncTo_near hc, expand5_truncTo_near hc, expand6_truncTo_near hc⟩

end Sys2Proof.Machine
end

section
/-! SUPPORT. The commands of the colour modes: TOARGB, FROMARGB, TRANSP and BPP (spec/42_colormode.md R200 to R203). -/

namespace Sys2Proof.Machine

/-! ## TOARGB -/

/-- TOARGB writes the colour that its raw value decodes to, and that alone (R200). -/
theorem exec_toargb_of_decodesTo {s : State} {rs1 : Reg} {cm : ColorMode} {c : Color} (rd : Reg)
    (h : DecodesTo s cm (s.reg rs1).toNat c) : exec (.toargb rd rs1 cm) s = .next (s.setReg rd c).count :=
  next_of_ok (exec_toargb s rd rs1 cm) rfl (Exec.bind_eq_ok.mpr ⟨c, (toArgb_eq_ok_iff s cm _ c).mpr h, rfl⟩)

theorem decodesTo_completes {s : State} {cm : ColorMode} {raw : Nat} (h : EntryReadable s cm raw) :
    ∃ c, DecodesTo s cm raw c := by
  obtain ⟨c, hc⟩ := toArgb_completes h
  exact ⟨c, (toArgb_eq_ok_iff s cm raw c).mp hc⟩

/-- Settles O27. -/
theorem toargbCommand : Obligations.ToargbCommand := by
  intro s rd rs1 cm hentry
  obtain ⟨c, hdec⟩ := decodesTo_completes hentry
  refine ⟨_, exec_toargb_of_decodesTo rd hdec, ?_, changesOnlyReg_setReg s rd c⟩
  rwa [reg_count, reg_setReg_same]

/-! ## FROMARGB -/

theorem argbToRgb565_lt (c : Color) : argbToRgb565 c < 2 ^ 16 := by
  have hr := truncTo_lt (n := 5) (by decide) (redOf_lt c)
  have hg := truncTo_lt (n := 6) (by decide) (greenOf_lt c)
  have hb := truncTo_lt (n := 5) (by decide) (blueOf_lt c)
  rw [argbToRgb565]
  omega

/-- The reserved value, an inverted bit 5 and a plain 5/6/5 value all have 16 bits (R183). -/
theorem argbToRgb565t_lt {t : Nat} (ht : t < 2 ^ 16) (c : Color) : argbToRgb565t t c < 2 ^ 16 := by
  have hc := argbToRgb565_lt c
  unfold argbToRgb565t
  split_ifs
  · exact ht
  · exact Nat.xor_lt_two_pow hc (by decide)
  · exact hc

theorem luma8_lt (c : Color) : luma8 c < 2 ^ 8 := by
  have hr := redOf_lt c
  have hg := greenOf_lt c
  have hb := blueOf_lt c
  rw [luma8, lumaSum]
  omega

theorem luma4_lt (c : Color) : luma4 c < 2 ^ 4 := by
  have hr := redOf_lt c
  have hg := greenOf_lt c
  have hb := blueOf_lt c
  rw [luma4, lumaSum]
  omega

/-- An encoded colour has the bits of its mode; the index of an Indexed mode is whole (R165, R198). -/
theorem fromArgb_lt {s t : State} {cm : ColorMode} {c : Color} {n : Nat} (h : fromArgb s cm c = .ok (n, t)) :
    n < if cm.indexed then 256 else 2 ^ bitsPerPixel cm := by
  have ha := alphaOf_lt c
  have hrgb : rgbOf c < 2 ^ 24 := rgbOf_eq c ▸ Nat.mod_lt _ (by decide)
  have htrunc4 (v : Nat) (hv : v < 256) : truncTo 4 v < 2 ^ 4 := truncTo_lt (by decide) hv
  have htrunc6 (v : Nat) (hv : v < 256) : truncTo 6 v < 2 ^ 6 := truncTo_lt (by decide) hv
  cases cm
  case idx1 | idx2 | idx4 | idx8 => exact indexOfColor_lt h
  all_goals
    obtain ⟨rfl, -⟩ := Prod.mk.inj (Except.ok.inj h)
    simp only [ColorMode.indexed, Bool.false_eq_true, if_false, bitsPerPixel]
  case argb8888 => exact c.isLt
  case rgba8888 => omega
  case rgb888 => exact hrgb
  case argb6666 =>
    have := htrunc6 _ ha
    have := htrunc6 _ (redOf_lt c)
    have := htrunc6 _ (greenOf_lt c)
    have := htrunc6 _ (blueOf_lt c)
    omega
  case argb4444 =>
    have := htrunc4 _ ha
    have := htrunc4 _ (redOf_lt c)
    have := htrunc4 _ (greenOf_lt c)
    have := htrunc4 _ (blueOf_lt c)
    omega
  case rgb565 => exact argbToRgb565_lt c
  case rgb565t => exact argbToRgb565t_lt s.transp565.isLt c
  case gray8 => exact luma8_lt c
  case grayalpha8 =>
    have := luma8_lt c
    omega
  case gray4 => exact luma4_lt c
  case alpha8 => exact ha
  case alpha4 => omega
  case mono => split_ifs <;> decide

theorem lt_word_of_fromArgb {s t : State} {cm : ColorMode} {c : Color} {n : Nat} (h : fromArgb s cm c = .ok (n, t)) :
    n < 2 ^ 32 := by
  have hn := fromArgb_lt h
  have hwidth := Nat.pow_le_pow_right (show 0 < 2 by decide) (bitsPerPixel_le cm)
  split_ifs at hn <;> omega

/-- FROMARGB writes the raw value that its colour encodes to, on the state that the lookup leaves (R201). -/
theorem exec_fromargb_of_fromArgb {s u : State} {rs1 : Reg} {cm : ColorMode} {n : Nat} (rd : Reg)
    (h : fromArgb s cm (s.reg rs1) = .ok (n, u)) : exec (.fromargb rd rs1 cm) s = .next (u.setRegNat rd n).count :=
  next_of_ok (exec_fromargb s rd rs1 cm) rfl (Exec.bind_eq_ok.mpr ⟨(n, u), h, rfl⟩)

theorem toNat_reg_setRegNat (s : State) (r : Reg) {n : Nat} (h : n < 2 ^ 32) :
    ((s.setRegNat r n).count.reg r).toNat = n := by
  rw [reg_count, setRegNat_eq, reg_setReg_same, BitVec.toNat_ofNat, Nat.mod_eq_of_lt h]

/-- The palette after an encoding and one register write is the palette that the encoding leaves (R198, R293). -/
theorem paletteAfter_setRegNat {ins : Bool} {s u : State} {cm : ColorMode} {c : Color} {n : Nat}
    (henc : EncodesTo s cm c n ins) (hleaves : LookupLeaves ins c s u) (rd : Reg) (v : Nat) :
    PaletteAfter ins c s (u.setRegNat rd v).count := by
  refine paletteAfter_of_leaves hleaves (fun hins => ?_) rfl rfl fun m hm => ?_
  · subst hins
    exact none_of_inserts (looksUpTo_of_encodesTo_true henc)
  · have hne : m ≠ .cmdcnt := by
      rintro rfl
      simp [paletteCsrs] at hm
    rw [csr_count _ m hne, setRegNat_eq, csr_setReg]

/-- Settles O28. -/
theorem fromargbCommand : Obligations.FromargbCommand := by
  intro s rd rs1 cm hlookup
  obtain ⟨n, u, hfrom⟩ := fromArgb_completes (s.reg rs1) hlookup
  obtain ⟨ins, henc, hleaves⟩ := (fromArgb_eq_ok_iff s cm _ n u).mp hfrom
  have hreg := toNat_reg_setRegNat u rd (lt_word_of_fromArgb hfrom)
  refine ⟨_, ins, exec_fromargb_of_fromArgb rd hfrom, ?_, paletteAfter_setRegNat henc hleaves rd n, ?_,
    changesRegAndPalette_lookup hleaves rd _⟩
  · rwa [hreg]
  · rw [hreg]
    exact fromArgb_lt hfrom

/-! ## TRANSP and BPP -/

theorem TransparencyClass.code_le_two (k : TransparencyClass) : k.code ≤ 2 := by cases k <;> decide

/-- A command whose body writes a number of 32 bits to one register. -/
theorem exec_completes_of_setRegNat {i : Instr} {s : State} {rd : Reg} {n : Nat}
    (he : exec i s = runCommand i s (.ok (s.setRegNat rd n))) (hw : i.wellFormed = true) (hn : n < 2 ^ 32) :
    ∃ t, exec i s = .next t ∧ ChangesOnlyReg rd s t ∧ (t.reg rd).toNat = n := by
  obtain ⟨t, hnext, hreg, hframe⟩ := exec_completes_of_setReg he hw
  refine ⟨t, hnext, hframe, ?_⟩
  rw [hreg, BitVec.toNat_ofNat, Nat.mod_eq_of_lt hn]

/-- TRANSP writes the code of the mode's class (R202). -/
theorem exec_transp_completes (s : State) (rd : Reg) (cm : ColorMode) :
    ∃ t, exec (.transp rd cm) s = .next t ∧ ChangesOnlyReg rd s t ∧
      (t.reg rd).toNat = (transparencyOf s cm).code :=
  exec_completes_of_setRegNat (exec_transp s rd cm) rfl
    (Nat.lt_of_le_of_lt (TransparencyClass.code_le_two _) (by decide))

/-- PAL_TM shows the code of the palette's class (R39). -/
theorem toNat_csr_palTm (s : State) : (s.csr .palTm).toNat = s.palTm.code := by
  have := s.palTm.code_le_two
  rw [State.csr, BitVec.toNat_ofNat]
  omega

/-- The class of Monochrome is the larger of those of its two colours (R196). -/
theorem code_transparencyOf_mono (s : State) :
    (transparencyOf s .mono).code = max (colorClass (s.csr .monoFg)) (colorClass (s.csr .monoBg)) := by
  rw [transparencyOf, TransparencyClass.code_join, code_classOf, code_classOf]
  rfl

/-- Settles O30. -/
theorem modeQueryCommands : Obligations.ModeQueryCommands := by
  intro s rd cm
  constructor
  · obtain ⟨t, hnext, hframe, hreg⟩ := exec_transp_completes s rd cm
    refine ⟨t, hnext, hframe, hreg.trans ?_⟩
    cases cm
    case mono => exact code_transparencyOf_mono s
    case idx1 | idx2 | idx4 | idx8 => exact (toNat_csr_palTm s).symm
    all_goals rfl
  · have hwidth : bitsPerPixel cm < 2 ^ 32 := Nat.lt_of_le_of_lt (bitsPerPixel_le cm) (by decide)
    obtain ⟨t, hnext, hframe, hreg⟩ := exec_completes_of_setRegNat (exec_bpp s rd cm) rfl hwidth
    refine ⟨t, hnext, hframe, ?_⟩
    rw [hreg]
    cases cm <;> rfl

end Sys2Proof.Machine
end

section
/-! SUPPORT. What the colour modes keep: the class that TRANSP reports bounds every decoded colour, and encoding undoes
decoding (spec/42_colormode.md R161, R199). -/

namespace Sys2Proof.Machine

/-! ## Colours by their channels -/

theorem HasChannels.channels {c : Color} {a r g b : Nat} (h : HasChannels c a r g b) (hr : r < 256) (hg : g < 256)
    (hb : b < 256) : alphaOf c = a ∧ redOf c = r ∧ greenOf c = g ∧ blueOf c = b := by
  unfold HasChannels at h
  rw [alphaOf_eq, redOf_eq, greenOf_eq, blueOf_eq]
  omega

/-- Nothing stands above the alpha channel, so the other three need no bound. -/
theorem HasChannels.alpha_opaque {c : Color} {r g b : Nat} (h : HasChannels c 255 r g b) : alphaOf c = 255 := by
  have hc := c.isLt
  unfold HasChannels at h
  rw [alphaOf_eq]
  omega

/-! ## Classes -/

theorem colorClass_le_two (c : Color) : colorClass c ≤ 2 := by
  rw [← code_classOf]
  exact TransparencyClass.code_le_two _

theorem colorClass_of_opaque {c : Color} (h : alphaOf c = 255) : colorClass c = 0 := if_pos h

/-- An entry in use of a Dynamic palette is one of PALRAM (R292). -/
theorem EntryIs.eq_palRam {s : State} {i : Nat} {c : Color} (h : EntryIs s i c) (hk : s.palKind = .dynamic) :
    ∃ hi : i < 256, s.palRam[i] = c := by
  obtain ⟨-, hi, rfl⟩ | ⟨hk', -⟩ := h
  · exact ⟨hi, rfl⟩
  · exact absurd hk hk'

/-- The class of an entry in use of a Dynamic palette is at most PAL_TM (R43). -/
theorem PaletteOk.colorClass_entry_le {s : State} {i : Nat} {c : Color} (hs : PaletteOk s) (hk : s.palKind = .dynamic)
    (hi : i < s.palSize.val) (h : EntryIs s i c) : colorClass c ≤ s.palTm.code := by
  obtain ⟨hi', rfl⟩ := h.eq_palRam hk
  exact hs.dynamic_class_bound hk i hi' hi

/-- A colour that a raw value decodes to is of no larger class than that of the mode (R161, R166, R196). -/
theorem colorClass_le_of_decodesTo {s : State} {cm : ColorMode} {raw : Nat} {c : Color} (hs : PaletteOk s)
    (hin : cm.indexed = true → s.palKind = .dynamic ∧ raw % 2 ^ bitsPerPixel cm < s.palSize.val)
    (h : DecodesTo s cm raw c) : colorClass c ≤ (transparencyOf s cm).code := by
  cases cm
  case argb8888 | rgba8888 | argb6666 | argb4444 | grayalpha8 | alpha8 | alpha4 => exact colorClass_le_two c
  case rgb888 | rgb565 | gray8 | gray4 => exact Nat.le_of_eq (colorClass_of_opaque (HasChannels.alpha_opaque h))
  case rgb565t =>
    by_cases ht : (s.csr .transp565).toNat = raw % 2 ^ bitsPerPixel .rgb565t
    · obtain rfl : c = 0 := (if_pos ht).mp h
      exact Nat.le_refl 1
    · have hopaque := colorClass_of_opaque (HasChannels.alpha_opaque ((if_neg ht).mp h))
      omega
  case mono =>
    rw [code_transparencyOf_mono]
    obtain rfl | rfl : c = s.csr .monoFg ∨ c = s.csr .monoBg := (ite_eq_or_eq _ _ _).imp h.trans h.trans
    · exact Nat.le_max_left _ _
    · exact Nat.le_max_right _ _
  case idx1 | idx2 | idx4 | idx8 =>
    obtain ⟨hk, hi⟩ := hin rfl
    exact hs.colorClass_entry_le hk hi h

/-- Settles O31. -/
theorem transparencyIsSafe : Obligations.TransparencyIsSafe := by
  intro s t rd cm raw c hs hin hexec hdec
  obtain ⟨t', hnext, -, hreg⟩ := exec_transp_completes s rd cm
  obtain rfl : t' = t := Host.Outcome.next.inj (hnext.symm.trans hexec)
  rw [hreg]
  exact colorClass_le_of_decodesTo hs hin hdec

/-! ## Encoding what was decoded -/

theorem truncate_sixToEight {v : Nat} (h : v < 64) : (sixToEight v - sixToEight v / 64) / 4 = v := truncTo_expand6 h

theorem truncate_fiveToEight {v : Nat} (h : v < 32) : (fiveToEight v - fiveToEight v / 32) / 8 = v := truncTo_expand5 h

theorem truncate_seventeenFold {v : Nat} (h : v < 16) : (v * 17 - v * 17 / 16) / 16 = v := by omega

theorem fiveToEight_lt {v : Nat} (h : v < 32) : fiveToEight v < 256 := by
  unfold fiveToEight
  omega

theorem sixToEight_lt {v : Nat} (h : v < 64) : sixToEight v < 256 := by
  unfold sixToEight
  omega

/-- The weights of R169 sum to eight, so a gray has its channel as luma. -/
theorem luma_of_gray (v : Nat) : (3 * v + 4 * v + v) / 8 = v := by omega

/-- A 5/6/5 value is back after expansion and truncation (R180, R181). -/
theorem rgb565Of_of_hasChannels {v : Nat} {c : Color} (hv : v < 2 ^ 16)
    (h : HasChannels c 255 (fiveToEight (v / 2 ^ 11)) (sixToEight (v / 2 ^ 5 % 2 ^ 6)) (fiveToEight (v % 2 ^ 5))) :
    rgb565Of c = v := by
  have hr : v / 2 ^ 11 < 32 := by omega
  have hg : v / 2 ^ 5 % 2 ^ 6 < 64 := by omega
  have hb : v % 2 ^ 5 < 32 := by omega
  obtain ⟨-, er, eg, eb⟩ := h.channels (fiveToEight_lt hr) (sixToEight_lt hg) (fiveToEight_lt hb)
  rw [rgb565Of, er, eg, eb, truncate_fiveToEight hr, truncate_sixToEight hg, truncate_fiveToEight hb]
  omega

/-- The index of an entry in use of a Dynamic palette is found again: no two of them are equal (R43, R293). -/
theorem PaletteOk.looksUpTo_entry {s : State} {i : Nat} {c : Color} (hs : PaletteOk s) (hk : s.palKind = .dynamic)
    (hi : i < s.palSize.val) (h : EntryIs s i c) : LooksUpTo s c i false := by
  obtain ⟨hi', hc⟩ := h.eq_palRam hk
  have hfound : ridxLookup s.ridx c = some ⟨i, hi'⟩ := (hs.dynamic_index hk c ⟨i, hi'⟩).mpr ⟨hi, hc⟩
  exact .inr (.inl ⟨by simp [hk], ⟨_, hfound, rfl⟩, rfl⟩)

/-- A decoded colour encodes to the raw value it was decoded from, and inserts nothing (R199). -/
theorem encodesTo_of_decodesTo {s : State} {cm : ColorMode} {raw : Nat} {c : Color} (hs : PaletteOk s)
    (hmono : cm = .mono → s.monoFg ≠ s.monoBg ∧ alphaOf s.monoFg ≠ 0)
    (hin : cm.indexed = true → s.palKind = .dynamic ∧ raw % 2 ^ bitsPerPixel cm < s.palSize.val)
    (h : DecodesTo s cm raw c) : EncodesTo s cm c (raw % 2 ^ bitsPerPixel cm) false := by
  have hv : raw % 2 ^ bitsPerPixel cm < 2 ^ bitsPerPixel cm := Nat.mod_lt _ (Nat.two_pow_pos _)
  unfold DecodesTo at h
  unfold EncodesTo
  dsimp only at h ⊢
  generalize raw % 2 ^ bitsPerPixel cm = v at hin hv h ⊢
  cases cm <;> simp only [bitsPerPixel, and_true] at hv h ⊢
  case argb8888 => exact h.symm
  case rgba8888 =>
    obtain ⟨ha, hr, hg, hb⟩ := h.channels (by omega) (by omega) (by omega)
    omega
  case rgb888 =>
    obtain ⟨-, hr, hg, hb⟩ := h.channels (by omega) (by omega) (by omega)
    omega
  case argb6666 =>
    have h1 : v / 2 ^ 18 < 64 := by omega
    have h2 : v / 2 ^ 12 % 2 ^ 6 < 64 := by omega
    have h3 : v / 2 ^ 6 % 2 ^ 6 < 64 := by omega
    have h4 : v % 2 ^ 6 < 64 := by omega
    obtain ⟨ha, hr, hg, hb⟩ := h.channels (sixToEight_lt h2) (sixToEight_lt h3) (sixToEight_lt h4)
    rw [ha, hr, hg, hb, truncate_sixToEight h1, truncate_sixToEight h2, truncate_sixToEight h3,
      truncate_sixToEight h4]
    omega
  case argb4444 =>
    obtain ⟨ha, hr, hg, hb⟩ := h.channels (by omega) (by omega) (by omega)
    rw [ha, hr, hg, hb, truncate_seventeenFold (by omega), truncate_seventeenFold (by omega),
      truncate_seventeenFold (by omega), truncate_seventeenFold (by omega)]
    omega
  case rgb565 => exact (rgb565Of_of_hasChannels hv h).symm
  case rgb565t =>
    by_cases ht : (s.csr .transp565).toNat = v
    · obtain rfl : c = 0 := (if_pos ht).mp h
      exact ht.symm
    · have hc := (if_neg ht).mp h
      rw [hc.alpha_opaque, rgb565Of_of_hasChannels hv hc, if_neg (by decide), if_neg fun e => ht e.symm]
  case gray8 =>
    obtain ⟨-, hr, hg, hb⟩ := h.channels hv hv hv
    rw [hr, hg, hb, luma_of_gray]
  case grayalpha8 =>
    obtain ⟨ha, hr, hg, hb⟩ := h.channels (by omega) (by omega) (by omega)
    rw [ha, hr, hg, hb, luma_of_gray]
    omega
  case gray4 =>
    obtain ⟨-, hr, hg, hb⟩ := h.channels (by omega) (by omega) (by omega)
    omega
  case alpha8 | alpha4 =>
    rw [alphaOf_eq]
    omega
  case mono =>
    obtain ⟨hne, halpha⟩ := hmono rfl
    split_ifs at h with h1
    · rw [h, h1]
      exact (if_neg (not_or.mpr ⟨hne, halpha⟩)).symm
    · rw [if_pos (.inl h)]
      omega
  case idx1 | idx2 | idx4 | idx8 =>
    obtain ⟨hk, hi⟩ := hin rfl
    exact hs.looksUpTo_entry hk hi h

/-- What a colour encodes to does not depend on the general registers or on CMDCNT. -/
theorem encodesTo_setReg_count (s : State) (r : Reg) (v : Word) (cm : ColorMode) (c : Color) (n : Nat) (ins : Bool) :
    EncodesTo (s.setReg r v).count cm c n ins ↔ EncodesTo s cm c n ins := Iff.rfl

/-- Settles O33: the state that TOARGB leaves encodes as the one before it, and the entry that a Dynamic palette needs
is read from PALRAM, never from memory. -/
theorem roundTrip : Obligations.RoundTrip := by
  intro s rd x rs1 cm hs hmono hin
  have hentry : EntryReadable s cm (s.reg rs1).toNat := fun hidx hk => absurd (hin hidx).1 hk
  obtain ⟨c, hdec⟩ := decodesTo_completes hentry
  have hfrom : fromArgb (s.setReg x c).count cm ((s.setReg x c).count.reg x) =
      .ok ((s.reg rs1).toNat % 2 ^ bitsPerPixel cm, (s.setReg x c).count) := by
    rw [reg_count, reg_setReg_same, fromArgb_eq_ok_iff]
    exact ⟨false, (encodesTo_setReg_count s x c cm c _ _).mpr (encodesTo_of_decodesTo hs hmono hin hdec),
      .inl ⟨rfl, rfl⟩⟩
  exact ⟨_, _, exec_toargb_of_decodesTo x hdec, exec_fromargb_of_fromArgb rd hfrom,
    toNat_reg_setRegNat _ rd (lt_word_of_fromArgb hfrom)⟩

end Sys2Proof.Machine
end

section
/-! SUPPORT. Palette entries that cannot be read (spec/60_exceptions.md R323, R327). -/

namespace Sys2Proof.Machine

/-! ## Decoding and blending a raw value -/

/-- With a borrowed palette the entry is read before anything else is done with the raw value (R197, R292). -/
theorem toArgb_raises {s : State} {cm : ColorMode} {raw b : Nat} (hcm : cm.indexed = true) (hk : s.palKind ≠ .dynamic)
    (h : LowestBad s .read (s.palBase.toNat + 4 * (raw % 2 ^ bitsPerPixel cm)) 4 b) :
    toArgb s cm raw = .error (.accessFault b) := (toArgb_eq_error_iff s cm raw _).mpr ⟨hcm, hk, b, rfl, h⟩

/-- A raw blend raises what its decoding raises (R250). -/
theorem rawBlend_raises {s : State} {cm : ColorMode} {raw : Nat} {e : Raise} (bm : BlendMode) (src : Color)
    (h : toArgb s cm raw = .error e) : rawBlend s bm cm raw src = .error e := Exec.bind_eq_error.mpr (.inl h)

/-- A raw pixel of one byte is that byte, in either byte order (R61(b)). -/
theorem load_one_byte (m : List Host.Cell) (a : Nat) (bo : ByteOrder) :
    Memory.load m a 1 bo = (Memory.read m a).toNat := by
  have hbyte := pixelAt_load m a 1 bo 0 (by decide)
  have hlt := Memory.load_lt m a 1 bo
  cases bo <;> simp only [Nat.reducePow, Nat.reduceSub, Nat.div_one, Nat.add_zero] at hbyte hlt <;> omega

/-! ## Slots -/

/-- The first slot that cannot be decoded decides the fault (R281, R327). -/
theorem loadSlots_raises {s : State} {cm : ColorMode} {po : PixelOrder} {byte i j n : Nat} {e : Raise} (hj : j < n)
    (hbefore : ∀ l, l < j → ∃ c, toArgb s cm (loadRaw (bitsPerPixel cm) po byte (i + l)) = .ok c)
    (herr : toArgb s cm (loadRaw (bitsPerPixel cm) po byte (i + j)) = .error e) :
    loadSlots s cm po byte i n = .error e := by
  induction n generalizing i j with
  | zero => omega
  | succ n ih =>
    cases j with
    | zero => exact Exec.bind_eq_error.mpr (.inl herr)
    | succ j =>
      obtain ⟨c, hc⟩ := hbefore 0 (by omega)
      have hrest : loadSlots s cm po byte (i + 1) n = .error e := by
        refine ih (j := j) (by omega) (fun l hl => ?_) ?_
        · rw [Nat.add_right_comm]
          exact hbefore (l + 1) (by omega)
        · rwa [Nat.add_right_comm]
      exact Exec.bind_eq_error.mpr (.inr ⟨c, hc, Exec.bind_eq_error.mpr (.inl hrest)⟩)

/-- A pixel has no bits above its width (R272). -/
theorem pixelOf_mod (k : Nat) (po : PixelOrder) (byte i : Nat) : pixelOf k po byte i % 2 ^ k = pixelOf k po byte i :=
  Nat.mod_mod _ _

/-- The lowest pixel whose entry cannot be read decides the fault of a byte (R281, R327). -/
theorem loadBulk_raises {s : State} {cm : ColorMode} {po : PixelOrder} {byte i b : Nat} (hsub : cm.fullByte = false)
    (hcm : cm.indexed = true) (hk : s.palKind ≠ .dynamic) (hi : i < 8 / bitsPerPixel cm)
    (hbefore : ∀ j, j < i → EntryReadable s cm (pixelOf (bitsPerPixel cm) po byte j))
    (h : LowestBad s .read (s.palBase.toNat + 4 * pixelOf (bitsPerPixel cm) po byte i) 4 b) :
    loadBulk s cm po byte = .error (.accessFault b) := by
  have hraw := loadRaw_eq_pixelOf (bitsPerPixel_dvd_eight hsub) po byte
  refine loadSlots_raises hi (fun j hj => ?_) ?_ <;> rw [Nat.zero_add, hraw]
  · exact toArgb_completes (hbefore j hj)
  · exact toArgb_raises hcm hk (by rwa [pixelOf_mod])

/-- The only full-byte mode among the Indexed ones is Indexed8 (R93). -/
theorem fullByte_eq_false_of_indexed {cm : ColorMode} (hcm : cm.indexed = true) (hne : cm ≠ .idx8) :
    cm.fullByte = false := by
  revert hcm hne
  cases cm <;> decide

/-- Settles O55: the checks of the destination pass, and the decoding of the raw value raises. -/
theorem accessFaultsOfEntries : Obligations.AccessFaultsOfEntries := by
  intro s rd rs1 rs2 cm bm bo po b hcm hk
  refine ⟨fun h => ⟨?toargb, ?blendraw⟩, ?blendrawm, fun hne hout i hi hbefore h => ?sbbulk⟩
  case toargb =>
    exact raises_accessFault (exec_toargb s rd rs1 cm) rfl (Exec.bind_eq_error.mpr (.inl (toArgb_raises hcm hk h)))
  case blendraw =>
    have hblend := rawBlend_raises bm (s.reg rs2) (toArgb_raises hcm hk h)
    exact raises_accessFault (exec_blendraw s rd rs1 rs2 cm bm) rfl (Exec.bind_eq_error.mpr (.inl hblend))
  case blendrawm =>
    rintro rfl hw h
    have hbyte : (Memory.read s.mem (s.reg rs1).toNat).toNat % 2 ^ bitsPerPixel .idx8 =
        (Memory.read s.mem (s.reg rs1).toNat).toNat := Nat.mod_eq_of_lt (BitVec.isLt _)
    have hdecode : toArgb s .idx8 (Memory.load s.mem (s.num rs1) (bytesPerPixel .idx8) bo) =
        .error (.accessFault b) := by
      refine toArgb_raises hcm hk ?_
      rw [show bytesPerPixel .idx8 = 1 from rfl, load_one_byte, State.num, hbyte]
      exact h
    exact raises_accessFault (exec_blendrawm s rs1 rs2 .idx8 bm bo) rfl
      ((bind_of_rangeOk hw _).trans (Exec.bind_eq_error.mpr (.inl (rawBlend_raises bm (s.reg rs2) hdecode))))
  case sbbulk =>
    have hsub := fullByte_eq_false_of_indexed hcm hne
    rw [← byte_eq_mod] at hbefore h
    exact raises_accessFault (exec_sbbulk s rs1 rs2 cm po) (by simp [Instr.wellFormed, hsub])
      ((bind_of_rangeOk hout _).trans
        (Exec.bind_eq_error.mpr (.inl (loadBulk_raises hsub hcm hk hi hbefore h))))

end Sys2Proof.Machine
end

section
/-! SUPPORT. The blending operators (spec/43_blending.md R220 to R244): the division by 255, and the channels of what
each operator gives. -/

namespace Sys2Proof.Machine

/-! ## Division by 255 (R220, R221) -/

theorem div255r_nearest {x : Nat} (h : x ≤ 65025) : NearestOver255 x (div255r x) := by
  simp only [NearestOver255, div255r, div255]
  omega

theorem div255_eq {x : Nat} (h : x ≤ 65025) :
    div255 x = if x ≠ 0 ∧ x % 255 = 0 then x / 255 - 1 else x / 255 := by
  unfold div255
  split_ifs <;> omega

/-- A multiple of 255 has no remainder to round. -/
theorem div255r_mul {k : Nat} (h : k ≤ 255) : div255r (255 * k) = k := by
  obtain ⟨hlower, hupper⟩ := div255r_nearest (show 255 * k ≤ 65025 by omega)
  omega

theorem div255r_le {x : Nat} (h : x ≤ 65025) : div255r x ≤ 255 := by
  obtain ⟨-, hupper⟩ := div255r_nearest h
  omega

/-- Settles O34. -/
theorem division : Obligations.Division :=
  ⟨fun _ hx => ⟨div255r_nearest hx, div255_eq hx⟩, fun _ hk => div255r_mul hk⟩

/-! ## Numbers that are channels -/

theorem alphaOf_le (c : Color) : alphaOf c ≤ 255 := Nat.le_of_lt_succ (alphaOf_lt c)

/-- Weights that sum to 255 take two channels to at most 255 squared. -/
theorem weighted255_le {w x y : Nat} (hw : w ≤ 255) (hx : x ≤ 255) (hy : y ≤ 255) :
    w * x + (255 - w) * y ≤ 65025 := by
  have hxw := Nat.mul_le_mul_left w hx
  have hyw := Nat.mul_le_mul_left (255 - w) hy
  omega

/-- kXor's two weights are the mix of one alpha and of its complement, weighted by the other alpha (R235). -/
theorem xorWeights_le {sa da : Nat} (hs : sa ≤ 255) (hd : da ≤ 255) :
    sa * (255 - da) + da * (255 - sa) ≤ 65025 := by
  rw [Nat.mul_comm da]
  exact weighted255_le hs (Nat.sub_le 255 da) hd

/-- `255 - (255 - sa)(255 - da) / 255` is at most 255, and the rounding of the product does not change that (R226). -/
theorem overAlpha_lt {sa da : Nat} (hs : sa ≤ 255) (hd : da ≤ 255) : sa + da - div255r (sa * da) < 256 := by
  obtain ⟨hlower, -⟩ := div255r_nearest (Nat.mul_le_mul hs hd)
  have hcomplements := Nat.mul_le_mul_left (255 - sa) hd
  rw [Nat.sub_mul] at hcomplements
  omega

theorem mixBy_eq (wd ws dc sc : Nat) : mixBy wd ws dc sc = (ws * sc + wd * dc + (ws + wd) / 2) / (ws + wd) := by
  rw [mixBy, Nat.add_comm wd ws]

/-- A weighted mean of two channels rounds to a channel (R226, R235). -/
theorem mixBy_lt {wd ws dc sc : Nat} (hw : 0 < ws + wd) (hd : dc < 256) (hs : sc < 256) : mixBy wd ws dc sc < 256 := by
  have hws := Nat.mul_le_mul_left ws (Nat.le_of_lt_succ hs)
  have hwd := Nat.mul_le_mul_left wd (Nat.le_of_lt_succ hd)
  rw [mixBy_eq]
  exact Nat.div_lt_of_lt_mul (by omega)

/-- The mix by 255 with all the weight on the source is the source. -/
theorem mix255_opaque (dc : Nat) {sc : Nat} (hs : sc < 256) : mix255 255 dc sc = sc := by
  rw [mix255, Nat.sub_self, Nat.zero_mul, Nat.add_zero, div255r_mul (Nat.le_of_lt_succ hs)]

/-! ## The channels of a result (R223) -/

theorem alphaOf_perChannel (a : Nat) (f : Nat → Nat → Nat) (d s : Color) : alphaOf (perChannel a f d s) = a % 256 :=
  alphaOf_argb _ _ _ _

theorem channel_lt {f : Color → Nat} (hf : f ∈ [redOf, greenOf, blueOf]) (c : Color) : f c < 256 := by
  simp only [List.mem_cons, List.not_mem_nil, or_false] at hf
  obtain rfl | rfl | rfl := hf
  · exact redOf_lt c
  · exact greenOf_lt c
  · exact blueOf_lt c

/-- "For each channel" (R223): red, green and blue of the result come from the same formula. -/
theorem channel_perChannel {f : Color → Nat} (hf : f ∈ [redOf, greenOf, blueOf]) (a : Nat) (mix : Nat → Nat → Nat)
    (d s : Color) : f (perChannel a mix d s) = mix (f d) (f s) % 256 := by
  simp only [List.mem_cons, List.not_mem_nil, or_false] at hf
  obtain rfl | rfl | rfl := hf
  · exact redOf_argb _ _ _ _
  · exact greenOf_argb _ _ _ _
  · exact blueOf_argb _ _ _ _

/-- A source with its alpha replaced keeps its colour channels (R227, R233). -/
theorem channel_argb_of_color {f : Color → Nat} (hf : f ∈ [redOf, greenOf, blueOf]) (a : Nat) (c : Color) :
    f (argb a (redOf c) (greenOf c) (blueOf c)) = f c :=
  (channel_perChannel hf a (fun _ sc => sc) c c).trans (Nat.mod_eq_of_lt (channel_lt hf c))

/-- A mix by 255 is rounded to nearest (R228, R241). -/
theorem channel_mix255 {f : Color → Nat} (hf : f ∈ [redOf, greenOf, blueOf]) (a : Nat) (d s : Color) :
    NearestOver255 (alphaOf s * f s + (255 - alphaOf s) * f d) (f (perChannel a (mix255 (alphaOf s)) d s)) := by
  have hsum := weighted255_le (alphaOf_le s) (Nat.le_of_lt_succ (channel_lt hf s)) (Nat.le_of_lt_succ (channel_lt hf d))
  rw [channel_perChannel hf, mix255, Nat.mod_eq_of_lt (Nat.lt_succ_of_le (div255r_le hsum))]
  exact div255r_nearest hsum

/-- A mix by two weights is rounded to nearest by their sum (R226, R235). -/
theorem channel_mixBy {f : Color → Nat} (hf : f ∈ [redOf, greenOf, blueOf]) {wd ws : Nat} (hw : 0 < ws + wd) (a : Nat)
    (d s : Color) :
    f (perChannel a (mixBy wd ws) d s) = (ws * f s + wd * f d + (ws + wd) / 2) / (ws + wd) := by
  rw [channel_perChannel hf, Nat.mod_eq_of_lt (mixBy_lt hw (channel_lt hf d) (channel_lt hf s)), mixBy_eq]

/-! ## The tests of kSourceOver and kXor, in their order (R226, R235) -/

theorem sourceOver_of_opaque_source (d : Color) {s : Color} (hs : alphaOf s = 255) : sourceOver d s = s := if_pos hs

theorem sourceOver_of_opaque_destination {d s : Color} (hs : alphaOf s ≠ 255) (hd : alphaOf d = 255) :
    sourceOver d s = sourceOverOpaque d s := (if_neg hs).trans (if_pos hd)

theorem sourceOver_of_clear_source {d s : Color} (hs : alphaOf s = 0) (hd : alphaOf d ≠ 255) : sourceOver d s = d := by
  simp [sourceOver, hs, hd]

theorem sourceOver_of_clear_destination {d s : Color} (hs : alphaOf s ≠ 0) (hd : alphaOf d = 0) :
    sourceOver d s = s := by
  simp [sourceOver, hs, hd]

theorem sourceOver_mixed {d s : Color} (hs0 : alphaOf s ≠ 0) (hs : alphaOf s ≠ 255) (hd0 : alphaOf d ≠ 0)
    (hd : alphaOf d ≠ 255) :
    sourceOver d s = perChannel (alphaOf s + alphaOf d - div255r (alphaOf s * alphaOf d))
      (mixBy (alphaOf d * (255 - alphaOf s)) (255 * alphaOf s)) d s := by
  simp [sourceOver, hs0, hs, hd0, hd]

theorem xorBlend_of_zero {d s : Color}
    (h : alphaOf s * (255 - alphaOf d) + alphaOf d * (255 - alphaOf s) = 0) : xorBlend d s = transparent := if_pos h

theorem xorBlend_mixed {d s : Color} (h : alphaOf s * (255 - alphaOf d) + alphaOf d * (255 - alphaOf s) ≠ 0) :
    xorBlend d s = perChannel (div255r (alphaOf s * (255 - alphaOf d) + alphaOf d * (255 - alphaOf s)))
      (mixBy (alphaOf d * (255 - alphaOf s)) (alphaOf s * (255 - alphaOf d))) d s := if_neg h

/-! ## Alpha (R236) -/

/-- The formula of the general mix holds of the four special cases too. -/
theorem alphaOf_sourceOver (d s : Color) :
    alphaOf (sourceOver d s) = alphaOf s + alphaOf d - div255r (alphaOf s * alphaOf d) := by
  have hsle := alphaOf_le s
  have hdle := alphaOf_le d
  by_cases hs : alphaOf s = 255
  · rw [sourceOver_of_opaque_source d hs, hs, div255r_mul hdle]
    omega
  by_cases hd : alphaOf d = 255
  · rw [sourceOver_of_opaque_destination hs hd, sourceOverOpaque, alphaOf_perChannel, hd, Nat.mul_comm,
      div255r_mul hsle]
    omega
  by_cases hs0 : alphaOf s = 0
  · rw [sourceOver_of_clear_source hs0 hd, hs0, Nat.zero_mul, Nat.zero_add]
    rfl
  by_cases hd0 : alphaOf d = 0
  · rw [sourceOver_of_clear_destination hs0 hd0, hd0, Nat.mul_zero]
    rfl
  · rw [sourceOver_mixed hs0 hs hd0 hd, alphaOf_perChannel, Nat.mod_eq_of_lt (overAlpha_lt hsle hdle)]

theorem alphaOf_sourceIn (d s : Color) : alphaOf (sourceIn d s) = div255r (alphaOf s * alphaOf d) := by
  have hle := div255r_le (Nat.mul_le_mul (alphaOf_le s) (alphaOf_le d))
  rw [sourceIn, alphaOf_argb, Nat.mod_eq_of_lt (Nat.lt_succ_of_le hle)]

theorem alphaOf_sourceAtop (d s : Color) : alphaOf (sourceAtop d s) = alphaOf d := by
  rw [sourceAtop, alphaOf_perChannel, Nat.mod_eq_of_lt (alphaOf_lt d)]

theorem alphaOf_sourceOut (d s : Color) : alphaOf (sourceOut d s) = div255r (alphaOf s * (255 - alphaOf d)) := by
  have hle := div255r_le (Nat.mul_le_mul (alphaOf_le s) (Nat.sub_le 255 (alphaOf d)))
  rw [sourceOut, alphaOf_argb, Nat.mod_eq_of_lt (Nat.lt_succ_of_le hle)]

theorem alphaOf_xorBlend (d s : Color) :
    alphaOf (xorBlend d s) = div255r (alphaOf s * (255 - alphaOf d) + alphaOf d * (255 - alphaOf s)) := by
  by_cases hw : alphaOf s * (255 - alphaOf d) + alphaOf d * (255 - alphaOf s) = 0
  · rw [xorBlend_of_zero hw, hw]
    rfl
  · have hle := div255r_le (xorWeights_le (alphaOf_le s) (alphaOf_le d))
    rw [xorBlend_mixed hw, alphaOf_perChannel, Nat.mod_eq_of_lt (Nat.lt_succ_of_le hle)]

theorem alphaOf_clearBlend (d s : Color) : alphaOf (clearBlend d s) = 0 := by
  unfold clearBlend
  split_ifs <;> rfl

theorem alphaOf_sourceOverOpaque (d s : Color) : alphaOf (sourceOverOpaque d s) = 255 := alphaOf_perChannel _ _ _ _

/-- Settles O36: a Destination mode is its Source mode with the operands swapped. -/
theorem blendAlpha : Obligations.BlendAlpha := by
  intro bm d s
  cases bm
  case src | dst => rfl
  case srcover => exact alphaOf_sourceOver d s
  case dstover => exact alphaOf_sourceOver s d
  case srcin => exact alphaOf_sourceIn d s
  case dstin => exact alphaOf_sourceIn s d
  case srcatop => exact alphaOf_sourceAtop d s
  case dstatop => exact alphaOf_sourceAtop s d
  case srcout => exact alphaOf_sourceOut d s
  case dstout => exact alphaOf_sourceOut s d
  case xor => exact alphaOf_xorBlend d s
  case clear => exact alphaOf_clearBlend d s
  case srcoveropq => exact alphaOf_sourceOverOpaque d s
  case dstoveropq => exact alphaOf_sourceOverOpaque s d

/-! ## Colours (R225 to R241) -/

/-- Settles O37. -/
theorem blendColours : Obligations.BlendColours := fun d s =>
  ⟨rfl, rfl, fun _ hf =>
    ⟨channel_argb_of_color hf _ s, channel_argb_of_color hf _ s, channel_mix255 hf _ d s, channel_mix255 hf _ d s⟩⟩

/-- Settles O38: the tests in their order, and the mix by two weights that are not both 0. -/
theorem blendOverXor : Obligations.BlendOverXor := by
  intro d s
  refine ⟨sourceOver_of_opaque_source d, sourceOver_of_opaque_destination, sourceOver_of_clear_source,
    fun hs0 _ hd => sourceOver_of_clear_destination hs0.ne' hd, fun hs0 hs hd0 hd f hf => ?srcover, xorBlend_of_zero,
    fun hw f hf => ?xor⟩
  case srcover =>
    rw [blend, sourceOver_mixed hs0.ne' hs.ne hd0.ne' hd.ne]
    exact channel_mixBy hf (by omega) _ d s
  case xor =>
    rw [blend, xorBlend_mixed hw]
    exact channel_mixBy hf (Nat.pos_of_ne_zero hw) _ d s

/-! ## Operands swapped, operands opaque (R243, R244) -/

theorem mixBy_swap (wd ws dc sc : Nat) : mixBy wd ws dc sc = mixBy ws wd sc dc := by
  rw [mixBy_eq, mixBy, Nat.add_comm (ws * sc)]

/-- The two weights of kXor change places with the operands, and so do the channels they go with (R235). -/
theorem xorBlend_comm (d s : Color) : xorBlend d s = xorBlend s d := by
  by_cases hw : alphaOf s * (255 - alphaOf d) + alphaOf d * (255 - alphaOf s) = 0
  · rw [xorBlend_of_zero hw, xorBlend_of_zero ((Nat.add_comm _ _).trans hw)]
  · have hw' : alphaOf d * (255 - alphaOf s) + alphaOf s * (255 - alphaOf d) ≠ 0 := by rwa [Nat.add_comm]
    rw [xorBlend_mixed hw, xorBlend_mixed hw', Nat.add_comm (alphaOf d * _), perChannel, perChannel,
      mixBy_swap _ _ (redOf d), mixBy_swap _ _ (greenOf d), mixBy_swap _ _ (blueOf d)]

theorem clearBlend_comm (d s : Color) : clearBlend d s = clearBlend s d :=
  if_congr and_comm rfl rfl

/-- Settles O39. -/
theorem blendSwap : Obligations.BlendSwap := fun d s =>
  ⟨rfl, rfl, rfl, rfl, rfl, rfl, xorBlend_comm d s, clearBlend_comm d s⟩

/-- An opaque source takes all the weight of the mix by 255 (R241). -/
theorem sourceOverOpaque_of_opaque_source (d : Color) {s : Color} (hs : alphaOf s = 255) :
    sourceOverOpaque d s = s := by
  rw [sourceOverOpaque, perChannel, hs, mix255_opaque _ (redOf_lt s), mix255_opaque _ (greenOf_lt s),
    mix255_opaque _ (blueOf_lt s)]
  exact hs ▸ argb_channels s

/-- On an opaque destination kSourceOver mixes by 255, except for an opaque source, where the mix is the source too. -/
theorem sourceOverOpaque_of_opaque_destination {d : Color} (hd : alphaOf d = 255) (s : Color) :
    sourceOverOpaque d s = sourceOver d s := by
  by_cases hs : alphaOf s = 255
  · rw [sourceOverOpaque_of_opaque_source d hs, sourceOver_of_opaque_source d hs]
  · exact (sourceOver_of_opaque_destination hs hd).symm

/-- Settles O40. -/
theorem blendSubstitution : Obligations.BlendSubstitution :=
  ⟨fun _ s hd => sourceOverOpaque_of_opaque_destination hd s, fun d _ hs => sourceOverOpaque_of_opaque_destination hs d⟩

end Sys2Proof.Machine
end

section
/-! SUPPORT. The commands BLEND, BLENDRAW and BLENDRAWM (spec/43_blending.md R245, R248 to R250). -/

namespace Sys2Proof.Machine

/-- Settles O35. -/
theorem blendCommand : Obligations.BlendCommand := fun s rd rs1 rs2 bm =>
  exec_completes_of_setReg (exec_blend s rd rs1 rs2 bm) rfl

/-! ## Raw values -/

/-- A raw blend decodes, blends and encodes; the palette is as the encoding's lookup leaves it (R250). -/
theorem rawBlend_completes {s : State} {cm : ColorMode} {raw : Nat} (bm : BlendMode) (src : Color)
    (hentry : EntryReadable s cm raw) (hlookup : LookupAllowed s cm) :
    ∃ d n u, DecodesTo s cm raw d ∧ fromArgb s cm (blend bm d src) = .ok (n, u) ∧
      rawBlend s bm cm raw src = .ok (n, u) := by
  obtain ⟨d, hdec⟩ := toArgb_completes hentry
  obtain ⟨n, u, hfrom⟩ := fromArgb_completes (blend bm d src) hlookup
  exact ⟨d, n, u, (toArgb_eq_ok_iff s cm raw d).mp hdec, hfrom, Exec.bind_eq_ok.mpr ⟨d, hdec, hfrom⟩⟩

/-- Settles O44. -/
theorem blendrawCommand : Obligations.BlendrawCommand := by
  intro s rd rs1 rs2 cm bm hentry hlookup
  obtain ⟨d, n, u, hdec, hfrom, hraw⟩ := rawBlend_completes bm (s.reg rs2) hentry hlookup
  obtain ⟨ins, henc, hleaves⟩ := (fromArgb_eq_ok_iff s cm _ n u).mp hfrom
  refine ⟨_, d, ins, next_of_ok (exec_blendraw s rd rs1 rs2 cm bm) rfl (Exec.bind_eq_ok.mpr ⟨(n, u), hraw, rfl⟩), hdec,
    ?_, paletteAfter_setRegNat henc hleaves rd n, changesRegAndPalette_lookup hleaves rd _⟩
  rwa [toNat_reg_setRegNat u rd (lt_word_of_fromArgb hfrom)]

/-! ## Raw pixels in memory -/

/-- The bits of a raw value above the pixel width are ignored (R163). -/
theorem decodesTo_congr {s : State} {cm : ColorMode} {raw raw' : Nat} (c : Color)
    (h : raw % 2 ^ bitsPerPixel cm = raw' % 2 ^ bitsPerPixel cm) : DecodesTo s cm raw c ↔ DecodesTo s cm raw' c := by
  simp only [DecodesTo, h]

theorem entryReadable_congr {s : State} {cm : ColorMode} {raw raw' : Nat}
    (h : raw % 2 ^ bitsPerPixel cm = raw' % 2 ^ bitsPerPixel cm) : EntryReadable s cm raw ↔ EntryReadable s cm raw' := by
  simp only [EntryReadable, h]

/-- The raw pixel that stands in memory is the one that is loaded, up to its width (R61(b), R163). -/
theorem load_mod_of_pixelAt {m : List Host.Cell} {a raw : Nat} {cm : ColorMode} {bo : ByteOrder}
    (hcm : cm.fullByte = true) (h : PixelAt m a (bitsPerPixel cm / 8) bo raw) :
    Memory.load m a (bytesPerPixel cm) bo % 2 ^ bitsPerPixel cm = raw % 2 ^ bitsPerPixel cm := by
  rw [← pow_bytes_of_fullByte hcm]
  exact pixelAt_unique (pixelAt_load m a _ bo) h

/-- The palette after an encoding and one store is the palette that the encoding leaves (R198, R293). -/
theorem paletteAfter_setMem {ins : Bool} {s u : State} {cm : ColorMode} {c : Color} {n : Nat}
    (henc : EncodesTo s cm c n ins) (hleaves : LookupLeaves ins c s u) (m : List Host.Cell) :
    PaletteAfter ins c s (u.setMem m).count := by
  have hnew : ins = true → ridxLookup s.ridx c = none := by
    rintro rfl
    exact none_of_inserts (looksUpTo_of_encodesTo_true henc)
  refine paletteAfter_of_leaves hleaves hnew rfl rfl fun k hk => ?_
  have hne : k ≠ .cmdcnt := by
    rintro rfl
    exact absurd hk (by decide)
  rw [csr_count _ k hne, csr_setMem]

/-- Settles O45. -/
theorem blendrawmCommand : Obligations.BlendrawmCommand := by
  rintro s rs1 rs2 cm bm bo raw a n rfl rfl hcm hwf hw hpixel hentry hlookup
  have hloaded := load_mod_of_pixelAt hcm hpixel
  obtain ⟨d, r, u, hdec, hfrom, hraw⟩ :=
    rawBlend_completes bm (s.reg rs2) ((entryReadable_congr hloaded).mpr hentry) hlookup
  obtain ⟨ins, henc, hleaves⟩ := (fromArgb_eq_ok_iff s cm _ r u).mp hfrom
  exact ⟨_, d, r, ins,
    next_of_ok (exec_blendrawm s rs1 rs2 cm bm bo) hcm
      ((bind_of_rangeOk hw _).trans (Exec.bind_eq_ok.mpr ⟨(r, u), hraw, rfl⟩)),
    (decodesTo_congr d hloaded).mp hdec, henc, pixelAt_store r bo hwf (reg_add_le_of_rangeOk hw),
    paletteAfter_setMem henc hleaves _,
    changesMemoryAndPalette_lookup hleaves fun x hx => Memory.read_store_outside _ _ _ _ x bo hx⟩

end Sys2Proof.Machine
end

section
/-! SUPPORT. The slots of a byte bit by bit, and the commands that read and write one (spec/44_subbyte.md R271 to R276,
R278 to R282). -/

namespace Sys2Proof.Machine

/-! ## Slots -/

theorem mul_succ_le_of_slot {k i : Nat} (hi : i < 8 / k) : k * (i + 1) ≤ 8 :=
  (Nat.mul_le_mul_left k hi).trans (Nat.mul_div_le 8 k)

/-- A slot lies inside its byte (R271). -/
theorem slotBit_add_le {k i : Nat} (po : PixelOrder) (hi : i < 8 / k) : slotBit k po i + k ≤ 8 := by
  have hend := mul_succ_le_of_slot hi
  cases po <;> simp only [slotBit, Nat.mul_succ] at hend ⊢ <;> omega

/-- In either pixel order the slots of two indices do not overlap (R271). -/
theorem slotBit_disjoint {k i j : Nat} (po : PixelOrder) (hi : i < 8 / k) (hj : j < 8 / k) (hne : i ≠ j) :
    slotBit k po i + k ≤ slotBit k po j ∨ slotBit k po j + k ≤ slotBit k po i := by
  have hiend := mul_succ_le_of_slot hi
  have hjend := mul_succ_le_of_slot hj
  have hord : k * (i + 1) ≤ k * j ∨ k * (j + 1) ≤ k * i :=
    (Nat.lt_or_gt_of_ne hne).imp (Nat.mul_le_mul_left k) (Nat.mul_le_mul_left k)
  cases po <;> simp only [slotBit, Nat.mul_succ] at hiend hjend hord ⊢ <;> omega

/-! ## Reading a slot -/

theorem pixelOf_lt (k : Nat) (po : PixelOrder) (byte i : Nat) : pixelOf k po byte i < 2 ^ k :=
  Nat.mod_lt _ (Nat.two_pow_pos k)

theorem testBit_pixelOf (k : Nat) (po : PixelOrder) (byte i n : Nat) :
    (pixelOf k po byte i).testBit n = (decide (n < k) && byte.testBit (n + slotBit k po i)) := by
  rw [pixelOf, Nat.testBit_mod_two_pow, Nat.testBit_div_two_pow]

/-- A pixel that was merged into a byte is read back, up to its width (R282(b)). -/
theorem pixelOf_merged {k i old raw new : Nat} {po : PixelOrder} (hi : i < 8 / k)
    (h : MergesPixel k po old raw i new) : pixelOf k po new i = raw % 2 ^ k := by
  obtain ⟨-, hbits⟩ := h
  have hend := slotBit_add_le po hi
  refine Nat.eq_of_testBit_eq fun n => ?_
  rw [testBit_pixelOf, Nat.testBit_mod_two_pow]
  by_cases hn : n < k
  · rw [hbits _ (by omega), if_pos (by omega), Nat.add_sub_cancel]
  · simp [hn]

/-- The other slots of the byte read as before (R282(c)). -/
theorem pixelOf_merged_ne {k i j old raw new : Nat} {po : PixelOrder} (hi : i < 8 / k) (hj : j < 8 / k) (hne : i ≠ j)
    (h : MergesPixel k po old raw i new) : pixelOf k po new j = pixelOf k po old j := by
  obtain ⟨-, hbits⟩ := h
  have hend := slotBit_add_le po hj
  have hdisj := slotBit_disjoint po hi hj hne
  refine Nat.eq_of_testBit_eq fun n => ?_
  rw [testBit_pixelOf, testBit_pixelOf]
  by_cases hn : n < k
  · rw [hbits _ (by omega), if_neg (by omega)]
  · simp [hn]

/-! ## Writing a slot -/

theorem testBit_pixelMask (k n : Nat) : (pixelMask k).testBit n = decide (n < k) :=
  Nat.testBit_two_pow_sub_one k n

/-- The machine's merge replaces the slot's bits and keeps the others (R273). -/
theorem mergesPixel_storeRaw {k i : Nat} (hk : k ∣ 8) (hi : i < 8 / k) (po : PixelOrder) (byte raw : Nat) :
    MergesPixel k po byte raw i (storeRaw k po byte raw i) := by
  have hend := slotBit_add_le po hi
  have hslot : ∀ x, x ≤ pixelMask k → x * 2 ^ slotBit k po i < 2 ^ 8 := fun x hx =>
    calc x * 2 ^ slotBit k po i
      _ < 2 ^ k * 2 ^ slotBit k po i :=
        Nat.mul_lt_mul_of_pos_right (Nat.lt_of_le_pred (Nat.two_pow_pos k) hx) (Nat.two_pow_pos _)
      _ = 2 ^ (slotBit k po i + k) := by rw [Nat.pow_add, Nat.mul_comm]
      _ ≤ 2 ^ 8 := Nat.pow_le_pow_right (by decide) hend
  rw [storeRaw, slotShift_eq_slotBit hk]
  refine ⟨Nat.or_lt_two_pow (Nat.and_lt_two_pow _ (Nat.xor_lt_two_pow (by decide) (hslot _ le_rfl)))
    (hslot _ Nat.and_le_right), fun j hj => ?_⟩
  have hbyte : (0xFF : Nat).testBit j = true := by
    rw [show (0xFF : Nat) = 2 ^ 8 - 1 from rfl, Nat.testBit_two_pow_sub_one, decide_eq_true hj]
  simp only [Nat.testBit_or, Nat.testBit_and, Nat.testBit_xor, Nat.testBit_mul_two_pow, testBit_pixelMask, hbyte]
  by_cases hin : slotBit k po i ≤ j ∧ j < slotBit k po i + k
  · simp [hin.1, show j - slotBit k po i < k by omega, hin]
  · by_cases hlo : slotBit k po i ≤ j
    · simp [hlo, show ¬ j - slotBit k po i < k by omega, show ¬ j < slotBit k po i + k by omega]
    · simp [hlo]

/-- A merged byte that is written to memory stands there: the merge makes 8 bits (R273, R279). -/
theorem mergesPixel_write {m : List Host.Cell} {k i : Nat} (hwf : Memory.wf m = true) (hk : k ∣ 8) (hi : i < 8 / k)
    (po : PixelOrder) (a old raw : Nat) :
    MergesPixel k po old raw i
      (Memory.read (Memory.write m a (BitVec.ofNat 8 (storeRaw k po old raw i))) a).toNat := by
  have hmerge := mergesPixel_storeRaw hk hi po old raw
  have hlt := hmerge.1
  rwa [Memory.read_write_same _ _ hwf, BitVec.toNat_ofNat, Nat.mod_eq_of_lt hlt]

/-! ## Copying a pixel into every slot -/

/-- The number `1…1` of `n` digits in base `b`, times a digit, has that digit everywhere. -/
theorem digit_mul_geomSum {b v : Nat} (hv : v < b) {m n : Nat} (hm : m < n) :
    v * (∑ j ∈ Finset.range n, b ^ j) / b ^ m % b = v := by
  induction n generalizing m with
  | zero => contradiction
  | succ n ih =>
    have hsplit : v * (∑ j ∈ Finset.range (n + 1), b ^ j) = v + b * (v * ∑ j ∈ Finset.range n, b ^ j) := by
      rw [geom_sum_succ]
      ring
    rw [hsplit]
    cases m with
    | zero => rw [Nat.pow_zero, Nat.div_one, Nat.add_mul_mod_self_left, Nat.mod_eq_of_lt hv]
    | succ m =>
      rw [Nat.pow_succ', ← Nat.div_div_eq_div_mul, Nat.add_mul_div_left _ _ (Nat.zero_lt_of_lt hv),
        Nat.div_eq_of_lt hv, Nat.zero_add]
      exact ih (by omega)

theorem expandRaw_eq (k raw : Nat) : expandRaw k raw = raw % 2 ^ k * (255 / (2 ^ k - 1)) := by
  rw [expandRaw, pixelMask, Nat.and_two_pow_sub_one_eq_mod]

theorem expandRaw_lt (k raw : Nat) : expandRaw k raw < 256 :=
  Nat.lt_succ_of_le ((Nat.mul_le_mul_right _ Nat.and_le_right).trans (Nat.mul_div_le 255 (pixelMask k)))

/-- The factor of R280 is the number `1…1` of one digit for each slot. -/
theorem expandFactor_eq_geomSum {k : Nat} (hk : k ∣ 8) :
    255 / (2 ^ k - 1) = ∑ j ∈ Finset.range (8 / k), (2 ^ k) ^ j := by
  have hbase : 2 ≤ 2 ^ k := Nat.le_self_pow (Nat.ne_of_gt (Nat.pos_of_dvd_of_pos hk (by decide))) 2
  rw [Nat.geomSum_eq hbase, ← Nat.pow_mul, Nat.mul_div_cancel' hk]

/-- The first bit of a slot is a multiple of the pixel width (R271). -/
theorem slotBit_eq_mul {k i : Nat} (hk : k ∣ 8) (po : PixelOrder) (hi : i < 8 / k) :
    ∃ m, m < 8 / k ∧ slotBit k po i = k * m := by
  cases po with
  | msb => exact ⟨8 / k - 1 - i, by omega, (slotShift_eq_slotBit hk .msb i).symm.trans (Nat.mul_comm _ _)⟩
  | lsb => exact ⟨i, hi, rfl⟩

/-- The expanded byte has the pixel in every slot (R282(d)). -/
theorem pixelOf_expandRaw {k i v : Nat} (hk : k ∣ 8) (po : PixelOrder) (hi : i < 8 / k) (hv : v < 2 ^ k) :
    pixelOf k po (expandRaw k v) i = v := by
  obtain ⟨m, hm, hbit⟩ := slotBit_eq_mul hk po hi
  rw [pixelOf, hbit, Nat.pow_mul, expandRaw_eq, Nat.mod_eq_of_lt hv, expandFactor_eq_geomSum hk,
    digit_mul_geomSum hv hm]

/-! ## The four functions together -/

/-- Settles O49: extraction and merge speak of the same bits, and two slots have none in common. -/
theorem subByteConsistency : Obligations.SubByteConsistency := by
  rintro s cm po k b v i j hcm rfl - hv hi hj hne
  have hk := bitsPerPixel_dvd_eight hcm
  have hmerge := mergesPixel_storeRaw hk hi po b v
  refine ⟨fun cs hcs => ?bulk, ?same, ?other, ?expand, rfl⟩
  case bulk =>
    have hlen : cs.length = 8 / bitsPerPixel cm := length_of_loadSlots hcs
    have hi' : i < cs.length := hlen.symm ▸ hi
    have hslot := toArgb_of_loadSlots hcs i hi'
    rw [Nat.zero_add] at hslot
    exact ⟨hlen, cs[i], List.getElem?_eq_getElem hi', hslot⟩
  case same => rw [loadRaw_eq_pixelOf hk, pixelOf_merged hi hmerge, Nat.mod_eq_of_lt hv]
  case other => rw [loadRaw_eq_pixelOf hk, loadRaw_eq_pixelOf hk, pixelOf_merged_ne hi hj hne hmerge]
  case expand => rw [loadRaw_eq_pixelOf hk, pixelOf_expandRaw hk po hi hv]

/-! ## The commands -/

theorem loadRaw_lt_word {cm : ColorMode} (hcm : cm.fullByte = false) (po : PixelOrder) (byte i : Nat) :
    loadRaw (bitsPerPixel cm) po byte i < 2 ^ 32 := by
  rw [loadRaw_eq_pixelOf (bitsPerPixel_dvd_eight hcm)]
  exact (pixelOf_lt _ po byte i).trans_le (Nat.pow_le_pow_right (by decide) (bitsPerPixel_le cm))

/-- SBLOAD is one register write (R274). -/
theorem exec_sbload_completes {s : State} {rs2 : Reg} {cm : ColorMode} (rd rs1 : Reg) (po : PixelOrder)
    (hcm : cm.fullByte = false) (hi : (s.reg rs2).toNat < 8 / bitsPerPixel cm) :
    ∃ t, exec (.sbload rd rs1 rs2 cm po) s = .next t ∧ ChangesOnlyReg rd s t ∧
      (t.reg rd).toNat = loadRaw (bitsPerPixel cm) po (s.byte rs1) (s.num rs2) :=
  exec_completes_of_setRegNat ((exec_sbload s rd rs1 rs2 cm po).trans (congrArg _ (bind_of_below hi _)))
    (by simp [Instr.wellFormed, hcm]) (loadRaw_lt_word hcm ..)

/-- SBSTORE is one register write (R275). -/
theorem exec_sbstore_completes {s : State} {rs2 : Reg} {cm : ColorMode} (rd rs1 : Reg) (po : PixelOrder)
    (hcm : cm.fullByte = false) (hi : (s.reg rs2).toNat < 8 / bitsPerPixel cm) :
    ∃ t, exec (.sbstore rd rs1 rs2 cm po) s = .next t ∧ ChangesOnlyReg rd s t ∧
      (t.reg rd).toNat = storeRaw (bitsPerPixel cm) po (s.byte rd) (s.num rs1) (s.num rs2) := by
  obtain ⟨hlt, -⟩ := mergesPixel_storeRaw (bitsPerPixel_dvd_eight hcm) hi po (s.byte rd) (s.num rs1)
  exact exec_completes_of_setRegNat ((exec_sbstore s rd rs1 rs2 cm po).trans (congrArg _ (bind_of_below hi _)))
    (by simp [Instr.wellFormed, hcm]) (hlt.trans (by decide))

/-- Settles O46. -/
theorem subByteRegisterCommands : Obligations.SubByteRegisterCommands := by
  rintro s rd rs1 rs2 cm po k hcm rfl
  have hk := bitsPerPixel_dvd_eight hcm
  refine ⟨fun hi => ⟨?sbload, ?sbstore⟩, ?sbexpand⟩
  case sbload =>
    obtain ⟨t, hnext, hframe, hreg⟩ := exec_sbload_completes rd rs1 po hcm hi
    rw [loadRaw_eq_pixelOf hk, byte_eq_mod] at hreg
    exact ⟨t, hnext, hreg, hframe⟩
  case sbstore =>
    obtain ⟨t, hnext, hframe, hreg⟩ := exec_sbstore_completes rd rs1 po hcm hi
    refine ⟨t, hnext, ?_, hframe⟩
    rw [hreg, byte_eq_mod]
    exact mergesPixel_storeRaw hk hi po _ _
  case sbexpand =>
    obtain ⟨t, hnext, hframe, hreg⟩ := exec_completes_of_setRegNat (exec_sbexpand s rd rs1 cm)
      (by simp [Instr.wellFormed, hcm]) ((expandRaw_lt _ _).trans (by decide))
    exact ⟨t, hnext, hreg.trans (expandRaw_eq _ _), hframe⟩

/-- Settles O47: after the two checks, one register write, or one write of a byte. -/
theorem subByteMemoryCommands : Obligations.SubByteMemoryCommands := by
  rintro s rd rs1 rs2 cm po k a hcm rfl rfl hi
  have hk := bitsPerPixel_dvd_eight hcm
  refine ⟨fun hr => ?sbloadm, fun hw hwf => ?sbstorem⟩
  case sbloadm =>
    obtain ⟨t, hnext, hframe, hreg⟩ := exec_completes_of_setRegNat
      ((exec_sbloadm s rd rs1 rs2 cm po).trans
        (congrArg _ ((bind_of_below hi _).trans (bind_of_rangeOk hr _))))
      (by simp [Instr.wellFormed, hcm]) (loadRaw_lt_word hcm ..)
    exact ⟨t, hnext, hreg.trans (loadRaw_eq_pixelOf hk ..), hframe⟩
  case sbstorem =>
    exact ⟨_, next_of_ok (exec_sbstorem s rd rs1 rs2 cm po) (by simp [Instr.wellFormed, hcm])
        ((bind_of_below hi _).trans (bind_of_rangeOk hw _)),
      mergesPixel_write hwf hk hi po _ _ _,
      changesOnlyMemory_setMem fun x hx => Memory.read_write_ne _ _ x _ (hx.elim Nat.ne_of_lt Nat.ne_of_gt)⟩

end Sys2Proof.Machine
end

section
/-! SUPPORT. The commands that establish a palette, PALRO, PALRW and PALDYN, and the lookup PALIDX (spec/45_palette.md
R295 to R299). -/

namespace Sys2Proof.Machine

/-! ## PALIDX -/

/-- Settles O29: the lookup of PALIDX is the encoding of the Indexed modes (R198, R299). -/
theorem palidxCommand : Obligations.PalidxCommand := by
  intro s rd rs1 hkind
  have hallowed : LookupAllowed s .idx8 := fun _ hro => Bool.eq_false_iff.mpr fun ha => hkind ⟨hro, ha⟩
  obtain ⟨n, u, hidx⟩ := fromArgb_completes (s.reg rs1) hallowed
  obtain ⟨ins, hlooks, hleaves⟩ := (fromArgb_eq_ok_iff s .idx8 _ n u).mp hidx
  refine ⟨_, ins, next_of_ok (exec_palidx s rd rs1) rfl (Exec.bind_eq_ok.mpr ⟨(n, u), hidx, rfl⟩), ?_,
    paletteAfter_setRegNat hlooks hleaves rd n, changesRegAndPalette_lookup hleaves rd _⟩
  rwa [toNat_reg_setRegNat u rd (lt_word_of_fromArgb hidx)]

/-! ## The array of a borrowed palette -/

/-- The colours of an array are the words that stand at its addresses (R61(a)). -/
theorem mem_loadColors_iff {m : List Host.Cell} {a n : Nat} {c : Color} :
    c ∈ Memory.loadColors m a n ↔ ∃ i, i < n ∧ WordAt m (a + 4 * i) c := by
  rw [List.mem_iff_getElem]
  constructor
  · rintro ⟨i, hi, rfl⟩
    have hin : i < n := by simpa using hi
    exact ⟨i, hin, (wordAt_iff m _ _).mpr (Memory.getElem_loadColors m a n i hin).symm⟩
  · rintro ⟨i, hi, hc⟩
    exact ⟨i, by simpa using hi, (Memory.getElem_loadColors m a n i hi).trans ((wordAt_iff m _ c).mp hc)⟩

/-- `AutoTM` of an array is its tightest class (R295). -/
theorem tightestClass_autoClass (m : List Host.Cell) (a n : Nat) :
    TightestClass m a n (autoClass (Memory.loadColors m a n)).code := by
  obtain ⟨hbound, hmet⟩ := autoClass_spec (Memory.loadColors m a n)
  constructor
  · intro i hi c hc
    rw [← code_classOf]
    exact hbound c (mem_loadColors_iff.mpr ⟨i, hi, hc⟩)
  · rcases hmet with hnone | ⟨c, hc, hclass⟩
    · exact .inl (congrArg TransparencyClass.code hnone)
    · obtain ⟨i, hi, hword⟩ := mem_loadColors_iff.mp hc
      exact .inr ⟨i, c, hi, hword, by rw [← code_classOf, hclass]⟩

/-- The class that a `tm` argument gives (R295); an explicit one does not look at the array. -/
theorem tmClass_spec {m : List Host.Cell} {a n : Nat} {tm : TmArg} {cs : List Color}
    (hcs : tm = .auto → cs = Memory.loadColors m a n) :
    if tm = .auto then TightestClass m a n (tmClass tm cs).code else (tmClass tm cs).code = tm.code := by
  cases tm
  case auto => exact hcs rfl ▸ tightestClass_autoClass m a n
  all_goals rfl

/-- The reverse index of an array sends each of its colours to the lowest index (R297). -/
theorem ridxLookup_buildIndex_loadColors {m : List Host.Cell} {a n : Nat} (hn : n ≤ 256) (c : Color) (k : Fin 256) :
    ridxLookup (buildIndex [] 0 (Memory.loadColors m a n)) c = some k ↔
      k.val < n ∧ WordAt m (a + 4 * k.val) c ∧ ∀ j, j < k.val → ¬ WordAt m (a + 4 * j) c := by
  rw [ridxLookup_buildIndex _ _ _ _ (by simpa using hn)]
  simp only [ridxLookup, reduceCtorEq, false_or, true_and, wordAt_iff, Memory.length_loadColors, Nat.zero_add]
  constructor
  · rintro ⟨j, hj, hk, hc, hfirst⟩
    rw [hk]
    refine ⟨hj, (Memory.getElem_loadColors m a n j hj).symm.trans hc, fun l hl => ?_⟩
    rw [← Memory.getElem_loadColors m a n l (by omega)]
    exact hfirst l hl
  · rintro ⟨hk, hc, hfirst⟩
    refine ⟨k, hk, rfl, (Memory.getElem_loadColors m a n k hk).trans hc, fun l hl => ?_⟩
    rw [Memory.getElem_loadColors m a n l (by omega)]
    exact hfirst l hl

/-! ## PALRO, PALRW and PALDYN -/

/-- A size or capacity that came from a register is shown as the register's value (R37, R38). -/
theorem ofNat_size_eq {n : Fin 257} {v : Word} (h : n.val = v.toNat) : BitVec.ofNat 32 n.val = v := by
  rw [h, BitVec.ofNat_toNat, BitVec.setWidth_eq]

theorem readArray_of_rangeOk {s : State} {base : Word} {n : Fin 257}
    (h : RangeOk s .read base.toNat (4 * n.val)) :
    readArray s base n = .ok (Memory.loadColors s.mem base.toNat n.val) :=
  (readArray_eq_ok_iff s base n _).mpr ⟨h, rfl⟩

/-- PALRO sets the registers of a borrowed palette; the array is read for `auto` alone (R296). -/
theorem exec_palro_of_le {s : State} {rs1 rs2 : Reg} {tm : TmArg} (hsize : (s.reg rs2).toNat ≤ 256)
    (harray : tm = .auto → RangeOk s .read (s.reg rs1).toNat (4 * (s.reg rs2).toNat)) :
    ∃ (size : Fin 257) (cs : List Color), size.val = (s.reg rs2).toNat ∧
      (tm = .auto → cs = Memory.loadColors s.mem (s.reg rs1).toNat (s.reg rs2).toNat) ∧
      exec (.palro rs1 rs2 tm) s =
        .next (s.setBorrowed .readOnly (s.reg rs1) size (tmClass tm cs) []).count := by
  obtain ⟨size, hval, hop⟩ := sizeOperand_of_le hsize
  rw [← hval] at harray ⊢
  by_cases htm : tm = .auto
  · refine ⟨size, _, rfl, fun _ => rfl, next_of_ok (exec_palro s rs1 rs2 tm) rfl ?_⟩
    rw [hop, Exec.ok_bind, if_pos htm, readArray_of_rangeOk (harray htm), Exec.ok_bind]
  · refine ⟨size, [], rfl, fun h => absurd h htm, next_of_ok (exec_palro s rs1 rs2 tm) rfl ?_⟩
    rw [hop, Exec.ok_bind, if_neg htm, Exec.ok_bind]

/-- PALRW reads the array whatever its `tm` argument is (R297). -/
theorem exec_palrw_of_le {s : State} {rs1 rs2 : Reg} (tm : TmArg) (hsize : (s.reg rs2).toNat ≤ 256)
    (harray : RangeOk s .read (s.reg rs1).toNat (4 * (s.reg rs2).toNat)) :
    ∃ size : Fin 257, size.val = (s.reg rs2).toNat ∧ exec (.palrw rs1 rs2 tm) s =
      .next (s.setBorrowed .readWrite (s.reg rs1) size
        (tmClass tm (Memory.loadColors s.mem (s.reg rs1).toNat (s.reg rs2).toNat))
        (buildIndex [] 0 (Memory.loadColors s.mem (s.reg rs1).toNat (s.reg rs2).toNat))).count := by
  obtain ⟨size, hval, hop⟩ := sizeOperand_of_le hsize
  rw [← hval] at harray ⊢
  refine ⟨size, rfl, next_of_ok (exec_palrw s rs1 rs2 tm) rfl ?_⟩
  rw [hop, Exec.ok_bind, readArray_of_rangeOk harray, Exec.ok_bind]

/-- PALDYN empties the palette and sets its capacity (R298). -/
theorem exec_paldyn_of_le {s : State} {r : Reg} (hcap : (s.reg r).toNat ≤ 256) :
    ∃ cap : Fin 257, cap.val = (s.reg r).toNat ∧ exec (.paldyn r) s = .next (s.setDynamic cap).count := by
  obtain ⟨cap, hval, hop⟩ := sizeOperand_of_le hcap
  exact ⟨cap, hval, next_of_ok (exec_paldyn s r) rfl (by rw [hop, Exec.ok_bind])⟩

/-- Settles O50. -/
theorem palroPaldynCommands : Obligations.PalroPaldynCommands := by
  intro s rs1 rs2 tm hsize
  constructor
  · intro harray
    obtain ⟨size, cs, hval, hcs, hnext⟩ := exec_palro_of_le hsize harray
    refine ⟨_, hnext, changesOnlyPalette_setBorrowed s _ _ _ _ _, rfl, fun _ => rfl, rfl, rfl, ofNat_size_eq hval,
      ofNat_size_eq hval, ?_⟩
    rw [toNat_csr_palTm]
    exact tmClass_spec hcs
  · obtain ⟨cap, hval, hnext⟩ := exec_paldyn_of_le hsize
    exact ⟨_, hnext, changesOnlyPalette_setDynamic s cap, fun _ _ => Vector.getElem_replicate _, fun _ => rfl, rfl, rfl,
      rfl, ofNat_size_eq hval, rfl⟩

/-- Settles O51. -/
theorem palrwCommand : Obligations.PalrwCommand := by
  rintro s rs1 rs2 tm base n rfl rfl hn harray
  obtain ⟨size, hval, hnext⟩ := exec_palrw_of_le tm hn harray
  refine ⟨_, hnext, changesOnlyPalette_setBorrowed s _ _ _ _ _, rfl, ridxLookup_buildIndex_loadColors hn, rfl, rfl,
    ofNat_size_eq hval, ofNat_size_eq hval, ?_⟩
  rw [toNat_csr_palTm]
  exact tmClass_spec fun _ => rfl

end Sys2Proof.Machine
end

section
/-! SUPPORT. Sequences of lookups in a Dynamic palette (spec/45_palette.md R300). -/

namespace Sys2Proof.Machine

/-! ## The colours seen -/

/-- Looking up one more colour adds it to the colours seen if it is new. -/
theorem firstSeen_cons (seen : List Color) (c : Color) (cs : List Color) :
    firstSeen seen (c :: cs) = firstSeen (if c ∈ seen then seen else seen ++ [c]) cs := by
  rw [firstSeen, apply_ite (firstSeen · cs)]

theorem mem_firstSeen_iff {seen cs : List Color} {c : Color} : c ∈ firstSeen seen cs ↔ c ∈ seen ∨ c ∈ cs := by
  induction cs generalizing seen with
  | nil => simp [firstSeen]
  | cons d cs ih =>
    rw [firstSeen_cons, ih, List.mem_cons]
    split_ifs with hd
    · constructor
      · exact Or.imp_right .inr
      · rintro (h | rfl | h)
        exacts [.inl h, .inl hd, .inr h]
    · simp only [List.mem_append, List.mem_singleton, or_assoc]

/-- A colour that was seen keeps its place among the colours seen. -/
theorem idxOf_firstSeen {seen : List Color} (cs : List Color) {c : Color} (hc : c ∈ seen) :
    (firstSeen seen cs).idxOf c = seen.idxOf c := by
  induction cs generalizing seen with
  | nil => rfl
  | cons d cs ih =>
    rw [firstSeen_cons]
    split_ifs with hd
    · exact ih hc
    · rw [ih (List.mem_append_left _ hc), List.idxOf_append_of_mem hc]

/-- A new colour comes after those seen before. -/
theorem idxOf_append_new {seen : List Color} {c : Color} (hc : c ∉ seen) : (seen ++ [c]).idxOf c = seen.length := by
  rw [List.idxOf_append_of_notMem hc, List.idxOf_cons_self, Nat.add_zero]

/-! ## The palette after a sequence of lookups -/

/-- The place of a colour among the first `n` of the colours seen, if it has one. -/
def placeBelow (n : Nat) (seen : List Color) (c : Color) : Option Nat :=
  if seen.idxOf c < n then some (seen.idxOf c) else none

/-- A further colour seen changes no place below it. -/
theorem placeBelow_append {n : Nat} {seen : List Color} (hn : n ≤ seen.length) (c d : Color) :
    placeBelow n (seen ++ [c]) d = placeBelow n seen d := by
  unfold placeBelow
  by_cases hd : d ∈ seen
  · rw [List.idxOf_append_of_mem hd]
  · rw [List.idxOf_append_of_notMem hd, List.idxOf_eq_length hd, if_neg (by omega), if_neg (by omega)]

/-- A new colour takes the place after those of the colours seen before. -/
theorem placeBelow_append_length {seen : List Color} {c : Color} (hc : c ∉ seen) (d : Color) :
    placeBelow (seen.length + 1) (seen ++ [c]) d =
      if d = c then some seen.length else placeBelow seen.length seen d := by
  split_ifs with hd
  · rw [hd, placeBelow, idxOf_append_new hc, if_pos (Nat.lt_succ_self _)]
  · have hmem : c ∈ seen ++ [c] := List.mem_append_right seen (List.mem_singleton_self c)
    have hne : (seen ++ [c]).idxOf d ≠ seen.length := fun he =>
      hd ((List.idxOf_inj hmem).mp ((idxOf_append_new hc).trans he.symm)).symm
    rw [← placeBelow_append le_rfl c d]
    unfold placeBelow
    simp only [show (seen ++ [c]).idxOf d < seen.length + 1 ↔ (seen ++ [c]).idxOf d < seen.length by omega]

/-- The answer to a lookup of a colour that was seen: its place, or 0 beyond the capacity (R300). -/
def answer (N : Nat) (seen : List Color) (c : Color) : Nat := if seen.idxOf c < N then seen.idxOf c else 0

/-- A Dynamic palette of capacity `N` after lookups of the colours `seen`, in the order of their first lookup: the first
`N` of them have their place as their index (R300). -/
structure Remembers (N : Nat) (seen : List Color) (s : State) : Prop where
  ok : PaletteOk s
  dynamic : s.palKind = .dynamic
  cap : s.palCap.val = N
  size : s.palSize.val = min N seen.length
  index : ∀ c, (ridxLookup s.ridx c).map Fin.val = placeBelow s.palSize.val seen c

theorem remembers_setDynamic (s : State) (cap : Fin 257) : Remembers cap.val [] (s.setDynamic cap).count where
  ok := paletteOk_congr (paletteOk_setDynamic s cap) rfl
  dynamic := rfl
  cap := rfl
  size := (Nat.min_zero _).symm
  index := fun _ => rfl

section
variable {N : Nat} {seen : List Color} {s : State} {c : Color}

/-- A colour whose place is in use has that place as its index. -/
theorem Remembers.lookup_eq_some (h : Remembers N seen s) (hc : seen.idxOf c < s.palSize.val) :
    ∃ k : Fin 256, ridxLookup s.ridx c = some k ∧ k.val = seen.idxOf c :=
  Option.map_eq_some_iff.mp ((h.index c).trans (if_pos hc))

theorem Remembers.lookup_eq_none (h : Remembers N seen s) (hc : ¬ seen.idxOf c < s.palSize.val) :
    ridxLookup s.ridx c = none :=
  Option.map_eq_none_iff.mp ((h.index c).trans (if_neg hc))

/-- A known colour is answered with its index (R293). -/
theorem Remembers.indexOfColor_known (h : Remembers N seen s) (hc : seen.idxOf c < s.palSize.val) :
    indexOfColor s c = .ok (seen.idxOf c, s) := by
  obtain ⟨k, hk, hval⟩ := h.lookup_eq_some hc
  exact (indexOfColor_eq_ok_iff s c _ s).mpr
    ⟨false, .inr (.inl ⟨by simp [h.dynamic], ⟨k, hk, hval.symm⟩, rfl⟩), .inl ⟨rfl, rfl⟩⟩

/-- A full palette answers 0 for an unknown colour and stays as it is (R293). -/
theorem Remembers.indexOfColor_full (h : Remembers N seen s) (hc : ¬ seen.idxOf c < s.palSize.val)
    (hfull : s.palCap ≤ s.palSize) : indexOfColor s c = .ok (0, s) :=
  (indexOfColor_eq_ok_iff s c 0 s).mpr
    ⟨false, .inr (.inr (.inr (.inl ⟨h.dynamic, h.lookup_eq_none hc, hfull, rfl, rfl⟩))), .inl ⟨rfl, rfl⟩⟩

/-- A palette with room gives a new colour the next index (R293). -/
theorem Remembers.indexOfColor_new (h : Remembers N seen s) (hc : c ∉ seen) (hroom : s.palSize.val < s.palCap.val) :
    ∃ u, indexOfColor s c = .ok (seen.length, u) ∧ Remembers N (seen ++ [c]) u := by
  have hcap := h.cap
  have hsize : s.palSize.val = seen.length := by
    have := h.size
    omega
  have hunknown := h.lookup_eq_none (c := c) (by rw [List.idxOf_eq_length hc]; omega)
  obtain ⟨k, hk⟩ : ∃ k : Fin 256, k.val = s.palSize.val := ⟨⟨s.palSize.val, by omega⟩, rfl⟩
  have hins : InsertsAt s c k := ⟨h.dynamic, hk, hroom, hunknown⟩
  refine ⟨insertColor s c k, (indexOfColor_eq_ok_iff s c _ _).mpr ⟨true, ?looks, .inr ⟨rfl, k, hk, rfl⟩⟩, ?remembers⟩
  case looks => exact .inr (.inr (.inr (.inr ⟨h.dynamic, hunknown, hroom, hsize.symm, rfl⟩)))
  case remembers =>
    refine ⟨paletteOk_insertColor h.ok hins, h.dynamic, h.cap, ?_, fun d => ?_⟩
    · show k.val + 1 = min N (seen ++ [c]).length
      rw [List.length_append, List.length_singleton]
      omega
    · show _ = placeBelow (k.val + 1) (seen ++ [c]) d
      rw [hk, hsize, placeBelow_append_length hc, ridxLookup_insertColor hins, ← hsize, ← h.index d, ← hk]
      split_ifs <;> rfl

/-- A full palette has no index left: a further colour changes nothing of what it remembers. -/
theorem Remembers.append_of_full (h : Remembers N seen s) (hfull : s.palCap ≤ s.palSize) :
    Remembers N (seen ++ [c]) s := by
  have hcap := h.cap
  have hsize := h.size
  have hle : s.palCap.val ≤ s.palSize.val := hfull
  refine ⟨h.ok, h.dynamic, h.cap, ?_, fun d => ?_⟩
  · rw [List.length_append]
    omega
  · rw [placeBelow_append (by omega), h.index d]

/-- One lookup answers by the place of its colour, and the palette remembers that colour too. -/
theorem Remembers.indexOfColor_next (h : Remembers N seen s) (c : Color) :
    ∃ u, indexOfColor s c = .ok (answer N (if c ∈ seen then seen else seen ++ [c]) c, u) ∧
      Remembers N (if c ∈ seen then seen else seen ++ [c]) u := by
  have hcap := h.cap
  have hsize := h.size
  unfold answer
  by_cases hknown : seen.idxOf c < s.palSize.val
  · have hc : c ∈ seen := List.idxOf_lt_length_iff.mp (by omega)
    rw [if_pos hc, if_pos (by omega)]
    exact ⟨s, h.indexOfColor_known hknown, h⟩
  · by_cases hc : c ∈ seen
    · have hplace := List.idxOf_lt_length_iff.mpr hc
      rw [if_pos hc, if_neg (by omega)]
      exact ⟨s, h.indexOfColor_full hknown (show s.palCap.val ≤ s.palSize.val by omega), h⟩
    · rw [if_neg hc, idxOf_append_new hc]
      by_cases hroom : s.palSize.val < s.palCap.val
      · rw [if_pos (by omega)]
        exact h.indexOfColor_new hc hroom
      · have hfull : s.palCap ≤ s.palSize := Nat.le_of_not_lt hroom
        rw [if_neg (by omega)]
        exact ⟨s, h.indexOfColor_full hknown hfull, h.append_of_full hfull⟩

/-- A sequence of lookups answers each colour by its place among all the colours seen at the end. -/
theorem Remembers.lookupAll_answers (h : Remembers N seen s) (cs : List Color) :
    ∃ t, lookupAll s cs = .ok (cs.map (answer N (firstSeen seen cs)), t) ∧ Remembers N (firstSeen seen cs) t := by
  induction cs generalizing seen s with
  | nil => exact ⟨s, rfl, h⟩
  | cons c cs ih =>
    obtain ⟨u, hindex, hu⟩ := h.indexOfColor_next c
    obtain ⟨t, hrest, ht⟩ := ih hu
    have hseen : c ∈ if c ∈ seen then seen else seen ++ [c] := by split_ifs with hc <;> simp [hc]
    rw [firstSeen_cons, List.map_cons, answer, idxOf_firstSeen cs hseen, ← answer]
    exact ⟨t, Exec.bind_eq_ok.mpr ⟨_, hindex, Exec.bind_eq_ok.mpr ⟨_, hrest, rfl⟩⟩, ht⟩

/-- A colour with an index is the entry at that index (R43(d), R292). -/
theorem Remembers.palColor_known (h : Remembers N seen s) (hc : seen.idxOf c < s.palSize.val) :
    palColor s (seen.idxOf c) = .ok c := by
  obtain ⟨k, hk, hval⟩ := h.lookup_eq_some hc
  have hentry := ((h.ok.dynamic_index h.dynamic c k).mp hk).2
  rw [← hval]
  exact (palColor_eq_ok_iff s k c k.isLt).mpr (.inl ⟨h.dynamic, k.isLt, hentry.symm⟩)

end

/-- Settles O52, by induction on the sequence: the palette remembers the first colours seen, each at its place. -/
theorem paletteCapacity : Obligations.PaletteCapacity := by
  rintro s₀ s r N rfl hN hexec cs
  obtain ⟨cap, hval, hnext⟩ := exec_paldyn_of_le hN
  obtain rfl := Host.Outcome.next.inj (hnext.symm.trans hexec)
  rw [← hval]
  obtain ⟨t, hall, ht⟩ := (remembers_setDynamic s₀ cap).lookupAll_answers cs
  have hcap := ht.cap
  have hsize := ht.size
  refine ⟨t, hall, hsize, fun c hc hplace => ht.palColor_known ?known, fun c hlen hc => ht.indexOfColor_full ?new ?full⟩
  case known =>
    have hseen := List.idxOf_lt_length_iff.mpr (mem_firstSeen_iff (seen := []).mpr (.inr hc))
    omega
  case new =>
    have hbeyond : cap.val ≤ (firstSeen [] cs).idxOf c := by
      rcases hc with hnew | hbeyond
      · rwa [List.idxOf_eq_length (by simpa [mem_firstSeen_iff] using hnew)]
      · exact hbeyond
    omega
  case full =>
    show t.palCap.val ≤ t.palSize.val
    omega

end Sys2Proof.Machine
end

section
/-! SUPPORT. Which faults the body of a command can raise, row by row of R329's table (spec/60_exceptions.md). -/

namespace Sys2Proof.Machine

/-- A computation that raises only faults of the listed causes, and whose answer, if it gives one, has the property. -/
def Meets {α : Type} (causes : List FaultCause) (post : α → Prop) : Exec α → Prop
  | .ok a => post a
  | .error f => f.cause ∈ causes

/-- The recorded cause is as it was (R27). -/
def CauseKept (s u : State) : Prop := u.faultCause = s.faultCause

theorem meets_iff {α : Type} {causes : List FaultCause} {post : α → Prop} {x : Exec α} :
    Meets causes post x ↔ (∀ a, x = .ok a → post a) ∧ ∀ f, x = .error f → f.cause ∈ causes := by
  cases x <;> simp [Meets]

/-- A sequence raises what its parts raise (R64). -/
theorem Meets.bind {α β : Type} {causes : List FaultCause} {mid : α → Prop} {post : β → Prop} {x : Exec α}
    {f : α → Exec β} (hx : Meets causes mid x) (hf : ∀ a, mid a → Meets causes post (f a)) :
    Meets causes post (x >>= f) := by
  cases x with
  | ok a => exact hf a hx
  | error e => exact hx

/-- A first part that raises one allowed cause, whatever it answers. -/
theorem Meets.andThen {α β : Type} {c : FaultCause} {causes : List FaultCause} {post : β → Prop} {x : Exec α}
    {f : α → Exec β} (hx : ∀ {e}, x = .error e → e.cause = c) (hc : c ∈ causes)
    (hf : ∀ a, Meets causes post (f a)) : Meets causes post (x >>= f) := by
  cases x with
  | ok a => exact hf a
  | error e =>
    show e.cause ∈ causes
    rw [hx rfl]
    exact hc

/-! ## The causes of the shared operations -/

section Causes

variable {s : State} {e : Raise}

theorem cause_of_checkAccess {k : Access} {a len : Nat} (h : checkAccess s k a len = .error e) :
    e.cause = .accessFault := by
  obtain ⟨b, rfl, -⟩ := (checkAccess_eq_error_iff s k a len e).mp h
  rfl

theorem cause_of_readColor {a : Nat} (h : readColor s a = .error e) : e.cause = .accessFault := by
  obtain ⟨b, rfl, -⟩ := (readColor_eq_error_iff s a e).mp h
  rfl

theorem cause_of_readArray {base : Word} {n : Fin 257} (h : readArray s base n = .error e) :
    e.cause = .accessFault := by
  obtain ⟨b, rfl, -⟩ := (readArray_eq_error_iff s base n e).mp h
  rfl

theorem cause_of_checkBelow {v : Word} {n : Nat} (h : checkBelow v n = .error e) : e.cause = .operandRange := by
  obtain ⟨-, rfl⟩ := (checkBelow_eq_error_iff v n e).mp h
  rfl

theorem cause_of_sizeOperand {v : Word} (h : sizeOperand v = .error e) : e.cause = .operandRange := by
  obtain ⟨-, rfl⟩ := (sizeOperand_eq_error_iff v e).mp h
  rfl

theorem cause_of_indexOfColor {c : Color} (h : indexOfColor s c = .error e) : e.cause = .paletteAssert := by
  obtain ⟨-, -, rfl⟩ := (indexOfColor_eq_error_iff s c e).mp h
  rfl

theorem borrowed_of_ne_dynamic (h : s.palKind ≠ .dynamic) : s.borrowed = true := by
  unfold State.borrowed
  cases hk : s.palKind with
  | readOnly | readWrite => rfl
  | dynamic => exact absurd hk h

/-- Decoding faults in the Indexed modes only, while the palette is borrowed (R197). -/
theorem cause_of_toArgb {cm : ColorMode} {raw : Nat} (h : toArgb s cm raw = .error e) :
    cm.indexed = true ∧ s.borrowed = true ∧ e.cause = .accessFault := by
  obtain ⟨hcm, hk, b, rfl, -⟩ := (toArgb_eq_error_iff s cm raw e).mp h
  exact ⟨hcm, borrowed_of_ne_dynamic hk, rfl⟩

/-- Encoding faults in the Indexed modes only (R198). -/
theorem cause_of_fromArgb {cm : ColorMode} {c : Color} (h : fromArgb s cm c = .error e) :
    cm.indexed = true ∧ e.cause = .paletteAssert := by
  obtain ⟨hcm, -, -, rfl⟩ := (fromArgb_eq_error_iff s cm c e).mp h
  exact ⟨hcm, rfl⟩

/-- A raw blend faults by its decoding or by its encoding (R250). -/
theorem cause_of_rawBlend {bm : BlendMode} {cm : ColorMode} {raw : Nat} {src : Color}
    (h : rawBlend s bm cm raw src = .error e) : cm.indexed = true ∧
      ((s.borrowed = true ∧ e.cause = .accessFault) ∨ e.cause = .paletteAssert) := by
  rcases Exec.bind_eq_error.mp h with hdec | ⟨d, -, henc⟩
  · obtain ⟨hcm, hcause⟩ := cause_of_toArgb hdec
    exact ⟨hcm, .inl hcause⟩
  · obtain ⟨hcm, hcause⟩ := cause_of_fromArgb henc
    exact ⟨hcm, .inr hcause⟩

theorem cause_of_loadSlots {cm : ColorMode} {po : PixelOrder} {byte i n : Nat}
    (h : loadSlots s cm po byte i n = .error e) : e.cause = .accessFault := by
  induction n generalizing i with
  | zero => contradiction
  | succ n ih =>
    rcases Exec.bind_eq_error.mp h with hslot | ⟨c, -, h⟩
    · exact (cause_of_toArgb hslot).2.2
    · rcases Exec.bind_eq_error.mp h with hrest | ⟨cs, -, hok⟩
      · exact ih hrest
      · contradiction

end Causes

theorem LookedUp.causeKept {i : Instr} {s u : State} (h : LookedUp i s u) : CauseKept s u := by
  rcases h with rfl | ⟨-, c, k, -, rfl⟩ <;> rfl

/-- The one full-byte mode that goes through the palette is Indexed8 (R93). -/
theorem eq_idx8_of_fullByte {cm : ColorMode} (hfull : cm.fullByte = true) (hcm : cm.indexed = true) : cm = .idx8 := by
  by_contra hne
  rw [fullByte_eq_false_of_indexed hcm hne] at hfull
  contradiction

/-! ## The rows -/

/-- The body of every command raises only what the command's row of R329 allows, and leaves the latched cause alone if
it completes. -/
theorem exec_body_meets {i : Instr} (s : State) (hw : i.wellFormed = true) :
    ∃ b, exec i s = runCommand i s b ∧ Meets (mayRaise s i) (CauseKept s) b := by
  cases i
  case nop => exact ⟨_, exec_nop s, rfl⟩
  case ldi rd imm => exact ⟨_, exec_ldi s rd imm, rfl⟩
  case ldih rd imm => exact ⟨_, exec_ldih s rd imm, rfl⟩
  case mov rd rs1 => exact ⟨_, exec_mov s rd rs1, rfl⟩
  case csrr rd n => exact ⟨_, exec_csrr s rd n, rfl⟩
  case csrw rs1 n => exact ⟨_, exec_csrw s rs1 n, setCsr_faultCause s n _⟩
  case ldc rd rs1 =>
    exact ⟨_, exec_ldc s rd rs1, .andThen cause_of_readColor (by simp [mayRaise]) fun _ => rfl⟩
  case stc rs1 rs2 =>
    exact ⟨_, exec_stc s rs1 rs2, .andThen cause_of_checkAccess (by simp [mayRaise]) fun _ => rfl⟩
  case ldraw rd rs1 cm bo =>
    exact ⟨_, exec_ldraw s rd rs1 cm bo, .andThen cause_of_checkAccess (by simp [mayRaise]) fun _ => rfl⟩
  case straw rs1 rs2 cm bo =>
    exact ⟨_, exec_straw s rs1 rs2 cm bo, .andThen cause_of_checkAccess (by simp [mayRaise]) fun _ => rfl⟩
  case cget rd rs1 ch => exact ⟨_, exec_cget s rd rs1 ch, rfl⟩
  case cset rd rs1 rs2 ch => exact ⟨_, exec_cset s rd rs1 rs2 ch, rfl⟩
  case copq rd rs1 => exact ⟨_, exec_copq s rd rs1, rfl⟩
  case cisopq rd rs1 => exact ⟨_, exec_cisopq s rd rs1, rfl⟩
  case toargb rd rs1 cm =>
    refine ⟨_, exec_toargb s rd rs1 cm,
      .bind (mid := fun _ => True) (meets_iff.mpr ⟨fun _ _ => trivial, fun e he => ?_⟩) fun _ _ => rfl⟩
    obtain ⟨hcm, hb, hcause⟩ := cause_of_toArgb he
    simp [mayRaise, hcm, hb, hcause]
  case fromargb rd rs1 cm =>
    refine ⟨_, exec_fromargb s rd rs1 cm, .bind (meets_iff.mpr ⟨fun r hr => ?_, fun e he => ?_⟩) fun r hr => hr⟩
    · exact (lookedUp_of_fromArgb (i := .fromargb rd rs1 cm) id hr).causeKept
    · obtain ⟨hcm, hcause⟩ := cause_of_fromArgb he
      simp [mayRaise, hcm, hcause]
  case transp rd cm => exact ⟨_, exec_transp s rd cm, rfl⟩
  case bpp rd cm => exact ⟨_, exec_bpp s rd cm, rfl⟩
  case blend rd rs1 rs2 bm => exact ⟨_, exec_blend s rd rs1 rs2 bm, rfl⟩
  case blendv rn rs1 rs2 bm =>
    exact ⟨_, exec_blendv s rn rs1 rs2 bm,
      .andThen cause_of_checkAccess (by simp [mayRaise]) fun _ =>
        .andThen cause_of_checkAccess (by simp [mayRaise]) fun _ => rfl⟩
  case blendvs rn rs1 rs2 bm =>
    exact ⟨_, exec_blendvs s rn rs1 rs2 bm, .andThen cause_of_checkAccess (by simp [mayRaise]) fun _ => rfl⟩
  case blendraw rd rs1 rs2 cm bm =>
    refine ⟨_, exec_blendraw s rd rs1 rs2 cm bm,
      .bind (meets_iff.mpr ⟨fun r hr => ?_, fun e he => ?_⟩) fun r hr => hr⟩
    · exact (lookedUp_of_rawBlend (i := .blendraw rd rs1 rs2 cm bm) id hr).causeKept
    · obtain ⟨hcm, ⟨hb, hcause⟩ | hcause⟩ := cause_of_rawBlend he
      · simp [mayRaise, hcm, hb, hcause]
      · simp [mayRaise, hcm, hcause]
  case blendrawm rs1 rs2 cm bm bo =>
    refine ⟨_, exec_blendrawm s rs1 rs2 cm bm bo,
      .andThen cause_of_checkAccess (by simp [mayRaise]) fun _ =>
        .bind (meets_iff.mpr ⟨fun r hr => ?_, fun e he => ?_⟩) fun r hr => hr⟩
    · exact (lookedUp_of_rawBlend (i := .blendrawm rs1 rs2 cm bm bo) id hr).causeKept
    · obtain ⟨hcm, ⟨-, hcause⟩ | hcause⟩ := cause_of_rawBlend he
      · simp [mayRaise, hcause]
      · simp [mayRaise, eq_idx8_of_fullByte hw hcm, hcause]
  case sbload rd rs1 rs2 cm po =>
    exact ⟨_, exec_sbload s rd rs1 rs2 cm po, .andThen cause_of_checkBelow (by simp [mayRaise]) fun _ => rfl⟩
  case sbstore rd rs1 rs2 cm po =>
    exact ⟨_, exec_sbstore s rd rs1 rs2 cm po, .andThen cause_of_checkBelow (by simp [mayRaise]) fun _ => rfl⟩
  case sbexpand rd rs1 cm => exact ⟨_, exec_sbexpand s rd rs1 cm, rfl⟩
  case sbbulk rs1 rs2 cm po =>
    exact ⟨_, exec_sbbulk s rs1 rs2 cm po,
      .andThen cause_of_checkAccess (by simp [mayRaise]) fun _ =>
        .andThen cause_of_loadSlots (by simp [mayRaise]) fun _ => rfl⟩
  case sbloadm rd rs1 rs2 cm po =>
    exact ⟨_, exec_sbloadm s rd rs1 rs2 cm po,
      .andThen cause_of_checkBelow (by simp [mayRaise]) fun _ =>
        .andThen cause_of_checkAccess (by simp [mayRaise]) fun _ => rfl⟩
  case sbstorem rn rs1 rs2 cm po =>
    exact ⟨_, exec_sbstorem s rn rs1 rs2 cm po,
      .andThen cause_of_checkBelow (by simp [mayRaise]) fun _ =>
        .andThen cause_of_checkAccess (by simp [mayRaise]) fun _ => rfl⟩
  case palro rs1 rs2 tm =>
    refine ⟨_, exec_palro s rs1 rs2 tm, .andThen cause_of_sizeOperand (by simp [mayRaise]) fun size => ?_⟩
    by_cases htm : tm = .auto
    · rw [if_pos htm]
      exact .andThen cause_of_readArray (by simp [mayRaise, htm]) fun _ => rfl
    · rw [if_neg htm]
      rfl
  case palrw rs1 rs2 tm =>
    exact ⟨_, exec_palrw s rs1 rs2 tm,
      .andThen cause_of_sizeOperand (by simp [mayRaise]) fun _ =>
        .andThen cause_of_readArray (by simp [mayRaise]) fun _ => rfl⟩
  case paldyn rs1 =>
    exact ⟨_, exec_paldyn s rs1, .andThen cause_of_sizeOperand (by simp [mayRaise]) fun _ => rfl⟩
  case palidx rd rs1 =>
    refine ⟨_, exec_palidx s rd rs1, .bind (meets_iff.mpr ⟨fun r hr => ?_, fun e he => ?_⟩) fun r hr => hr⟩
    · exact (lookedUp_of_indexOfColor (i := .palidx rd rs1) rfl hr).causeKept
    · simp [mayRaise, cause_of_indexOfColor he]

/-- Settles O11: the frame latches what the body raises, and a body that completes keeps the cause. -/
theorem faultsByCommand : Obligations.FaultsByCommand := by
  intro i s t hw hs h
  obtain ⟨b, he, hb⟩ := exec_body_meets s hw
  rcases runCommand_cases (he ▸ h) with ⟨-, u, rfl, rfl⟩ | ⟨-, f, rfl, rfl⟩ | ⟨hill, -⟩
  · exact .inl (hb.trans hs)
  · exact .inr hb
  · rw [hw] at hill
    contradiction

end Sys2Proof.Machine
end

section
/-! SUPPORT. A word at the command port: legal or not, and with a fault latched or not (spec/60_exceptions.md R321,
R324, R326). -/

namespace Sys2Proof.Machine

/-! ## Words that are no command -/

theorem writeCommand_of_illegal {s : State} {w : Word} (hs : s.statusFaulted = false) (hw : ¬ LegalWord w) :
    writeCommand w s = .next (s.takeFault .illegalCommand w) := by
  have hready : s.ready = true := by rw [State.ready, hs, Bool.not_false]
  rw [writeCommand, if_pos hready]
  cases hdec : decode w with
  | ok i => exact absurd ((legalWordsAreCommands w).mp ⟨i, hdec⟩) hw
  | error e => rfl

theorem csr_faultCause_eq_one_iff (s : State) : s.csr .faultCause = 1 ↔ s.faultCause = .illegalCommand := by
  cases h : s.faultCause <;> simp [State.csr, FaultCause.code, h]

/-- R329's table does not list IllegalCommand: it is a matter of the word alone (R321). -/
theorem illegalCommand_notMem_mayRaise (s : State) (i : Instr) : .illegalCommand ∉ mayRaise s i := by
  cases i
  case toargb | fromargb | blendraw | blendrawm | palro =>
    simp only [mayRaise]
    split_ifs <;> simp
  all_goals simp [mayRaise]

/-- A legal command never raises IllegalCommand (R321). -/
theorem faultCause_ne_illegalCommand {i : Instr} {s t : State} (hw : i.wellFormed = true) (hs : s.faultCause = .none)
    (h : exec i s = .next t) : t.faultCause ≠ .illegalCommand := by
  intro hill
  rcases faultsByCommand i s t hw hs h with hnone | hmem
  · rw [hill] at hnone
    contradiction
  · rw [hill] at hmem
    exact illegalCommand_notMem_mayRaise s i hmem

/-- Settles O6: a legal word is executed, and its command raises only what R329's table lists. -/
theorem illegalWordFaults : Obligations.IllegalWordFaults := by
  intro s w hs hlatch
  obtain ⟨hcause, -⟩ := hlatch.1 hs
  by_cases hw : LegalWord w
  · obtain ⟨i, hdec⟩ := (legalWordsAreCommands w).mpr hw
    obtain ⟨hwf, -⟩ := encodeOfDecode w i hdec
    obtain ⟨b, he⟩ := exec_eq_runCommand s i
    obtain ⟨t, ht⟩ := runCommand_answers i s b
    rw [← he] at ht
    refine ⟨t, (writeCommand_of_decode hs hdec).trans ht, ?_, fun hill => absurd hw hill⟩
    rw [csr_faultCause_eq_one_iff]
    exact iff_of_false (faultCause_ne_illegalCommand hwf hcause ht) (not_not.mpr hw)
  · exact ⟨_, writeCommand_of_illegal hs hw, iff_of_true rfl hw,
      fun _ => takesFault_takeFault s .illegalCommand w⟩

/-! ## Completion or a precise fault -/

/-- All that a word at the command port can do while no fault is latched: one effect of a command, counted, or a fault
that records the word (R324). -/
theorem writeCommand_cases {s t : State} {w : Word} (hs : s.statusFaulted = false) (h : writeCommand w s = .next t) :
    (∃ i u, Effect i s u ∧ t = u.count) ∨ ∃ f, t = s.takeFault f w := by
  by_cases hw : LegalWord w
  · obtain ⟨i, hdec⟩ := (legalWordsAreCommands w).mpr hw
    obtain ⟨-, rfl⟩ := encodeOfDecode w i hdec
    rw [writeCommand_of_decode hs hdec] at h
    rcases exec_cases h with hu | hf
    · exact .inl ⟨i, hu⟩
    · exact .inr hf
  · rw [writeCommand_of_illegal hs hw] at h
    injection h with h
    exact .inr ⟨_, h.symm⟩

/-- The effect of a command reaches no CSR but those of class RW and the palette's. -/
theorem Effect.csr_kept {i : Instr} {s u : State} (h : Effect i s u) {n : Csr} (hw : n.writable = false)
    (hp : n ∉ paletteCsrs) : u.csr n = s.csr n := by
  by_contra hn
  rcases h.csr_writers hn with ⟨hrw, -⟩ | ⟨hpal, -⟩ | ⟨rfl | rfl, -⟩
  · rw [hw] at hrw
    contradiction
  · exact hp hpal
  · exact hp (by decide)
  · exact hp (by decide)

theorem cause_code_bounds (f : Raise) : 1 ≤ f.cause.code ∧ f.cause.code ≤ 4 := by
  cases f <;> simp [Raise.cause, FaultCause.code]

/-- Settles O10: the fault registers and CMDCNT are no CSRs that the effect of a command reaches. -/
theorem faultsArePrecise : Obligations.FaultsArePrecise := by
  intro s t w hs h
  rcases writeCommand_cases hs h with ⟨i, u, hu, rfl⟩ | ⟨f, rfl⟩
  · refine .inl ⟨counted_count (hu.csr_kept (n := .cmdcnt) rfl (by decide)), fun n hn => ?_⟩
    have hfault : n ≠ .cmdcnt ∧ n.writable = false ∧ n ∉ paletteCsrs := by
      revert hn
      cases n <;> decide
    obtain ⟨hne, hro, hpal⟩ := hfault
    rw [csr_count u n hne, hu.csr_kept hro hpal]
  · obtain ⟨hlo, hhi⟩ := cause_code_bounds f
    exact .inr ⟨f.cause.code, f.info, hlo, hhi, takesFault_takeFault s f w, Bool.true_and _⟩

/-! ## While a fault is latched -/

theorem writeCommand_of_faulted {s : State} (hs : s.statusFaulted = true) (w : Word) : writeCommand w s = .next s := by
  have hready : ¬ s.ready = true := by simp [State.ready, hs]
  rw [writeCommand, if_neg hready]

/-- Settles O7: 0x140, 0x104 and 0x10C are the offsets of TRANSP565, STATUS and FAULT_CMD (R45). -/
theorem faultedEngineDropsCommands : Obligations.FaultedEngineDropsCommands := by
  intro s hs
  refine ⟨writeCommand_of_faulted hs, fun w rest hmoves => ?_,
    fun r v => ⟨_, portWrite_register r v s, reg_setReg_same s r v⟩,
    fun v => ⟨_, portWrite_csr .transp565 v s, toNat_csr_setCsr_same s v rfl⟩,
    (csr_status_eq_one_iff s).mpr hs, rfl⟩
  calc step s = writeCommand w (s.setMoves rest) := step_of_moves hmoves
    _ = .next (s.setMoves rest) := writeCommand_of_faulted (s := s.setMoves rest) hs w

end Sys2Proof.Machine
end

section
/-! SUPPORT. Operands out of range and forbidden lookups (spec/60_exceptions.md R322, R325). -/

namespace Sys2Proof.Machine

/-! ## OperandRange -/

/-- A body that stops at a pixel index beyond the slots of a byte (R322(a)). -/
theorem bind_of_not_below {v : Word} {bound : Nat} (h : bound ≤ v.toNat) (f : Unit → Exec State) :
    (checkBelow v bound >>= f) = .error (.operandRange v) := by
  rw [(checkBelow_eq_error_iff v bound _).mpr ⟨h, rfl⟩, Exec.error_bind]

/-- A body that stops at a palette size or capacity above 256 (R322(b), (c)). -/
theorem bind_of_oversized {v : Word} (h : 256 < v.toNat) (f : Fin 257 → Exec State) :
    (sizeOperand v >>= f) = .error (.operandRange v) := by
  rw [(sizeOperand_eq_error_iff v _).mpr ⟨h, rfl⟩, Exec.error_bind]

/-- Settles O53: in each of these commands the range of the operand is the first check (R327). -/
theorem operandRangeFaults : Obligations.OperandRangeFaults := by
  intro s rd rs1 rs2 cm po tm
  refine ⟨fun hcm h => ?slots, fun h => ?sizes⟩
  case slots =>
    have hsub : (!cm.fullByte) = true := by rw [hcm, Bool.not_false]
    exact ⟨raises_of_error (exec_sbload s rd rs1 rs2 cm po) hsub (bind_of_not_below h _),
      raises_of_error (exec_sbstore s rd rs1 rs2 cm po) hsub (bind_of_not_below h _),
      raises_of_error (exec_sbloadm s rd rs1 rs2 cm po) hsub (bind_of_not_below h _),
      raises_of_error (exec_sbstorem s rd rs1 rs2 cm po) hsub (bind_of_not_below h _)⟩
  case sizes =>
    exact ⟨raises_of_error (exec_palro s rs1 rs2 tm) rfl (bind_of_oversized h _),
      raises_of_error (exec_palrw s rs1 rs2 tm) rfl (bind_of_oversized h _),
      raises_of_error (exec_paldyn s rs2) rfl (bind_of_oversized h _)⟩

/-! ## PaletteAssert -/

section Asserting

variable {s : State} {cm : ColorMode} (hk : s.palKind = .readOnly) (ha : s.ctrlAssertEn = true)

include hk ha

theorem indexOfColor_asserts (c : Color) : indexOfColor s c = .error (.paletteAssert c) :=
  (indexOfColor_eq_error_iff s c _).mpr ⟨hk, ha, rfl⟩

theorem fromArgb_asserts (hcm : cm.indexed = true) (c : Color) : fromArgb s cm c = .error (.paletteAssert c) :=
  (fromArgb_eq_error_iff s cm c _).mpr ⟨hcm, hk, ha, rfl⟩

/-- A raw blend looks its result up after it decoded the destination (R250). -/
theorem rawBlend_asserts (hcm : cm.indexed = true) {raw : Nat} {d : Color} (hdec : DecodesTo s cm raw d)
    (bm : BlendMode) (src : Color) : rawBlend s bm cm raw src = .error (.paletteAssert (blend bm d src)) :=
  Exec.bind_eq_error.mpr (.inr ⟨d, (toArgb_eq_ok_iff s cm raw d).mpr hdec, fromArgb_asserts hk ha hcm _⟩)

end Asserting

/-- Settles O56: everything before the lookup completes, and the lookup raises. -/
theorem paletteAsserts : Obligations.PaletteAsserts := by
  intro s rd rs1 rs2 cm bm bo d hk ha
  refine ⟨?palidx, fun hcm => ?fromargb, fun hcm hdec => ?blendraw, fun hw hdec => ?blendrawm⟩
  case palidx =>
    exact raises_of_error (exec_palidx s rd rs1) rfl (Exec.bind_eq_error.mpr (.inl (indexOfColor_asserts hk ha _)))
  case fromargb =>
    exact raises_of_error (exec_fromargb s rd rs1 cm) rfl
      (Exec.bind_eq_error.mpr (.inl (fromArgb_asserts hk ha hcm _)))
  case blendraw =>
    exact raises_of_error (exec_blendraw s rd rs1 rs2 cm bm) rfl
      (Exec.bind_eq_error.mpr (.inl (rawBlend_asserts hk ha hcm hdec bm _)))
  case blendrawm =>
    rw [← load_one_byte s.mem (s.reg rs1).toNat bo] at hdec
    exact raises_of_error (exec_blendrawm s rs1 rs2 .idx8 bm bo) rfl
      ((bind_of_rangeOk hw _).trans (Exec.bind_eq_error.mpr (.inl (rawBlend_asserts hk ha rfl hdec bm _))))

end Sys2Proof.Machine
end

section
/-! SUPPORT. The colour modes in the state that the reset input leaves (spec/70_reset_and_hazards.md R352). -/

namespace Sys2Proof.Machine

/-! ## Modes that need no palette -/

/-- Outside the Indexed modes decoding needs no entry, so TOARGB always completes (R164, R200). -/
theorem exec_toargb_direct {s : State} {cm : ColorMode} (hcm : cm.indexed = false) (rd rs1 : Reg) :
    ∃ t, exec (.toargb rd rs1 cm) s = .next t ∧ DecodesTo s cm (s.reg rs1).toNat (t.reg rd) := by
  have hentry : EntryReadable s cm (s.reg rs1).toNat := fun hidx => absurd hidx (by simp [hcm])
  obtain ⟨t, hnext, hdec, -⟩ := toargbCommand s rd rs1 cm hentry
  exact ⟨t, hnext, hdec⟩

/-- Outside the Indexed modes encoding makes no lookup, so FROMARGB always completes (R165, R201). -/
theorem exec_fromargb_direct {s : State} {cm : ColorMode} (hcm : cm.indexed = false) (rd rs1 : Reg) :
    ∃ t ins, exec (.fromargb rd rs1 cm) s = .next t ∧ EncodesTo s cm (s.reg rs1) (t.reg rd).toNat ins := by
  have hallowed : LookupAllowed s cm := fun hidx => absurd hidx (by simp [hcm])
  obtain ⟨t, ins, hnext, henc, -⟩ := fromargbCommand s rd rs1 cm hallowed
  exact ⟨t, ins, hnext, henc⟩

/-! ## Modes that go through the palette -/

theorem decodesTo_iff_entryIs {cm : ColorMode} (hcm : cm.indexed = true) (s : State) (raw : Nat) (c : Color) :
    DecodesTo s cm raw c ↔ EntryIs s (raw % 2 ^ bitsPerPixel cm) c := by
  cases cm
  case idx1 | idx2 | idx4 | idx8 => exact Iff.rfl
  all_goals contradiction

/-- An entry of a borrowed palette is the word of the array (R292). -/
theorem EntryIs.wordAt {s : State} {i : Nat} {c : Color} (h : EntryIs s i c) (hk : s.palKind ≠ .dynamic) :
    WordAt s.mem (s.palBase.toNat + 4 * i) c := by
  obtain ⟨hk', -⟩ | ⟨-, -, hc⟩ := h
  · exact absurd hk' hk
  · exact (wordAt_iff _ _ _).mpr hc.symm

/-! ## The parameters of the modes at reset -/

/-- The parameters of the colour modes, the palette among them, as reset leaves them (R50). -/
structure ModesAtReset (u : State) : Prop where
  transp565 : u.csr .transp565 = 0
  tint : u.csr .tint = 0
  monoFg : u.csr .monoFg = 0
  monoBg : u.csr .monoBg = 0
  palTm : u.csr .palTm = 0
  palBase : u.palBase = 0
  palKind : u.palKind = .readOnly
  assertEn : u.ctrlAssertEn = true

/-- A register write leaves the parameters that the reset input set. -/
theorem modesAtReset_setReg (s : State) (r : Reg) (v : Word) : ModesAtReset (s.resetEngine.setReg r v) where
  transp565 := rfl
  tint := rfl
  monoFg := rfl
  monoBg := rfl
  palTm := rfl
  palBase := rfl
  palKind := rfl
  assertEn := rfl

namespace ModesAtReset

variable {u : State} (hu : ModesAtReset u) (rd rs1 : Reg)

include hu

/-- The reserved value of Rgb565WithTransparency is 0 (R182). -/
theorem toargb_rgb565t (hv : (u.reg rs1).toNat % 65536 = 0) :
    ∃ t, exec (.toargb rd rs1 .rgb565t) u = .next t ∧ t.reg rd = 0 := by
  obtain ⟨t, hnext, hdec⟩ := exec_toargb_direct (cm := .rgb565t) rfl rd rs1
  have hreserved : (u.csr .transp565).toNat = (u.reg rs1).toNat % 2 ^ bitsPerPixel .rgb565t := by
    rw [hu.transp565]
    exact hv.symm
  exact ⟨t, hnext, (if_pos hreserved).mp hdec⟩

/-- An opaque colour that would encode as the reserved value 0 gets bit 5 set (R183). -/
theorem fromargb_rgb565t (ha : alphaOf (u.reg rs1) = 255) (hc : rgb565Of (u.reg rs1) = 0) :
    ∃ t, exec (.fromargb rd rs1 .rgb565t) u = .next t ∧ t.reg rd = 0x20 := by
  obtain ⟨t, ins, hnext, hraw, -⟩ := exec_fromargb_direct (cm := .rgb565t) rfl rd rs1
  rw [ha, hc, hu.transp565] at hraw
  exact ⟨t, hnext, BitVec.eq_of_toNat_eq hraw⟩

/-- The tint of Alpha8 is black (R190). -/
theorem toargb_alpha8 :
    ∃ t, exec (.toargb rd rs1 .alpha8) u = .next t ∧ (t.reg rd).toNat = (u.reg rs1).toNat % 256 * 2 ^ 24 := by
  obtain ⟨t, hnext, hdec⟩ := exec_toargb_direct (cm := .alpha8) rfl rd rs1
  have hrule : (t.reg rd).toNat = (u.reg rs1).toNat % 256 * 2 ^ 24 + (u.csr .tint).toNat % 2 ^ 24 := hdec
  exact ⟨t, hnext, by simpa [hu.tint] using hrule⟩

/-- The tint of Alpha4 is black, and its four bits are replicated to eight (R168, R192). -/
theorem toargb_alpha4 :
    ∃ t, exec (.toargb rd rs1 .alpha4) u = .next t ∧
      (t.reg rd).toNat = (u.reg rs1).toNat % 16 * 17 * 2 ^ 24 := by
  obtain ⟨t, hnext, hdec⟩ := exec_toargb_direct (cm := .alpha4) rfl rd rs1
  have hrule : (t.reg rd).toNat = 17 * ((u.reg rs1).toNat % 16) * 2 ^ 24 + (u.csr .tint).toNat % 2 ^ 24 := hdec
  exact ⟨t, hnext, by simpa [hu.tint, Nat.mul_comm 17] using hrule⟩

/-- Both colours of Monochrome are 0 (R194). -/
theorem toargb_mono : ∃ t, exec (.toargb rd rs1 .mono) u = .next t ∧ t.reg rd = 0 := by
  obtain ⟨t, hnext, hdec⟩ := exec_toargb_direct (cm := .mono) rfl rd rs1
  rw [DecodesTo, hu.monoFg, hu.monoBg] at hdec
  exact ⟨t, hnext, hdec.trans (ite_self _)⟩

/-- The background of Monochrome is itself a colour of alpha 0, so the alpha alone decides (R195). -/
theorem fromargb_mono :
    ∃ t, exec (.fromargb rd rs1 .mono) u = .next t ∧ t.reg rd = if alphaOf (u.reg rs1) = 0 then 0 else 1 := by
  obtain ⟨t, ins, hnext, hraw, -⟩ := exec_fromargb_direct (cm := .mono) rfl rd rs1
  have hdecides : u.reg rs1 = 0 ∨ alphaOf (u.reg rs1) = 0 ↔ alphaOf (u.reg rs1) = 0 :=
    or_iff_right_of_imp fun h => by rw [h]; rfl
  have hrule : (t.reg rd).toNat = if alphaOf (u.reg rs1) = 0 then 0 else 1 := by
    rw [hraw, hu.monoBg]
    exact if_congr hdecides rfl rfl
  refine ⟨t, hnext, BitVec.eq_of_toNat_eq ?_⟩
  rw [hrule]
  split_ifs <;> rfl

/-- The class of `Transparent` is kCrude (R161, R196). -/
theorem transp_mono : ∃ t, exec (.transp rd .mono) u = .next t ∧ t.reg rd = 1 := by
  obtain ⟨⟨t, hnext, -, hreg⟩, -⟩ := modeQueryCommands u rd .mono
  simp only [hu.monoFg, hu.monoBg] at hreg
  exact ⟨t, hnext, BitVec.eq_of_toNat_eq hreg⟩

theorem borrowed : u.palKind ≠ .dynamic := by simp [hu.palKind]

/-- The array of the palette starts at address 0 (R36, R292). -/
theorem entryAddress (i : Nat) : u.palBase.toNat + 4 * i = 4 * i := by
  rw [hu.palBase]
  exact Nat.zero_add _

/-- An Indexed mode reads the word at four times its index (R197). -/
theorem toargb_indexed {cm : ColorMode} (hcm : cm.indexed = true)
    (h : RangeOk u .read (4 * ((u.reg rs1).toNat % 2 ^ bitsPerPixel cm)) 4) :
    ∃ t, exec (.toargb rd rs1 cm) u = .next t ∧
      WordAt u.mem (4 * ((u.reg rs1).toNat % 2 ^ bitsPerPixel cm)) (t.reg rd) := by
  rw [← hu.entryAddress] at h ⊢
  obtain ⟨t, hnext, hdec, -⟩ := toargbCommand u rd rs1 cm fun _ _ => h
  exact ⟨t, hnext, ((decodesTo_iff_entryIs hcm u _ _).mp hdec).wordAt hu.borrowed⟩

/-- That word is read through the memory map (R197, R323). -/
theorem toargb_indexed_raises {cm : ColorMode} (hcm : cm.indexed = true) {b : Nat}
    (h : LowestBad u .read (4 * ((u.reg rs1).toNat % 2 ^ bitsPerPixel cm)) 4 b) :
    Raises 3 (addressInfo b) (.toargb rd rs1 cm) u := by
  rw [← hu.entryAddress] at h
  exact raises_accessFault (exec_toargb u rd rs1 cm) rfl
    (Exec.bind_eq_error.mpr (.inl (toArgb_raises hcm hu.borrowed h)))

/-- An Indexed mode reports PAL_TM (R196). -/
theorem transp_indexed {cm : ColorMode} (hcm : cm.indexed = true) :
    ∃ t, exec (.transp rd cm) u = .next t ∧ t.reg rd = 0 := by
  obtain ⟨⟨t, hnext, -, hreg⟩, -⟩ := modeQueryCommands u rd cm
  refine ⟨t, hnext, BitVec.eq_of_toNat_eq ?_⟩
  cases cm
  case idx1 | idx2 | idx4 | idx8 => exact hreg.trans (congrArg BitVec.toNat hu.palTm)
  all_goals contradiction

end ModesAtReset

/-- Settles O15: the reset input sets the parameters of the modes, and the write of one register keeps them; the
lookups that fail are those of O56. -/
theorem modesAfterReset : Obligations.ModesAfterReset := by
  intro s v rd rs1 u hreset
  have hu : ModesAtReset u := hreset ▸ modesAtReset_setReg s rs1 v
  obtain rfl : u.reg rs1 = v := by rw [hreset, reg_setReg_same]
  have hasserts := fun cm => paletteAsserts u rd rs1 rs1 cm .src .le 0 hu.palKind hu.assertEn
  refine ⟨hu.toargb_rgb565t rd rs1, hu.fromargb_rgb565t rd rs1, hu.toargb_alpha8 rd rs1, hu.toargb_alpha4 rd rs1,
    hu.toargb_mono rd rs1, hu.fromargb_mono rd rs1, hu.transp_mono rd, fun cm hcm => ?indexed, ?palidx⟩
  case indexed =>
    obtain ⟨-, hfromargb, -⟩ := hasserts cm
    exact ⟨hu.toargb_indexed rd rs1 hcm, fun b => hu.toargb_indexed_raises rd rs1 hcm, hfromargb hcm,
      hu.transp_indexed rd hcm⟩
  case palidx =>
    obtain ⟨hpalidx, -⟩ := hasserts .idx8
    exact hpalidx

end Sys2Proof.Machine
end

section
/-! SUPPORT. The host's moves (spec/70_reset_and_hazards.md R367): each has a next state, and what those change that do
not go through the port. -/

namespace Sys2Proof.Machine

/-! ## Every move is answered -/

theorem exec_answers (i : Instr) (s : State) : ∃ t, exec i s = .next t := by
  obtain ⟨body, hbody⟩ := exec_eq_runCommand s i
  rw [hbody]
  exact runCommand_answers i s body

/-- A word is dropped, refused with IllegalCommand, or executed (R95, R326). -/
theorem writeCommand_answers (w : Word) (s : State) : ∃ t, writeCommand w s = .next t := by
  unfold writeCommand
  split
  · split
    · exact exec_answers _ s
    · exact ⟨_, rfl⟩
  · exact ⟨_, rfl⟩

theorem portWrite_answers (offset : Nat) (v : Word) (s : State) : ∃ t, portWrite offset v s = .next t := by
  unfold portWrite
  cases portLocation offset with
  | command => exact writeCommand_answers v s
  | register | csr | faultClear | reserved => exact ⟨_, rfl⟩

theorem hostMove_answers (m : HostMove) (s : State) : ∃ t, hostMove m s = .next t := by
  cases m with
  | portWrite offset v => exact portWrite_answers offset v s
  | portRead | memWrite | memRead | reset => exact ⟨_, rfl⟩

theorem step_of_no_moves {s : State} (h : s.moves = []) : step s = .next s := by
  unfold step takeMove
  rw [h]

/-- Settles O9: a step is the next of the pending moves, or none. -/
theorem engineIsNeverStuck : Obligations.EngineIsNeverStuck := by
  refine ⟨fun s => ?_, exec_answers⟩
  cases hmoves : s.moves with
  | nil => exact ⟨s, step_of_no_moves hmoves⟩
  | cons m rest =>
    rw [step_of_moves hmoves]
    exact hostMove_answers m _

/-! ## The host's own path to the memory -/

theorem hostMove_memWrite (a : Word) (b : Byte) (s : State) :
    hostMove (.memWrite a b) s = .next (s.setMem (Memory.write s.mem a.toNat b)) := rfl

/-- Settles O58: the write replaces the memory and nothing else, by one that differs at one address. -/
theorem hostMemoryMoves : Obligations.HostMemoryMoves := by
  intro s a b off
  refine ⟨rfl, rfl, _, hostMove_memWrite a b s, Memory.read_write_same a.toNat b, fun x hx => ?_, fun _ => rfl,
    fun n _ => csr_setMem s _ n, ⟨rfl, rfl⟩, rfl, rfl⟩
  exact Memory.read_write_ne s.mem a.toNat x b (by omega)

end Sys2Proof.Machine
end
